-- ==== Sys2Proof/Word.lean ====
section
/-! DEFINITION. The word types of the block (00_scope.md R13, R17). -/

namespace Sys2Proof

/-- A 32-bit register or datum (R13, R17). -/
abbrev Word := BitVec 32

/-- One byte of `INBUF` (R70). -/
abbrev Byte := BitVec 8

end Sys2Proof
end

