-- ==== Sys2Proof/Syntax.lean ====
section
/-! DEFINITION. The nine commands of 30_encoding.md R102, and the names their fields are decoded to. -/

namespace Sys2Proof

/-- `outputFormat`: the five wire formats (30_encoding.md R106). -/
inductive Format
  | i2s | pt8211 | exdf | i2sDual | pt8211Dual
deriving DecidableEq, Repr

/-- `jitterMode` (30_encoding.md R107, 10_state.md R25). -/
inductive JitterMode
  | default | lj | ljoc | ext
deriving DecidableEq, Repr

/-- The playback strategy chosen by `useSecondContext` (10_state.md R26, 30_encoding.md R101). -/
inductive Strategy
  | irq | ctx2
deriving DecidableEq, Repr

/-- `handlerSel` (30_encoding.md R101, 10_state.md R28). -/
inductive Handler
  | default | custom
deriving DecidableEq, Repr

/-- `depthCode` (30_encoding.md R101): the code 3 decodes, and ENQUEUE raises on it. -/
inductive BitDepth
  | bits16 | bits24 | bits32 | invalid
deriving DecidableEq, Repr

/-- One constructor per row of spec/opcode_table.json, in its order (30_encoding.md R102).
`outputFormat` and `channel` keep their code: the two field constraints of R102 are checked by
`Instr.wellFormed`. -/
inductive Instr
  /-- CONFIGURE_PINS (45_volume_lifecycle.md R272). -/
  | configurePins (dataPin clockPinBase masterClockPin : BitVec 6) (mclkEn : Bool)
  /-- CONFIGURE (45_volume_lifecycle.md R274). -/
  | configure (outputFormat : BitVec 3) (jitterMode : JitterMode) (strategy : Strategy)
  /-- INITIALIZE (45_volume_lifecycle.md R276). -/
  | initializeAt (sampleRate : BitVec 24)
  /-- CHANGE_RATE (42_clock_configurator.md R190). -/
  | changeRate (sampleRate : BitVec 24)
  /-- ENQUEUE (41_packer_volume.md R150). -/
  | enqueue (byteCount : BitVec 22) (depth : BitDepth)
  /-- OCCUPANCY (40_ring_buffer.md R136). -/
  | occupancy
  /-- SET_VOLUME (45_volume_lifecycle.md R270); `attenuationDb` is two's complement. -/
  | setVolume (attenuationDb : BitVec 16) (channel : BitVec 2)
  /-- SET_HANDLER (45_volume_lifecycle.md R278). -/
  | setHandler (handler : Handler)
  /-- SHUTDOWN (45_volume_lifecycle.md R279). -/
  | shutdown
deriving DecidableEq, Repr

end Sys2Proof
end

