-- ==== Sys2Proof/WellFormed.lean ====
section
/-! DEFINITION. The field constraints that are part of selecting a command (30_encoding.md R102). -/

namespace Sys2Proof

/-- "CONFIGURE requires `outputFormat <= 4`; SET_VOLUME requires `channelSelector <= 2`" (R102).
Every other operand value its field can hold is legal at decode. -/
def Instr.wellFormed : Instr → Bool
  | .configurePins _ _ _ _ => true
  | .configure outputFormat _ _ => decide (outputFormat.toNat ≤ 4)
  | .initializeAt _ => true
  | .changeRate _ => true
  | .enqueue _ _ => true
  | .occupancy => true
  | .setVolume _ channel => decide (channel.toNat ≤ 2)
  | .setHandler _ => true
  | .shutdown => true

end Sys2Proof
end

