-- ==== Sys2Proof/Decode.lean ====
section
/-! DEFINITION. The command word: field codes (30_encoding.md R101, R106 to R108), the decoder (R100, R102,
R103), and the encoder written from the same tables. -/

namespace Sys2Proof

/-! ## Field codes -/

/-- `outputFormat` codes (R106); 5 to 7 name no format. -/
def Format.ofCode (c : BitVec 3) : Option Format :=
  match c.toNat with
  | 0 => some .i2s
  | 1 => some .pt8211
  | 2 => some .exdf
  | 3 => some .i2sDual
  | 4 => some .pt8211Dual
  | _ => none

/-- The code of a format (R106). -/
def Format.code : Format → BitVec 3
  | .i2s => 0
  | .pt8211 => 1
  | .exdf => 2
  | .i2sDual => 3
  | .pt8211Dual => 4

/-- `jitterMode` codes (R107); all four are legal. -/
def JitterMode.ofCode (c : BitVec 2) : JitterMode :=
  match c.toNat with
  | 0 => .default
  | 1 => .lj
  | 2 => .ljoc
  | _ => .ext

/-- The code of a jitter mode (R107). -/
def JitterMode.code : JitterMode → BitVec 2
  | .default => 0
  | .lj => 1
  | .ljoc => 2
  | .ext => 3

/-- `useSecondContext`: 1 = second-context strategy, 0 = interrupt-driven (R101). -/
def Strategy.ofBit (b : Bool) : Strategy := if b then .ctx2 else .irq

/-- The bit of a strategy (R101, 10_state.md R26). -/
def Strategy.bit : Strategy → Bool
  | .irq => false
  | .ctx2 => true

/-- `handlerSel`: 0 = default handler, 1 = caller-supplied (R101). -/
def Handler.ofBit (b : Bool) : Handler := if b then .custom else .default

/-- The bit of a handler selection (R101, 10_state.md R28). -/
def Handler.bit : Handler → Bool
  | .default => false
  | .custom => true

/-- `depthCode`: 0 = 16, 1 = 24, 2 = 32 bits per sample, 3 = invalid (R101). -/
def BitDepth.ofCode (c : BitVec 2) : BitDepth :=
  match c.toNat with
  | 0 => .bits16
  | 1 => .bits24
  | 2 => .bits32
  | _ => .invalid

/-- The code of a bit depth (R101). -/
def BitDepth.code : BitDepth → BitVec 2
  | .bits16 => 0
  | .bits24 => 1
  | .bits32 => 2
  | .invalid => 3

/-! ## The decoder -/

/-- Why a word is reserved (30_encoding.md R103). -/
inductive DecodeError
  /-- Opcode 0x00, or 0x0A to 0xFF. -/
  | reservedOpcode
  /-- A nonzero must-be-zero bit. -/
  | mustBeZero
  /-- `outputFormat` 5 to 7. -/
  | reservedFormat
  /-- `channelSelector` 3. -/
  | reservedChannel
deriving DecidableEq, Repr

/-- The slice `w[lo+len-1 : lo]` (00_scope.md R13). -/
def field (w : Word) (lo len : Nat) : BitVec len := w.extractLsb' lo len

/-- `i` where the must-be-zero field `z` is 0, else the word is reserved (R103). -/
def whenZero {len : Nat} (z : BitVec len) (i : Except DecodeError Instr) : Except DecodeError Instr :=
  if z = 0 then i else .error .mustBeZero

/-- Decoding of one command word (R100 to R103): opcode in [31:24], payload in [23:0]. -/
def decode (w : Word) : Except DecodeError Instr :=
  match (field w 24 8).toNat with
  | 0x01 => whenZero (field w 19 5)
      (.ok (.configurePins (field w 0 6) (field w 6 6) (field w 12 6) (w.getLsbD 18)))
  | 0x02 => whenZero (field w 6 18)
      (if (field w 0 3).toNat ≤ 4 then
        .ok (.configure (field w 0 3) (JitterMode.ofCode (field w 3 2)) (Strategy.ofBit (w.getLsbD 5)))
      else .error .reservedFormat)
  | 0x03 => .ok (.initializeAt (field w 0 24))
  | 0x04 => .ok (.changeRate (field w 0 24))
  | 0x05 => .ok (.enqueue (field w 0 22) (BitDepth.ofCode (field w 22 2)))
  | 0x06 => whenZero (field w 0 24) (.ok .occupancy)
  | 0x07 => whenZero (field w 18 6)
      (if (field w 16 2).toNat ≤ 2 then .ok (.setVolume (field w 0 16) (field w 16 2))
      else .error .reservedChannel)
  | 0x08 => whenZero (field w 1 23) (.ok (.setHandler (Handler.ofBit (w.getLsbD 0))))
  | 0x09 => whenZero (field w 0 24) (.ok .shutdown)
  | _ => .error .reservedOpcode

/-- The decoder's answer for an instruction word given as a number, bit 0 least significant. A command
is one 32-bit word (R100), written to `CMD` whole, so no byte order arises. -/
def decodeTableWord (nbits w : Nat) : Option Instr :=
  match decode (BitVec.ofNat 32 (w % 2 ^ nbits)) with
  | .ok i => some i
  | .error _ => none

/-! ## The encoder -/

/-- A value placed with its bit 0 at bit `lo` of the word. -/
def place {len : Nat} (v : BitVec len) (lo : Nat) : Word := v.setWidth 32 <<< lo

/-- The word of a command, from the word formulas of 40_ring_buffer.md R136, 41_packer_volume.md R150,
42_clock_configurator.md R190 and 45_volume_lifecycle.md R270, R272, R274, R276, R278, R279. -/
def encode : Instr → Word
  | .configurePins d c m en => 0x01000000 ||| place (BitVec.ofBool en) 18 ||| place m 12 ||| place c 6 ||| place d 0
  | .configure f j st => 0x02000000 ||| place (BitVec.ofBool st.bit) 5 ||| place j.code 3 ||| place f 0
  | .initializeAt r => 0x03000000 ||| place r 0
  | .changeRate r => 0x04000000 ||| place r 0
  | .enqueue n d => 0x05000000 ||| place d.code 22 ||| place n 0
  | .occupancy => 0x06000000
  | .setVolume a ch => 0x07000000 ||| place ch 16 ||| place a 0
  | .setHandler h => 0x08000000 ||| place (BitVec.ofBool h.bit) 0
  | .shutdown => 0x09000000

/-- `match` of the command's row in the opcode map (R102). -/
def Instr.rowMatch : Instr → Word
  | .configurePins _ _ _ _ => 0x01000000
  | .configure _ _ _ => 0x02000000
  | .initializeAt _ => 0x03000000
  | .changeRate _ => 0x04000000
  | .enqueue _ _ => 0x05000000
  | .occupancy => 0x06000000
  | .setVolume _ _ => 0x07000000
  | .setHandler _ => 0x08000000
  | .shutdown => 0x09000000

/-- `mask` of the command's row in the opcode map (R102). -/
def Instr.rowMask : Instr → Word
  | .configurePins _ _ _ _ => 0xFFF80000
  | .configure _ _ _ => 0xFFFFFFC0
  | .initializeAt _ => 0xFF000000
  | .changeRate _ => 0xFF000000
  | .enqueue _ _ => 0xFF000000
  | .occupancy => 0xFFFFFFFF
  | .setVolume _ _ => 0xFFFC0000
  | .setHandler _ => 0xFFFFFFFE
  | .shutdown => 0xFFFFFFFF

/-- The opcode map of R102 as pairs (match, mask), in its order. -/
def opcodeMap : List (Word × Word) :=
  [(0x01000000, 0xFFF80000), (0x02000000, 0xFFFFFFC0), (0x03000000, 0xFF000000), (0x04000000, 0xFF000000),
   (0x05000000, 0xFF000000), (0x06000000, 0xFFFFFFFF), (0x07000000, 0xFFFC0000), (0x08000000, 0xFFFFFFFE),
   (0x09000000, 0xFFFFFFFF)]

end Sys2Proof
end

