-- ==== Sys2Proof/Config.lean ====
section
/-! DEFINITION. The implementation parameters of 00_scope.md R11 as one record, what every rule may rely
on of them, and the example binding P1. A machine's parameters stand in `State.cfg` and no step
changes them, so a statement over every state is a statement over every binding (log 2). -/

namespace Sys2Proof

/-- The three packing policies (41_packer_volume.md R158). -/
inductive Policy
  | standard | exdf | dualMono
deriving DecidableEq, Repr

/-- The two rate families (00_scope.md R15). -/
inductive Family
  | f44k1 | f48k
deriving DecidableEq, Repr

/-- One value per rate family. -/
structure PerFamily (α : Type) where
  f44k1 : α
  f48k : α
deriving DecidableEq, Repr

/-- One value per output format code 0..4 (30_encoding.md R106). -/
structure PerFormat (α : Type) where
  i2s : α
  pt8211 : α
  exdf : α
  i2sDual : α
  pt8211Dual : α
deriving DecidableEq, Repr

/-- The parameters of 00_scope.md R11. `HW_CLAIM_OK` is no field of it: it is an input (log 3). -/
structure Params where
  /-- `N`, the ring's capacity in slots. -/
  n : Nat
  /-- `PAIRS_MAX`, the largest sample-pair count one ENQUEUE may carry. -/
  pairsMax : Nat
  /-- `MUTE_LEN`, the datum count of the mute block. -/
  muteLen : Nat
  /-- `VOLTAB[0..100]`. -/
  volTab : List Word
  /-- `OSF[fmt]`. -/
  osf : PerFormat Nat
  /-- `F_SYS0`, Hz. -/
  fSys0 : Word
  /-- `F_LJ[fam]`, Hz. -/
  fLj : PerFamily Word
  /-- `F_LJOC[fam]`, Hz. -/
  fLjoc : PerFamily Word
  /-- `F_EXT[fam]`, Hz. -/
  fExt : PerFamily Word
  /-- `PLLMAP`, as pairs (Hz, platform PLL setting) (log 18). -/
  pllMap : List (Word × Nat)
  /-- `NPINS`. -/
  nPins : Nat
  /-- `POLICY[fmt]`. -/
  policy : PerFormat Policy
deriving DecidableEq, Repr

/-- The multiplier value that is unity gain, `0x20000000` (00_scope.md R10). -/
def unityGain : Word := 0x20000000

/-- Whether some format has the policy `p` (00_scope.md R11: "each policy is the image of at least one format"). -/
abbrev Params.hasPolicy (p : Params) (q : Policy) : Prop :=
  p.policy.i2s = q ∨ p.policy.pt8211 = q ∨ p.policy.exdf = q ∨ p.policy.i2sDual = q ∨ p.policy.pt8211Dual = q

/-- The constraint column of 00_scope.md R11, and the upper bounds that the field widths of 10_state.md
put on the parameters (DEDUCED, log 13). -/
structure Params.WF (p : Params) : Prop where
  n_min : 4 ≤ p.n
  n_quarter : p.n % 4 = 0
  n_width : p.n ≤ 255
  pairs_min : 1 ≤ p.pairsMax
  pairs_width : 4 * p.pairsMax < 2 ^ 32
  mute_min : 2 ≤ p.muteLen
  mute_even : p.muteLen % 2 = 0
  mute_max : p.muteLen ≤ 4 * p.pairsMax
  mute_width : 2 * p.muteLen < 2 ^ 32
  volTab_length : p.volTab.length = 101
  volTab_unity : p.volTab[0]? = some unityGain
  volTab_max : ∀ m ∈ p.volTab, m.toNat ≤ unityGain.toNat
  volTab_falls : p.volTab.Pairwise fun a b => b.toNat ≤ a.toNat
  osf_i2s : 1 ≤ p.osf.i2s
  osf_pt8211 : 1 ≤ p.osf.pt8211
  osf_exdf : 1 ≤ p.osf.exdf
  osf_i2sDual : 1 ≤ p.osf.i2sDual
  osf_pt8211Dual : 1 ≤ p.osf.pt8211Dual
  fSys0_pos : 0 < p.fSys0.toNat
  fLj_pos : 0 < p.fLj.f44k1.toNat ∧ 0 < p.fLj.f48k.toNat
  fLjoc_pos : 0 < p.fLjoc.f44k1.toNat ∧ 0 < p.fLjoc.f48k.toNat
  fExt_pos : 0 < p.fExt.f44k1.toNat ∧ 0 < p.fExt.f48k.toNat
  pllMap_total : ∀ hz ∈ [p.fLj.f44k1, p.fLj.f48k, p.fLjoc.f44k1, p.fLjoc.f48k],
    (p.pllMap.find? fun e => e.1 = hz).isSome = true
  nPins_min : 4 ≤ p.nPins
  policy_standard : p.hasPolicy .standard
  policy_exdf : p.hasPolicy .exdf
  policy_dualMono : p.hasPolicy .dualMono

/-- The example volume table of binding P1: `round(2^29 * 10^(-k/20))` for `k < 100`, 0 for `k = 100` (00_scope.md R11). -/
def volTabP1 : List Word :=
    [0x20000000, 0x1C8520B0, 0x196B230C, 0x16A77DEB, 0x1430CD75, 0x11FEB33C, 0x1009B9CF, 0x0E4B3B63, 0x0CBD4B40, 0x0B5AA19C] ++
    [0x0A1E89B1, 0x0904D1BD, 0x0809BCC4, 0x0729F5DA, 0x066284D6, 0x05B0C439, 0x05125831, 0x04852698, 0x04074FCB, 0x03972853] ++
    [0x03333333, 0x02DA1CDE, 0x028AB6B4, 0x0243F2FE, 0x0204E158, 0x01CCAB86, 0x019A9295, 0x016DEC57, 0x01462120, 0x0122A9C3] ++
    [0x01030DC5, 0x00E6E1C6, 0x00CDC614, 0x00B76563, 0x00A373AF, 0x0091AD39, 0x0081D59F, 0x0073B70F, 0x00672194, 0x005BEA6F] ++
    [0x0051EB85, 0x004902E3, 0x00411245, 0x0039FEB3, 0x0033B022, 0x002E1127, 0x00290EA8, 0x002497A2, 0x00209CEA, 0x001D10FA] ++
    [0x0019E7C7, 0x00171694, 0x001493CF, 0x001256F0, 0x0010585E, 0x000E9152, 0x000CFBC3, 0x000B924E, 0x000A5028, 0x0009310B] ++
    [0x00083127, 0x00074D17, 0x000681D4, 0x0005CCAB, 0x00052B37, 0x00049B51, 0x00041B11, 0x0003A8C3, 0x000342E4, 0x0002E819] ++
    [0x0002972D, 0x00024F0F, 0x00020EC8, 0x0001D57E, 0x0001A270, 0x000174EF, 0x00014C60, 0x0001283B, 0x00010804, 0x0000EB4E] ++
    [0x0000D1B7, 0x0000BAE9, 0x0000A695, 0x00009478, 0x00008452, 0x000075EE, 0x0000691B, 0x00005DAD, 0x0000537D, 0x00004A69] ++
    [0x00004251, 0x00003B1B, 0x000034AE, 0x00002EF3, 0x000029D8, 0x0000254B, 0x0000213D, 0x00001DA0, 0x00001A67, 0x00001788] ++
    [0x00000000]

/-- Binding P1 of 00_scope.md R11, an example and no claim about any hardware (R12; log 2). -/
def Params.p1 : Params where
  n := 8
  pairsMax := 128
  muteLen := 256
  volTab := volTabP1
  osf := ⟨128, 128, 128, 128, 128⟩
  fSys0 := 125000000
  fLj := ⟨135475200, 147456000⟩
  fLjoc := ⟨270950400, 294912000⟩
  fExt := ⟨45158400, 49152000⟩
  pllMap := [(135475200, 135475200), (147456000, 147456000), (270950400, 270950400), (294912000, 294912000)]
  nPins := 30
  policy := ⟨.standard, .standard, .exdf, .dualMono, .dualMono⟩

end Sys2Proof
end

