-- ==== Sys2Proof/Machine/State.lean ====
section
/-! DEFINITION. The state of the block (10_state.md R20 to R54), grouped as the source groups it (R20), with the
machine's parameters beside it and the model's own environment fields; why a step can stop; reset. -/

namespace Sys2Proof.Machine

/-! ## Names stored in fields and events -/

/-- `LC` (10_state.md R23). -/
inductive Lifecycle
  | idle | running
deriving DecidableEq, Repr

/-- `SYS_SRC` (10_state.md R35); the code 3 is never stored. -/
inductive SysSource
  | platform | pll | ext
deriving DecidableEq, Repr

/-- The source kind `DESC_SRC[9:8]` (10_state.md R44). -/
inductive SourceKind
  | nothing | muteBlock | slot | scratch
deriving DecidableEq, Repr

/-- `PH` (10_state.md R45). -/
inductive Phase
  | fill | wait
deriving DecidableEq, Repr

/-- `ERR` (10_state.md R50, 60_exceptions.md R300); codes 5 to 15 are never stored. -/
inductive ErrorClass
  | noError | configurationError | backpressureCondition | hardwareContention | illegalCommand
deriving DecidableEq, Repr

/-- The output events (60_exceptions.md R320). -/
inductive OutEvent
  | periClkDetach
  | sysClkRetarget (src : SysSource) (hz : Word)
  | setDivider (int : BitVec 16) (frac : BitVec 8)
  | setMclkDivider (int : BitVec 16) (frac : BitVec 8)
  | outputEnable (fmt : Format) (strat : Strategy) (dataPin clkBase : BitVec 6) (mclkEn : Bool) (mclkPin : BitVec 6)
  | dmaArm (kind : SourceKind) (idx : BitVec 8) (cnt : Word)
  | notify (b : Bool)
  | outputDisable
  | resourcesReleased
deriving DecidableEq, Repr

/-- The atomic steps of 20_memory.md R84 and the accesses and inputs of 60_exceptions.md R327, as entries of
the schedule (log 1). -/
inductive Event
  /-- The host writes the 32-bit register at a byte offset; at offset 0 it runs a command (10_state.md R52). -/
  | hostWrite (offset : Nat) (v : Word)
  /-- The host writes one byte; `INBUF[j]` stands at offset 0x1000 + j (R52). -/
  | hostWriteByte (offset : Nat) (v : Byte)
  /-- The host reads the 32-bit register at a byte offset (R52). -/
  | hostRead (offset : Nat)
  /-- The host reads one byte (R52). -/
  | hostReadByte (offset : Nat)
  /-- The DMA engine reads one datum of the armed source and delivers it (43_sequencer_irq.md R227). -/
  | dmaRead
  /-- Transfer complete (60_exceptions.md R311). -/
  | dmaDone
  /-- 43_sequencer_irq.md R220. -/
  | irqStep
  /-- 44_sequencer_second_context.md R251. -/
  | ctx2Fill
  /-- 44_sequencer_second_context.md R254. -/
  | ctx2Arm
  /-- `irq_step` whose hysteresis reads the occupancy before the producer's latest enqueue (20_memory.md R83, U7; log 14). -/
  | irqStepStale
  /-- `ctx2_fill` whose hysteresis reads the occupancy before the producer's latest enqueue (R83, U7; log 14). -/
  | ctx2FillStale
  /-- The host writes `CMD` while the backpressure pre-test of ENQUEUE still reads the occupancy before the consumer's
  latest dequeue (R83, U7; log 14). -/
  | commandStale (v : Word)
  /-- The platform makes its resources claimable or not: the answer `HW_CLAIM_OK` will give (R327; log 3). -/
  | platformClaim (ok : Bool)
  /-- The platform resets the block (70_reset_and_hazards.md R340). -/
  | platformReset
deriving DecidableEq, Repr

/-! ## The records of the state -/

/-- A byte memory: cells in strictly rising address order; an address not listed was never written since
reset and has no value (R356; log 9). -/
abbrev Memory := List Host.Cell

/-- A Sample Block's storage, a slot or a scratch area (10_state.md R38, R46). `data[j]` is datum `j`; a datum at or
beyond the list's end was never written since reset (log 8). -/
structure SampleBlock where
  data : List Word
  count : Word
deriving DecidableEq, Repr

/-- What CONFIGURE and CONFIGURE_PINS write: `FMT`, `JMODE`, `STRAT`, the pins, `MCLK_EN` (10_state.md R24 to R27). -/
structure Setup where
  fmt : Format
  jmode : JitterMode
  strat : Strategy
  pinData : BitVec 6
  pinClkBase : BitVec 6
  pinMclk : BitVec 6
  mclkEn : Bool
deriving DecidableEq, Repr

/-- The Clock Configuration State (10_state.md R30 to R36). -/
structure ClockState where
  rate : Word
  is48k : Bool
  divInt : BitVec 16
  divFrac : BitVec 8
  mdivInt : BitVec 16
  mdivFrac : BitVec 8
  sysHz : Word
  sysSrc : SysSource
  periDet : Bool
deriving DecidableEq, Repr

/-- The Volume State (10_state.md R37). -/
structure VolumeState where
  mulL : Word
  mulR : Word
deriving DecidableEq, Repr

/-- The Sample Ring Buffer (10_state.md R38 to R40). -/
structure Ring where
  slots : List SampleBlock
  occ : BitVec 8
  enq : BitVec 8
  deq : BitVec 8
deriving DecidableEq, Repr

/-- The Playback Mute State `MUTE` with the handler selection and the indicator it drives (10_state.md R28, R29, R41). -/
structure PlayState where
  mute : Bool
  hsel : Handler
  ind : Bool
deriving DecidableEq, Repr

/-- `DMA_BUSY`, `PEND`, `DESC_SRC` (kind and index), `DESC_COUNT` (10_state.md R42 to R44). -/
structure DmaState where
  busy : Bool
  pend : Bool
  kind : SourceKind
  idx : BitVec 8
  count : Word
deriving DecidableEq, Repr

/-- The second-context loop: `PH`, `CUR` (false = 0, true = 1), `SCR[0..1]` (10_state.md R45, R46). -/
structure ContextState where
  ph : Phase
  cur : Bool
  scr0 : SampleBlock
  scr1 : SampleBlock
deriving DecidableEq, Repr

/-- `RESULT` and `ERR` (10_state.md R49, R50). -/
structure ResultState where
  result : Word
  err : ErrorClass
deriving DecidableEq, Repr

/-- The model's own fields, which stand for the environment (20_memory.md R82). -/
structure Environment where
  /-- The steps still to come, first to come first (R84; log 1). -/
  schedule : List Event
  /-- What the platform would answer to a resource claim now, `HW_CLAIM_OK` (00_scope.md R11; log 3). -/
  hwClaimOk : Bool
  /-- How many datums of the transfer last armed have been delivered (43_sequencer_irq.md R227; log 7). -/
  pos : Nat
  /-- The datums delivered to the output state machine since reset, oldest first (R227; log 7). -/
  stream : List Word
  /-- What the host's last register read returned (log 12). -/
  rdata : Word
deriving DecidableEq, Repr

/-- The state. Parameters, then the spec's fields (10_state.md R20), then the model's own environment fields. -/
structure State where
  cfg : Params
  lc : Lifecycle
  setup : Setup
  clk : ClockState
  vol : VolumeState
  ring : Ring
  play : PlayState
  dma : DmaState
  ctx : ContextState
  res : ResultState
  inbuf : Memory
  trace : List OutEvent
  env : Environment
deriving DecidableEq, Repr

/-! ## Why a step can stop -/

/-- Where the machine stops with a fault. Every one is safe: nothing can be claimed past it. -/
inductive Fault
  /-- ENQUEUE reads an `INBUF` byte the host never wrote since reset (70_reset_and_hazards.md R356, U10). Raised by
  `execEnqueue`. Safe. -/
  | inbufUnwritten
  /-- The DMA engine or the fill step reads a datum never written since reset, or past the source's end (10_state.md
  R38, U11). Raised by `dmaRead`, `dmaDone`, `ctx2Fill`. Safe. -/
  | datumUnwritten (kind : SourceKind) (idx : BitVec 8)
  /-- The schedule names a step that is not enabled, so the block takes no such step (U20, U21; log 4). Raised by
  `irqStep`, `ctx2Fill`, their stale forms, `ctx2Arm`, `dmaRead`. Safe. -/
  | stepNotEnabled (e : Event)
  /-- The host accesses an offset, or a width at an offset, that the map of 10_state.md R52 does not have (log 11).
  Raised by the host port. Safe. -/
  | unmappedAccess (offset : Nat)
deriving DecidableEq, Repr

/-- Where an instruction has no meaning. Both are safe: nothing can be claimed past a refusal. -/
inductive Refusal
  /-- An instruction without a meaning yet. Raised by `exec`'s arms only. Safe. -/
  | notModelled (mnemonic : String)
  /-- An ENQUEUE whose `byteCount` is 0, no whole number of sample pairs, or over `PAIRS_MAX` pairs: "a model refuses
  it" (20_memory.md R75, U2). Raised by `execEnqueue`. Safe. -/
  | malformedEnqueue (byteCount : BitVec 22)
deriving DecidableEq, Repr

/-! ## Reset -/

/-- The state after reset of a block with the parameters `p` (10_state.md R54, 70_reset_and_hazards.md R340); memories
whose contents R54 leaves unspecified list nothing. The environment's fields are the model's own (log 1, 3, 7, 12). -/
def State.resetWith (p : Params) : State where
  cfg := p
  lc := .idle
  setup := ⟨.i2s, .default, .irq, 0x3F, 0x3F, 0x3F, false⟩
  clk := ⟨0, false, 0, 0, 0, 0, p.fSys0, .platform, false⟩
  vol := ⟨unityGain, unityGain⟩
  ring := ⟨List.replicate p.n ⟨[], 0⟩, 0, 0, 0⟩
  play := ⟨false, .default, false⟩
  dma := ⟨false, false, .nothing, 0, 0⟩
  ctx := ⟨.fill, false, ⟨[], 0⟩, ⟨[], 0⟩⟩
  res := ⟨0, .noError⟩
  inbuf := []
  trace := []
  env := ⟨[], true, 0, [], 0⟩

/-- The machine right after reset, under the example binding P1 of 00_scope.md R11 (DESIGN CHOICE, log 2). -/
def State.reset : State := State.resetWith Params.p1

end Sys2Proof.Machine
end

