-- ==== Sys2Proof/Machine/Ops.lean ====
section
/-! DEFINITION. The shared operations: how a command ends, the output trace, the byte memory, the ring's
primitives, the silence hysteresis, arming a transfer, the DMA engine's reads. -/

namespace Sys2Proof.Machine

/-- The outcome of one step of this machine. -/
abbrev Out := Host.Outcome State Fault Refusal

/-! ## How a command ends (30_encoding.md R104, 60_exceptions.md R305, R314)

Taking an exception: at the register interface an error is the write of `RESULT` and `ERR`, with no control
transfer and nothing saved, so there is nothing to return to (R314, R315). -/

/-- Write `RESULT` and `ERR`. -/
def State.finish (s : State) (result : Word) (err : ErrorClass) : State := { s with res := ⟨result, err⟩ }

/-- Success: `ERR <- 0` and `RESULT <-` the command's value (R104). -/
def complete (v : Word) (s : State) : Out := .next (s.finish v .noError)

/-- `raise <Class>`: `RESULT <- 0`, `ERR <-` the class, and nothing else (R104, R305). -/
def raise (c : ErrorClass) (s : State) : Out := .next (s.finish 0 c)

/-- `emit E(args)`: append to the output trace (00_scope.md R14). -/
def State.emit (s : State) (e : OutEvent) : State := { s with trace := s.trace ++ [e] }

/-! ## The byte memory `INBUF` (20_memory.md R70, R78) -/

/-- The canonical form: addresses strictly rising, so that equal memories are equal lists. -/
abbrev Memory.wf (m : Memory) : Prop := m.Pairwise fun a b => a.1 < b.1

/-- One byte; none where it was never written since reset (R356). -/
def Memory.read : Memory → Nat → Option Byte
  | [], _ => none
  | (k, v) :: m, a => if k = a then some v else Memory.read m a

/-- Write one byte, keeping the canonical form. -/
def Memory.write : Memory → Nat → Byte → Memory
  | [], a, b => [(a, b)]
  | (k, v) :: m, a, b =>
    if a < k then (a, b) :: (k, v) :: m
    else if a = k then (a, b) :: m
    else (k, v) :: Memory.write m a b

/-- `MemRead(INBUF, a, n)` (00_scope.md R14): `n` consecutive bytes from `a`; none where one was never written. -/
def Memory.readRange (m : Memory) (a : Nat) : Nat → Option (List Byte)
  | 0 => some []
  | n + 1 => (Memory.read m a).bind fun b => (Memory.readRange m (a + 1) n).map (b :: ·)

/-! ## Sample Blocks -/

/-- The block with datums `0 .. block.length-1` and `COUNT` written; a datum further on keeps the value last
written to it (10_state.md R38, 40_ring_buffer.md R132). -/
def SampleBlock.store (b : SampleBlock) (block : List Word) : SampleBlock :=
  ⟨block ++ b.data.drop block.length, BitVec.ofNat 32 block.length⟩

/-- `DATA[0 .. n-1]`; none where one of them was never written since reset (R38, U11). -/
def SampleBlock.readFirst (b : SampleBlock) (n : Nat) : Option (List Word) :=
  if n ≤ b.data.length then some (b.data.take n) else none

/-- `COUNT <- 0`; the data stays (45_volume_lifecycle.md R276, R279). -/
def SampleBlock.clear (b : SampleBlock) : SampleBlock := { b with count := 0 }

/-- `SLOT[i]`. -/
def Ring.slot (r : Ring) (i : Nat) : SampleBlock := (r.slots[i]?).getD ⟨[], 0⟩

/-- `SLOT[i].DATA[j]`, none where it was never written since reset. -/
def Ring.datum (r : Ring) (i j : Nat) : Option Word := (r.slot i).data[j]?

/-- `SCR[c]` (false = 0, true = 1). -/
def ContextState.scr (c : ContextState) : Bool → SampleBlock
  | false => c.scr0
  | true => c.scr1

/-- `SCR[c] <- b`. -/
def ContextState.setScr (x : ContextState) (c : Bool) (b : SampleBlock) : ContextState :=
  if c then { x with scr1 := b } else { x with scr0 := b }

/-- The `DESC_SRC` index of a scratch area (10_state.md R44). -/
def scrIndex (c : Bool) : BitVec 8 := if c then 1 else 0

/-! ## The ring's primitives (40_ring_buffer.md R132, R134) -/

/-- A cursor's advance: `(c + 1) mod N` (10_state.md R40). -/
def advance (n : Nat) (c : BitVec 8) : BitVec 8 := BitVec.ofNat 8 ((c.toNat + 1) % n)

/-- `ring_enqueue(block, count)`; none for `false` ("fails (returns false, no state change) if occupancy == N"). -/
def ringEnqueue (n : Nat) (block : List Word) (r : Ring) : Option Ring :=
  if r.occ.toNat = n then none
  else some {
    slots := r.slots.set r.enq.toNat ((r.slot r.enq.toNat).store block)
    occ := r.occ + 1
    enq := advance n r.enq
    deq := r.deq }

/-- `ring_dequeue()`: the slot's number, its `COUNT`, and the ring after; none for `empty`. -/
def ringDequeue (n : Nat) (r : Ring) : Option (BitVec 8 × Word × Ring) :=
  if r.occ.toNat = 0 then none
  else some (r.deq, (r.slot r.deq.toNat).count, { r with deq := advance n r.deq, occ := r.occ - 1 })

/-- `ENQ <- 0; DEQ <- 0; OCC <- 0`, every `SLOT[i].COUNT <- 0` (45_volume_lifecycle.md R276, R279). -/
def Ring.clear (r : Ring) : Ring := ⟨r.slots.map SampleBlock.clear, 0, 0, 0⟩

/-- `SCR[0].COUNT <- 0; SCR[1].COUNT <- 0; PH <- 0; CUR <- 0` (45_volume_lifecycle.md R276, R279). -/
def ContextState.clear (c : ContextState) : ContextState := ⟨.fill, false, c.scr0.clear, c.scr1.clear⟩

/-! ## Silence hysteresis (43_sequencer_irq.md R222 to R224) -/

/-- `THR = N div 4` (R223). -/
def thr (n : Nat) : Nat := n / 4

/-- `notify(b)`: the event, and the indicator when the default handler is installed (R224). -/
def notify (b : Bool) (s : State) : State :=
  let s := s.emit (.notify b)
  match s.play.hsel with
  | .default => { s with play := { s.play with ind := b } }
  | .custom => s

/-- What `hyst` selects (R222). -/
inductive Verdict
  | live | muted
deriving DecidableEq, Repr

/-- `MUTE <- m` and then `notify`, the two halves of a transition. -/
def transition (m : Bool) (s : State) : State := notify (!m) { s with play := { s.play with mute := m } }

/-- `hyst(occ)` (R222). -/
def hyst (occ : BitVec 8) (s : State) : Verdict × State :=
  if occ.toNat = 0 then (.muted, if s.play.mute then s else transition true s)
  else if s.play.mute then
    if thr s.cfg.n ≤ occ.toNat then (.live, transition false s) else (.muted, s)
  else (.live, s)

/-! ## Arming a transfer and the DMA engine's reads (43_sequencer_irq.md R226, R227) -/

/-- `arm(kind, idx, cnt)` (R226); the engine starts at datum 0 (R227). -/
def arm (kind : SourceKind) (idx : BitVec 8) (cnt : Word) (s : State) : State :=
  { s.emit (.dmaArm kind idx cnt) with
    dma := { s.dma with kind := kind, idx := idx, count := cnt, busy := true }
    env := { s.env with pos := 0 } }

/-- `MUTEBLK[0 .. MUTE_LEN-1]`, all zero (10_state.md R47). -/
def muteBlock (p : Params) : List Word := List.replicate p.muteLen 0

/-- Arm the mute block as it is, `arm(MUTEBLK, 0, MUTE_LEN)` (43_sequencer_irq.md R220, R228). -/
def armMuteBlock (s : State) : State := arm .muteBlock 0 (BitVec.ofNat 32 s.cfg.muteLen) s

/-- Datum `j` of the armed source, read in place at this instant (R227); none where it was never written. -/
def armedDatum (s : State) (j : Nat) : Option Word :=
  match s.dma.kind with
  | .nothing => none
  | .muteBlock => (muteBlock s.cfg)[j]?
  | .slot => s.ring.datum s.dma.idx.toNat j
  | .scratch => (s.ctx.scr (s.dma.idx ≠ 0)).data[j]?

/-- Datums `j .. j+k-1` of the armed source, in order. -/
def armedDatums (s : State) (j : Nat) : Nat → Option (List Word)
  | 0 => some []
  | k + 1 => (armedDatum s j).bind fun d => (armedDatums s (j + 1) k).map (d :: ·)

/-- The datums `ds` leave for the output state machine, and the engine stands behind them (R227). -/
def State.deliver (s : State) (ds : List Word) : State :=
  { s with env := { s.env with pos := s.env.pos + ds.length, stream := s.env.stream ++ ds } }

end Sys2Proof.Machine
end

