-- ==== Sys2Proof/Machine/Operands.lean ====
section
/-! DEFINITION. The operand forms: input samples (20_memory.md R73, R75, 41_packer_volume.md R151, R152), the attenuation
(45_volume_lifecycle.md R270), the pins (R275), and the parameters selected by format and family. -/

namespace Sys2Proof.Machine

/-! ## Selecting a parameter -/

/-- The entry of a format. -/
def perFormat {α : Type} (t : PerFormat α) : Format → α
  | .i2s => t.i2s
  | .pt8211 => t.pt8211
  | .exdf => t.exdf
  | .i2sDual => t.i2sDual
  | .pt8211Dual => t.pt8211Dual

/-- The entry of a rate family. -/
def perFamily {α : Type} (t : PerFamily α) : Family → α
  | .f44k1 => t.f44k1
  | .f48k => t.f48k

/-! ## Input samples -/

/-- Bits per sample; none for the invalid depth code (41_packer_volume.md R150: `16 + 8*depthCode`). -/
def bitsOf : BitDepth → Option Nat
  | .bits16 => some 16
  | .bits24 => some 24
  | .bits32 => some 32
  | .invalid => none

/-- Bytes of one sample pair, `2 * B` with `B = bits / 8` (20_memory.md R75). -/
def pairBytes (bits : Nat) : Nat := 2 * (bits / 8)

/-- A well-formed ENQUEUE length: `byteCount mod (2*B) = 0` and `1 <= byteCount/(2*B) <= PAIRS_MAX` (R75). -/
def lengthOk (p : Params) (bits byteCount : Nat) : Bool :=
  decide (byteCount % pairBytes bits = 0 ∧ 1 ≤ byteCount / pairBytes bits ∧ byteCount / pairBytes bits ≤ p.pairsMax)

/-- Bytes as a number, the byte at the lowest index least significant (R73). -/
def leValue : List Byte → Nat
  | [] => 0
  | b :: bs => b.toNat + 256 * leValue bs

/-- `sext_N(v)` (00_scope.md R14). -/
def sext (n v : Nat) : Int := (BitVec.ofNat n v).toInt

/-- `sample(k, B)` of the given input bytes (41_packer_volume.md R151). -/
def sample (bytes : List Byte) (k b : Nat) : Int := sext (8 * b) (leValue ((bytes.drop (k * b)).take b))

/-- `justify(s, bits) = s * 2^(32 - bits)` as an i32 (R152). -/
def justify (v : Int) (bits : Nat) : Word := BitVec.ofInt 32 (v * 2 ^ (32 - bits))

/-! ## Attenuation -/

/-- `-min(0, max(-100, att))`, the magnitude after clamping, 0 .. 100 (45_volume_lifecycle.md R270). -/
def attenuationIndex (att : BitVec 16) : Nat := (-(min 0 (max (-100) att.toInt))).toNat

/-- `VOLTAB[k]` (10_state.md R48). -/
def volTabAt (p : Params) (k : Nat) : Word := (p.volTab[k]?).getD 0

/-! ## Pins -/

/-- The pins in use (45_volume_lifecycle.md R275). -/
def pinsInUse (u : Setup) : List Nat :=
  [u.pinData.toNat, u.pinClkBase.toNat, u.pinClkBase.toNat + 1] ++ (if u.mclkEn then [u.pinMclk.toNat] else [])

/-- `pins_ok()` (R275): every pin in use below `NPINS`, and pairwise different. R273 lets a platform strengthen the test for
the second data pin of a differential-pair format; the model takes R275 as it stands, for every platform and format
(DESIGN CHOICE, log 25). -/
def pinsOk (p : Params) (u : Setup) : Bool :=
  (pinsInUse u).all (fun q => decide (q < p.nPins)) && decide (pinsInUse u).Nodup

end Sys2Proof.Machine
end

