-- ==== Sys2Proof/Machine/Clock.lean ====
section
/-! DEFINITION. The Clock Configurator (42_clock_configurator.md): families, targets, dividers, `clock_plan`,
`clock_commit`, and CHANGE_RATE. -/

namespace Sys2Proof.Machine

/-- `RATE_MIN`, Hz (00_scope.md R10). -/
def rateMin : Nat := 8000

/-- `RATE_MAX`, Hz (R10). -/
def rateMax : Nat := 384000

/-- The legal sample rates (R10, R190, R276). -/
def rateLegal (rate : Nat) : Bool := decide (rateMin ≤ rate ∧ rate ≤ rateMax)

/-- `MCLK_TARGET[fam]`, Hz (R10, R187). -/
def mclkTarget : Family → Nat
  | .f44k1 => 45158400
  | .f48k => 49152000

/-- `fam(rate)` (R181). -/
def fam (rate : Nat) : Family := if rate % 11025 = 0 then .f44k1 else .f48k

/-- `target(mode, f)`; none in `DEFAULT` (R182). -/
def target (p : Params) (m : JitterMode) (f : Family) : Option (SysSource × Word) :=
  match m with
  | .default => none
  | .lj => some (.pll, perFamily p.fLj f)
  | .ljoc => some (.pll, perFamily p.fLjoc f)
  | .ext => some (.ext, perFamily p.fExt f)

/-- `divide(num, den, fractional)` as (int, frac) (R183). -/
def divide (num den : Nat) (fractional : Bool) : Nat × Nat :=
  let q := num * 256 / den
  (q / 256, if fractional then q % 256 else 0)

/-- A divider in its 16.8 fields, or none when the integer part is outside `1 .. 65535` (R186, R188). -/
def checkedDivide (num den : Nat) (fractional : Bool) : Option (BitVec 16 × BitVec 8) :=
  let d := divide num den fractional
  if d.1 < 1 ∨ 65535 < d.1 then none else some (BitVec.ofNat 16 d.1, BitVec.ofNat 8 d.2)

/-- What `clock_plan` returns (R186). -/
structure ClockPlan where
  rate : Word
  fam : Family
  retarget : Bool
  src : SysSource
  sys : Word
  div : BitVec 16 × BitVec 8
  mdiv : BitVec 16 × BitVec 8
deriving DecidableEq, Repr

/-- Whether the rate's family counts as crossed: at INITIALIZE always, else when it differs from the family
recorded in `IS48K` (R186, R191). -/
def crossing (rate : Word) (first : Bool) (s : State) : Bool :=
  first || (decide (fam rate.toNat = Family.f48k) != s.clk.is48k)

/-- The system clock a plan runs on: re-target?, source, Hz (R186). -/
def planSystem (rate : Word) (first : Bool) (s : State) : Bool × SysSource × Word :=
  if crossing rate first s then
    match target s.cfg s.setup.jmode (fam rate.toNat) with
    | none => (false, s.clk.sysSrc, s.clk.sysHz)
    | some (src, hz) => (true, src, hz)
  else (false, s.clk.sysSrc, s.clk.sysHz)

/-- The master-clock divider of a plan: (0, 0) without a master clock (R186, R187). -/
def planMclk (sys : Word) (f : Family) (s : State) : Option (BitVec 16 × BitVec 8) :=
  if s.setup.mclkEn then checkedDivide sys.toNat (mclkTarget f) (decide (s.setup.jmode = .default))
  else some (0, 0)

/-- `clock_plan(rate, first)`; none where it raises `ConfigurationError` (R186). -/
def clockPlan (rate : Word) (first : Bool) (s : State) : Option ClockPlan :=
  let (retarget, src, sys) := planSystem rate first s
  let f := fam rate.toNat
  (checkedDivide sys.toNat (rate.toNat * perFormat s.cfg.osf s.setup.fmt) (decide (s.setup.jmode = .default))).bind
    fun d => (planMclk sys f s).map fun m => ⟨rate, f, retarget, src, sys, d, m⟩

/-- The detach half of `clock_commit` (R185, R186). -/
def commitDetach (first : Bool) (s : State) : State :=
  if first && (decide (s.setup.jmode = .lj) || decide (s.setup.jmode = .ljoc)) && !s.clk.periDet then
    { s with clk := { s.clk with periDet := true } }.emit .periClkDetach
  else s

/-- The re-target half of `clock_commit` (R184, R186). -/
def commitRetarget (p : ClockPlan) (s : State) : State :=
  if p.retarget then
    { s with clk := { s.clk with sysHz := p.sys, sysSrc := p.src } }.emit (.sysClkRetarget p.src p.sys)
  else s

/-- The divider half of `clock_commit` (R186). -/
def commitDividers (p : ClockPlan) (s : State) : State :=
  let s := { s with clk := { s.clk with rate := p.rate, is48k := decide (p.fam = Family.f48k),
                                        divInt := p.div.1, divFrac := p.div.2 } }.emit (.setDivider p.div.1 p.div.2)
  let s := { s with clk := { s.clk with mdivInt := p.mdiv.1, mdivFrac := p.mdiv.2 } }
  if s.setup.mclkEn then s.emit (.setMclkDivider p.mdiv.1 p.mdiv.2) else s

/-- `clock_commit(plan, first)` (R186). -/
def clockCommit (p : ClockPlan) (first : Bool) (s : State) : State :=
  commitDividers p (commitRetarget p (commitDetach first s))

/-- `PLLMAP(hz)`, the setting the platform applies for an event; only a re-target to the PLL has one (R184,
60_exceptions.md R323). -/
def pllSettingOf (p : Params) : OutEvent → Option Nat
  | .sysClkRetarget .pll hz => (p.pllMap.find? (fun e => e.1 = hz)).map Prod.snd
  | _ => none

/-- CHANGE_RATE (R190). -/
def execChangeRate (sampleRate : BitVec 24) (s : State) : Out :=
  if s.lc ≠ .running then raise .illegalCommand s
  else if rateLegal sampleRate.toNat = false then raise .configurationError s
  else
    match clockPlan (sampleRate.setWidth 32) false s with
    | none => raise .configurationError s
    | some p => complete 1 (clockCommit p false s)

end Sys2Proof.Machine
end

