-- ==== Sys2Proof/Machine/Lifecycle.lean ====
section
/-! DEFINITION. The lifecycle commands CONFIGURE_PINS, CONFIGURE, INITIALIZE and SHUTDOWN (45_volume_lifecycle.md). -/

namespace Sys2Proof.Machine

/-- CONFIGURE_PINS (R272). -/
def execConfigurePins (dataPin clockPinBase masterClockPin : BitVec 6) (mclkEn : Bool) (s : State) : Out :=
  if s.lc = .running then raise .illegalCommand s
  else complete 1 { s with setup := { s.setup with
    pinData := dataPin, pinClkBase := clockPinBase, pinMclk := masterClockPin, mclkEn := mclkEn } }

/-- CONFIGURE (R274). The format codes 5 to 7 are reserved encodings (30_encoding.md R103, log 10). No clock field is
written: after a `DEFAULT` session `DIV_FRAC` and `MDIV_FRAC` keep their values in another mode until the next INITIALIZE
(10_state.md R32 against R274; DEDUCED, log 24). -/
def execConfigure (outputFormat : BitVec 3) (jitterMode : JitterMode) (strategy : Strategy) (s : State) : Out :=
  match Format.ofCode outputFormat with
  | none => raise .illegalCommand s
  | some fmt =>
    if s.lc = .running then raise .illegalCommand s
    else complete 1 { s with setup := { s.setup with fmt := fmt, jmode := jitterMode, strat := strategy } }

/-- The ring and sequencer fields as INITIALIZE and SHUTDOWN both leave them (R276, R279): empty ring, `COUNT`s 0,
`PH`, `CUR`, `PEND` and `DMA_BUSY` 0; the descriptor keeps its value. -/
def clearSequencer (s : State) : State :=
  { s with
    ring := s.ring.clear
    ctx := s.ctx.clear
    dma := { s.dma with busy := false, pend := false } }

/-- The block started (R276): the fields cleared, `MUTE <- 0`, `LC <- RUNNING`, the output enabled, and under `IRQ`
the first transfer armed from the mute block (43_sequencer_irq.md R228). -/
def startSession (s : State) : State :=
  let s := clearSequencer s
  let s := { s with play := { s.play with mute := false }, lc := .running }
  let s := s.emit (.outputEnable s.setup.fmt s.setup.strat s.setup.pinData s.setup.pinClkBase s.setup.mclkEn s.setup.pinMclk)
  match s.setup.strat with
  | .irq => armMuteBlock s
  | .ctx2 => s

/-- INITIALIZE (R276): every check before any write, the platform asked last. -/
def execInitialize (sampleRate : BitVec 24) (s : State) : Out :=
  if s.lc = .running then raise .hardwareContention s
  else if rateLegal sampleRate.toNat = false then raise .configurationError s
  else if pinsOk s.cfg s.setup = false then raise .configurationError s
  else
    match clockPlan (sampleRate.setWidth 32) true s with
    | none => raise .configurationError s
    | some p =>
      if s.env.hwClaimOk = false then raise .hardwareContention s
      else complete 1 (startSession (clockCommit p true s))

/-- The block stopped (R279, R280): output disabled first, resources released last. -/
def endSession (s : State) : State :=
  let s := clearSequencer (s.emit .outputDisable)
  { s with lc := .idle }.emit .resourcesReleased

/-- SHUTDOWN (R279); in `IDLE` it writes `RESULT` and `ERR` only. -/
def execShutdown (s : State) : Out :=
  complete 1 (if s.lc = .running then endSession s else s)

end Sys2Proof.Machine
end

