-- ==== Sys2Proof/Machine/Packer.lean ====
section
/-! DEFINITION. The Format Packer and Volume Converter (41_packer_volume.md): the volume product, saturating negation,
bit-interleaving, the packing policies, and ENQUEUE. -/

namespace Sys2Proof.Machine

/-! ## The arithmetic -/

/-- `asr(v, k) = floor(v / 2^k)` for every sign of `v` (00_scope.md R14). -/
def asr (v : Int) (k : Nat) : Int := v / 2 ^ k

/-- `scale(v, m) = trunc32(asr(sext_32(v) * zext_32(m), 29))` (R154). -/
def scale (v m : Word) : Word := BitVec.ofInt 32 (asr (v.toInt * m.toNat) 29)

/-- `INT32_MIN` (00_scope.md R13). -/
def int32Min : Word := 0x80000000

/-- `INT32_MAX` (00_scope.md R13). -/
def int32Max : Word := 0x7FFFFFFF

/-- `negsat(x)` (R156). -/
def negsat (x : Word) : Word := if x = int32Min then int32Max else -x

/-- The interleaving of the low `k` bits of two numbers: bit `i` of `l` at `2i+1`, bit `i` of `r` at `2i`. -/
def interleaveNat : Nat → Nat → Nat → Nat
  | 0, _, _ => 0
  | k + 1, l, r => r % 2 + 2 * (l % 2) + 4 * interleaveNat k (l / 2) (r / 2)

/-- `interleave(l, r)`: `W[2i+1] = l[i]`, `W[2i] = r[i]` (R157). -/
def interleave (l r : Word) : BitVec 64 := BitVec.ofNat 64 (interleaveNat 32 l.toNat r.toNat)

/-- The number whose bit `i` is bit `2i` of `w`, for `i < k`. -/
def evenBits : Nat → Nat → Nat
  | 0, _ => 0
  | k + 1, w => w % 2 + 2 * evenBits k (w / 4)

/-- `deinterleave(W) = (l, r)`: `l[i] = W[2i+1]`, `r[i] = W[2i]` (R157). -/
def deinterleave (w : BitVec 64) : Word × Word :=
  (BitVec.ofNat 32 (evenBits 32 (w.toNat / 2)), BitVec.ofNat 32 (evenBits 32 w.toNat))

/-- `hi(W) = W[63:32]` (R157). -/
def hi (w : BitVec 64) : Word := w.extractLsb' 32 32

/-- `lo(W) = W[31:0]` (R157). -/
def lo (w : BitVec 64) : Word := w.extractLsb' 0 32

/-! ## The packing policies -/

/-- The datums of one sample pair (left, right) (R159 to R161). -/
def packPair : Policy → Word × Word → List Word
  | .standard, (l, r) => [l, r]
  | .exdf, (l, r) => [hi (interleave l r), lo (interleave l r)]
  | .dualMono, (l, r) =>
    [hi (interleave l r), lo (interleave l r),
     hi (interleave (negsat l) (negsat r)), lo (interleave (negsat l) (negsat r))]

/-- `pack(pol, L, R, pairs)` of the pairs in order (R159 to R161). -/
def pack (pol : Policy) (ps : List (Word × Word)) : List Word := ps.flatMap (packPair pol)

/-- The pairs of a block in `STANDARD` layout: `L[p] = S[2p]`, `R[p] = S[2p+1]` (R162). -/
def unpair : List Word → List (Word × Word)
  | l :: r :: rest => (l, r) :: unpair rest
  | _ => []

/-- `expand(pol, S, c)` (R162). -/
def expand (pol : Policy) (block : List Word) : List Word :=
  match pol with
  | .standard => block
  | .exdf => pack .exdf (unpair block)
  | .dualMono => pack .dualMono (unpair block)

/-- `POLICY[FMT]` (R158). -/
def formatPolicy (s : State) : Policy := perFormat s.cfg.policy s.setup.fmt

/-- The policy ENQUEUE packs with: `POLICY[FMT]` under `IRQ`, `STANDARD` under `CTX2` (R158). -/
def enqueuePolicy (s : State) : Policy :=
  match s.setup.strat with
  | .irq => formatPolicy s
  | .ctx2 => .standard

/-! ## ENQUEUE -/

/-- The scaled pair `p` of the input bytes (R150): justify, then scale by the channel's multiplier. -/
def scaledPair (bits : Nat) (v : VolumeState) (bytes : List Byte) (p : Nat) : Word × Word :=
  (scale (justify (sample bytes (2 * p) (bits / 8)) bits) v.mulL,
   scale (justify (sample bytes (2 * p + 1) (bits / 8)) bits) v.mulR)

/-- The scaled pairs of a whole input (R150). -/
def scaledPairs (bits : Nat) (v : VolumeState) (bytes : List Byte) : List (Word × Word) :=
  (List.range (bytes.length / pairBytes bits)).map (scaledPair bits v bytes)

/-- The block ENQUEUE stores for the given input bytes (R150). -/
def enqueueBlock (bits : Nat) (bytes : List Byte) (s : State) : List Word :=
  pack (enqueuePolicy s) (scaledPairs bits s.vol bytes)

/-- ENQUEUE (R150). A malformed length is refused before the capacity check, where R150 states it (log 17). -/
def execEnqueue (byteCount : BitVec 22) (depth : BitDepth) (s : State) : Out :=
  if s.lc ≠ .running then raise .illegalCommand s
  else
    match bitsOf depth with
    | none => raise .configurationError s
    | some bits =>
      if lengthOk s.cfg bits byteCount.toNat = false then .refused (.malformedEnqueue byteCount)
      else if s.ring.occ.toNat = s.cfg.n then raise .backpressureCondition s
      else
        match Memory.readRange s.inbuf 0 byteCount.toNat with
        | none => .fault .inbufUnwritten
        | some bytes =>
          match ringEnqueue s.cfg.n (enqueueBlock bits bytes s) s.ring with
          | none => raise .backpressureCondition s
          | some r => complete 1 { s with ring := r }

end Sys2Proof.Machine
end

