-- ==== Sys2Proof/Machine/RingBuffer.lean ====
section
/-! DEFINITION. The OCCUPANCY command (40_ring_buffer.md). The ring's primitives are in Machine/Ops.lean. -/

namespace Sys2Proof.Machine

/-- OCCUPANCY (R136). -/
def execOccupancy (s : State) : Out := complete (s.ring.occ.setWidth 32) s

end Sys2Proof.Machine
end

