-- ==== Sys2Proof/Machine/Volume.lean ====
section
/-! DEFINITION. SET_VOLUME and SET_HANDLER (45_volume_lifecycle.md). -/

namespace Sys2Proof.Machine

/-- The multipliers after the channel `ch` (0 both, 1 left, 2 right) takes `m` (R270). -/
def setMultipliers (ch : BitVec 2) (m : Word) (v : VolumeState) : VolumeState :=
  { mulL := if ch = 0 ∨ ch = 1 then m else v.mulL
    mulR := if ch = 0 ∨ ch = 2 then m else v.mulR }

/-- SET_VOLUME (R270). The channel code 3 is a reserved encoding (30_encoding.md R103, log 10). -/
def execSetVolume (attenuationDb : BitVec 16) (channel : BitVec 2) (s : State) : Out :=
  if channel = 3 then raise .illegalCommand s
  else complete 1 { s with vol := setMultipliers channel (volTabAt s.cfg (attenuationIndex attenuationDb)) s.vol }

/-- SET_HANDLER (R278). -/
def execSetHandler (handler : Handler) (s : State) : Out :=
  complete 1 { s with play := { s.play with hsel := handler } }

end Sys2Proof.Machine
end

