-- ==== Sys2Proof/Machine/Dispatch.lean ====
section
/-! DEFINITION. One arm per command, each one call of its meaning. -/

namespace Sys2Proof.Machine

def exec (i : Instr) (s : State) : Host.Outcome State Fault Refusal :=
  match i with
  | .configurePins d c m en => Sys2Proof.Machine.execConfigurePins d c m en s
  | .configure f j st => Sys2Proof.Machine.execConfigure f j st s
  | .initializeAt r => Sys2Proof.Machine.execInitialize r s
  | .changeRate r => Sys2Proof.Machine.execChangeRate r s
  | .enqueue n d => Sys2Proof.Machine.execEnqueue n d s
  | .occupancy => Sys2Proof.Machine.execOccupancy s
  | .setVolume a ch => Sys2Proof.Machine.execSetVolume a ch s
  | .setHandler h => Sys2Proof.Machine.execSetHandler h s
  | .shutdown => Sys2Proof.Machine.execShutdown s

end Sys2Proof.Machine
end

