-- ==== Sys2Proof/Machine/Flags.lean ====
section
/-! DEFINITION. The derived flags (10_state.md R51) and the host-visible register map (R52): every register a view of
the fields, packed as the table of R52 says. -/

namespace Sys2Proof.Machine

/-! ## Derived flags -/

/-- `FULL = (OCC = N)` (R51). -/
def State.full (s : State) : Bool := decide (s.ring.occ.toNat = s.cfg.n)

/-- `EMPTY = (OCC = 0)` (R51). -/
def State.empty (s : State) : Bool := decide (s.ring.occ.toNat = 0)

/-! ## Field codes -/

/-- `LC`: 0 = IDLE, 1 = RUNNING (R23). -/
def Lifecycle.bit : Lifecycle → Bool
  | .idle => false
  | .running => true

/-- `SYS_SRC`: 0 = PLATFORM, 1 = PLL, 2 = EXT (R35). -/
def SysSource.code : SysSource → BitVec 2
  | .platform => 0
  | .pll => 1
  | .ext => 2

/-- `DESC_SRC[9:8]`: 0 = none, 1 = MUTEBLK, 2 = SLOT, 3 = SCR (R44). -/
def SourceKind.code : SourceKind → BitVec 2
  | .nothing => 0
  | .muteBlock => 1
  | .slot => 2
  | .scratch => 3

/-- `PH`: 0 = FILL, 1 = WAIT (R45). -/
def Phase.bit : Phase → Bool
  | .fill => false
  | .wait => true

/-- `ERR` (R50, 60_exceptions.md R300). -/
def ErrorClass.code : ErrorClass → BitVec 4
  | .noError => 0
  | .configurationError => 1
  | .backpressureCondition => 2
  | .hardwareContention => 3
  | .illegalCommand => 4

/-! ## The register map -/

/-- The registers of R52. -/
inductive Reg
  | cmd | status | result | cfg | pins | rate | clkDiv | mclkDiv | sysHz | sysSrc | mulL | mulR | ring | descSrc | descCnt
deriving DecidableEq, Repr

/-- The register at a byte offset (R52). -/
def Reg.ofOffset (offset : Nat) : Option Reg :=
  match offset with
  | 0x00 => some .cmd
  | 0x04 => some .status
  | 0x08 => some .result
  | 0x0C => some .cfg
  | 0x10 => some .pins
  | 0x14 => some .rate
  | 0x18 => some .clkDiv
  | 0x1C => some .mclkDiv
  | 0x20 => some .sysHz
  | 0x24 => some .sysSrc
  | 0x28 => some .mulL
  | 0x2C => some .mulR
  | 0x30 => some .ring
  | 0x34 => some .descSrc
  | 0x38 => some .descCnt
  | _ => none

/-- The `INBUF` index of a byte offset: `INBUF[j]` at 0x1000 + j for `0 <= j < 8*PAIRS_MAX` (R52). -/
def inbufIndex (p : Params) (offset : Nat) : Option Nat :=
  if 0x1000 ≤ offset ∧ offset < 0x1000 + 8 * p.pairsMax then some (offset - 0x1000) else none

/-- A field placed at bit `lo` of a register. -/
def bitsAt {len : Nat} (v : BitVec len) (lo : Nat) : Word := v.setWidth 32 <<< lo

/-- A one-bit field placed at bit `lo` of a register. -/
def bitAt (b : Bool) (lo : Nat) : Word := bitsAt (BitVec.ofBool b) lo

/-- The `STATUS` register (R52). -/
def State.status (s : State) : Word :=
  bitAt s.lc.bit 0 ||| bitAt s.play.mute 1 ||| bitAt s.clk.is48k 2 ||| bitAt s.dma.busy 3 ||| bitAt s.dma.pend 4 |||
  bitAt s.ctx.ph.bit 5 ||| bitAt s.ctx.cur 6 ||| bitAt s.clk.periDet 7 ||| bitAt s.play.ind 8 |||
  bitAt s.play.hsel.bit 9 ||| bitAt s.full 10 ||| bitAt s.empty 11 ||| bitsAt s.res.err.code 12

/-- What a read of a register returns (R52): a view of the fields; 0 for the write-only `CMD`. -/
def State.regRead (s : State) : Reg → Word
  | .cmd => 0
  | .status => s.status
  | .result => s.res.result
  | .cfg => bitsAt s.setup.fmt.code 0 ||| bitsAt s.setup.jmode.code 3 ||| bitAt s.setup.strat.bit 5
  | .pins => bitsAt s.setup.pinData 0 ||| bitsAt s.setup.pinClkBase 6 ||| bitsAt s.setup.pinMclk 12 ||| bitAt s.setup.mclkEn 18
  | .rate => s.clk.rate
  | .clkDiv => bitsAt s.clk.divInt 8 ||| bitsAt s.clk.divFrac 0
  | .mclkDiv => bitsAt s.clk.mdivInt 8 ||| bitsAt s.clk.mdivFrac 0
  | .sysHz => s.clk.sysHz
  | .sysSrc => bitsAt s.clk.sysSrc.code 0
  | .mulL => s.vol.mulL
  | .mulR => s.vol.mulR
  | .ring => bitsAt s.ring.enq 0 ||| bitsAt s.ring.deq 8 ||| bitsAt s.ring.occ 16
  | .descSrc => bitsAt s.dma.kind.code 8 ||| bitsAt s.dma.idx 0
  | .descCnt => s.dma.count

end Sys2Proof.Machine
end

