-- ==== Sys2Proof/Machine/Sequencer.lean ====
section
/-! DEFINITION. The steps no command encodes: `irq_step` (43_sequencer_irq.md), `ctx2_fill` and `ctx2_arm`
(44_sequencer_second_context.md), the DMA engine's datum read (R227) and `dma_done` (60_exceptions.md R311).
A sequencer step named while it is not enabled is no step of the block (log 4). -/

namespace Sys2Proof.Machine

/-! ## The interrupt-driven strategy -/

/-- When `irq_step` may be taken (R220). -/
def irqEnabled (s : State) : Bool :=
  decide (s.lc = .running) && decide (s.setup.strat = .irq) && s.dma.pend

/-- `PEND <- 0`. -/
def clearPend (s : State) : State := { s with dma := { s.dma with pend := false } }

/-- What `irq_step` arms once `hyst` has answered: the oldest block on `LIVE`, else the mute block (R220). An empty
ring plays the mute block (40_ring_buffer.md R135); on `LIVE` the ring is never empty. -/
def irqArm (v : Verdict) (s : State) : State :=
  match v with
  | .muted => armMuteBlock s
  | .live =>
    match ringDequeue s.cfg.n s.ring with
    | none => armMuteBlock s
    | some (i, cnt, r) => arm .slot i cnt { s with ring := r }

/-- The body of `irq_step` with the occupancy its hysteresis reads (R220). -/
def irqBody (occ : BitVec 8) (s : State) : Out :=
  let (v, s) := hyst occ (clearPend s)
  .next (irqArm v s)

/-- `irq_step` (R220). -/
def irqStep (s : State) : Out :=
  if irqEnabled s = false then .fault (.stepNotEnabled .irqStep) else irqBody s.ring.occ s

/-- The occupancy before the producer's latest enqueue, which a stale read may still see: "lower than `OCC` by one,
never higher" (R220, 20_memory.md R83; log 14). -/
def staleOcc (s : State) : BitVec 8 := s.ring.occ - 1

/-- `irq_step` with a stale occupancy read (R83); an empty ring holds no enqueue to miss. -/
def irqStepStale (s : State) : Out :=
  if irqEnabled s = false ∨ s.ring.occ.toNat = 0 then .fault (.stepNotEnabled .irqStepStale)
  else irqBody (staleOcc s) s

/-! ## The second-context strategy -/

/-- When `ctx2_fill` may be taken (R251). -/
def fillEnabled (s : State) : Bool :=
  decide (s.lc = .running) && decide (s.setup.strat = .ctx2) && decide (s.ctx.ph = .fill)

/-- `SCR[CUR]` takes the expanded block, and the loop waits (R251). -/
def fillScratch (block : List Word) (s : State) : State :=
  let blk := expand (formatPolicy s) block
  { s with ctx := { s.ctx.setScr s.ctx.cur ((s.ctx.scr s.ctx.cur).store blk) with ph := .wait } }

/-- The fill from the oldest block on `LIVE`, else from the mute block (R251, R252). -/
def fillFrom (v : Verdict) (s : State) : Out :=
  match v with
  | .muted => .next (fillScratch (muteBlock s.cfg) s)
  | .live =>
    match ringDequeue s.cfg.n s.ring with
    | none => .next (fillScratch (muteBlock s.cfg) s)
    | some (i, cnt, r) =>
      match (s.ring.slot i.toNat).readFirst cnt.toNat with
      | none => .fault (.datumUnwritten .slot i)
      | some block => .next (fillScratch block { s with ring := r })

/-- The body of `ctx2_fill` with the occupancy its hysteresis reads (R251). -/
def fillBody (occ : BitVec 8) (s : State) : Out :=
  let (v, s) := hyst occ s
  fillFrom v s

/-- `ctx2_fill` (R251). -/
def ctx2Fill (s : State) : Out :=
  if fillEnabled s = false then .fault (.stepNotEnabled .ctx2Fill) else fillBody s.ring.occ s

/-- `ctx2_fill` with a stale occupancy read (20_memory.md R83; log 14). -/
def ctx2FillStale (s : State) : Out :=
  if fillEnabled s = false ∨ s.ring.occ.toNat = 0 then .fault (.stepNotEnabled .ctx2FillStale)
  else fillBody (staleOcc s) s

/-- When `ctx2_arm` may be taken (R254). -/
def armEnabled (s : State) : Bool :=
  decide (s.lc = .running) && decide (s.setup.strat = .ctx2) && decide (s.ctx.ph = .wait) && !s.dma.busy

/-- `ctx2_arm` (R254). -/
def ctx2Arm (s : State) : Out :=
  if armEnabled s = false then .fault (.stepNotEnabled .ctx2Arm)
  else
    let s := arm .scratch (scrIndex s.ctx.cur) (s.ctx.scr s.ctx.cur).count s
    .next { s with ctx := { s.ctx with cur := !s.ctx.cur, ph := .fill } }

/-! ## The DMA engine -/

/-- When the engine may read a datum: a transfer is in flight and a datum of it is left (R227). -/
def dmaReadEnabled (s : State) : Bool := s.dma.busy && decide (s.env.pos < s.dma.count.toNat)

/-- One datum read by the DMA engine and delivered to the output state machine (R227, 20_memory.md R84). -/
def dmaRead (s : State) : Out :=
  if dmaReadEnabled s = false then .fault (.stepNotEnabled .dmaRead)
  else
    match armedDatum s s.env.pos with
    | none => .fault (.datumUnwritten s.dma.kind s.dma.idx)
    | some d => .next (s.deliver [d])

/-- The effect of the transfer-complete input on the block (60_exceptions.md R311): `DMA_BUSY <- 0`, and under `IRQ`
`PEND <- 1`. This is the interrupt's entry; nothing is saved (R314). -/
def transferComplete (s : State) : State :=
  { s with dma := { s.dma with busy := false, pend := s.dma.pend || decide (s.setup.strat = .irq) } }

/-- The `dma_done` input (R311). It comes only after all `DESC_COUNT` datums were delivered, so the engine first
delivers those still left (log 6). Ignored unless a transfer is in flight while `RUNNING`. -/
def dmaDone (s : State) : Out :=
  if s.lc = .running ∧ s.dma.busy = true then
    match armedDatums s s.env.pos (s.dma.count.toNat - s.env.pos) with
    | none => .fault (.datumUnwritten s.dma.kind s.dma.idx)
    | some ds => .next (transferComplete (s.deliver ds))
  else .next s

end Sys2Proof.Machine
end

