-- ==== Sys2Proof/Machine/HostPort.lean ====
section
/-! DEFINITION. The host's accesses (10_state.md R52, 20_memory.md R79), the command word's run, the platform's inputs,
and the effect of one entry of the schedule. -/

namespace Sys2Proof.Machine

/-- A write of a word to `CMD`: the command it decodes to is run; a reserved word raises `IllegalCommand`
(30_encoding.md R103). -/
def runCommand (w : Word) (s : State) : Out :=
  match decode w with
  | .ok i => exec i s
  | .error _ => raise .illegalCommand s

/-- Whether the pre-test of a command that would succeed, read one dequeue late, finds the ring full: only ENQUEUE has
the pre-test (20_memory.md R83, 40_ring_buffer.md R132; log 14). -/
def preTestFails (i : Instr) (s : State) : Bool :=
  match i with
  | .enqueue _ _ => decide (s.ring.occ.toNat + 1 = s.cfg.n)
  | _ => false

/-- A write of a word to `CMD` whose backpressure pre-test is stale by one operation (R83): an ENQUEUE that would
succeed may fail with `BackpressureCondition`; every other command is as without staleness. -/
def runCommandStale (w : Word) (s : State) : Out :=
  match decode w, runCommand w s with
  | .ok i, .next t =>
    if t.res.err = .noError ∧ preTestFails i s = true then raise .backpressureCondition s else .next t
  | _, o => o

/-- A 32-bit register write: `CMD` runs the command; a write to a read-only register is ignored (R52, R79). -/
def hostWrite (offset : Nat) (v : Word) (s : State) : Out :=
  match Reg.ofOffset offset with
  | some .cmd => runCommand v s
  | some _ => .next s
  | none => .fault (.unmappedAccess offset)

/-- A byte write, which only `INBUF` takes (R52). -/
def hostWriteByte (offset : Nat) (v : Byte) (s : State) : Out :=
  match inbufIndex s.cfg offset with
  | some j => .next { s with inbuf := Memory.write s.inbuf j v }
  | none => .fault (.unmappedAccess offset)

/-- The host's read data. -/
def State.answer (s : State) (v : Word) : State := { s with env := { s.env with rdata := v } }

/-- A 32-bit register read: the view of the fields, with no side effect on the block (R52, R79). -/
def hostRead (offset : Nat) (s : State) : Out :=
  match Reg.ofOffset offset with
  | some r => .next (s.answer (s.regRead r))
  | none => .fault (.unmappedAccess offset)

/-- A byte read of the write-only `INBUF` returns 0 (R52). -/
def hostReadByte (offset : Nat) (s : State) : Out :=
  match inbufIndex s.cfg offset with
  | some _ => .next (s.answer 0)
  | none => .fault (.unmappedAccess offset)

/-- The platform's resources become claimable or not (60_exceptions.md R327). -/
def platformClaim (ok : Bool) (s : State) : Out := .next { s with env := { s.env with hwClaimOk := ok } }

/-- Reset (70_reset_and_hazards.md R340): every field at the value of 10_state.md R54 under the same parameters; the
schedule and the platform's claim answer are the environment's and stay (log 19). -/
def platformReset (s : State) : Out :=
  let z := State.resetWith s.cfg
  .next { z with env := { z.env with schedule := s.env.schedule, hwClaimOk := s.env.hwClaimOk } }

/-- The effect of one entry of the schedule. -/
def perform (e : Event) (s : State) : Out :=
  match e with
  | .hostWrite offset v => hostWrite offset v s
  | .hostWriteByte offset v => hostWriteByte offset v s
  | .hostRead offset => hostRead offset s
  | .hostReadByte offset => hostReadByte offset s
  | .dmaRead => dmaRead s
  | .dmaDone => dmaDone s
  | .irqStep => irqStep s
  | .ctx2Fill => ctx2Fill s
  | .ctx2Arm => ctx2Arm s
  | .irqStepStale => irqStepStale s
  | .ctx2FillStale => ctx2FillStale s
  | .commandStale v => runCommandStale v s
  | .platformClaim ok => platformClaim ok s
  | .platformReset => platformReset s

/-- The schedule becomes `es`. -/
def State.withSchedule (s : State) (es : List Event) : State := { s with env := { s.env with schedule := es } }

/-- The event that writes the command word of `nbits` bits `w` to `CMD`. -/
def commandEvent (nbits w : Nat) : Event := .hostWrite 0 (BitVec.ofNat 32 (w % 2 ^ nbits))

end Sys2Proof.Machine
end

