-- ==== Sys2Proof/Machine/Step.lean ====
section
/-! DEFINITION. One atomic step of the block and its environment (20_memory.md R84): the next entry of the schedule is
taken off it and has its effect. With nothing scheduled the block waits (70_reset_and_hazards.md R341, log 5). -/

namespace Sys2Proof.Machine

/-- One step. -/
def step (s : State) : Host.Outcome State Fault Refusal :=
  match s.env.schedule with
  | [] => .next s
  | e :: es => perform e (s.withSchedule es)

/-- `s` with a write of the given command word to `CMD` scheduled before everything else (log 1). -/
def State.withFetchWord (s : State) (nbits w : Nat) : State :=
  s.withSchedule (commandEvent nbits w :: s.env.schedule)

end Sys2Proof.Machine
end

