-- ==== Sys2Proof/Safety.lean ====
section
/-! DEFINITION. The terms claims use: what holds in every reachable state (the invariants of 10_state.md, 40_ring_buffer.md
R131, 43_sequencer_irq.md R230, 44_sequencer_second_context.md R253, 60_exceptions.md R322), the ring as a queue, and
the words that are commands. -/

namespace Sys2Proof.Machine

/-! ## Commands and reserved words (30_encoding.md R102, R103) -/

/-- The word matches a row of the opcode map and meets the field constraint of CONFIGURE or SET_VOLUME (R102); every
other word is reserved (R103). -/
def CommandWord (w : Word) : Prop :=
  (∃ row ∈ opcodeMap, w &&& row.2 = row.1) ∧
  (w &&& 0xFF000000 = 0x02000000 → (w &&& 7).toNat ≤ 4) ∧
  (w &&& 0xFF000000 = 0x07000000 → ((w >>> 16) &&& 3).toNat ≤ 2)

/-- The value a successful command returns (10_state.md R49): the occupancy for OCCUPANCY, else 1. -/
def commandValue (i : Instr) (s : State) : Word :=
  match i with
  | .occupancy => BitVec.ofNat 32 s.ring.occ.toNat
  | _ => 1

/-! ## The ring as a queue (40_ring_buffer.md R131, R137) -/

/-- The block a slot holds: its first `COUNT` datums. -/
def SampleBlock.contents (b : SampleBlock) : List Word := b.data.take b.count.toNat

/-- A block with its count, as `ring_enqueue` takes and `ring_dequeue` returns it (R132, R134, R137). -/
abbrev Counted := List Word × Nat

/-- What a slot holds, with its `COUNT`. -/
def SampleBlock.counted (b : SampleBlock) : Counted := (b.contents, b.count.toNat)

/-- The occupied slots' blocks, `SLOT[(DEQ + k) mod N]` for `k` in `0 .. OCC-1`, oldest first (R131). -/
def Ring.queue (n : Nat) (r : Ring) : List Counted :=
  (List.range r.occ.toNat).map fun k => (r.slot ((r.deq.toNat + k) % n)).counted

/-- A call of one of the ring's primitives. -/
inductive RingCall
  | enqueue (block : List Word)
  | dequeue
deriving DecidableEq, Repr

/-- A ring with the blocks its successful calls have stored and returned so far, in order. -/
structure RingHistory where
  ring : Ring
  stored : List Counted
  returned : List Counted

/-- One call; a call that fails changes nothing. -/
def RingHistory.call (n : Nat) (h : RingHistory) : RingCall → RingHistory
  | .enqueue block =>
    match ringEnqueue n block h.ring with
    | none => h
    | some r => ⟨r, h.stored ++ [(block, block.length)], h.returned⟩
  | .dequeue =>
    match ringDequeue n h.ring with
    | none => h
    | some (i, count, r) =>
      ⟨r, h.stored, h.returned ++ [((h.ring.slot i.toNat).data.take count.toNat, count.toNat)]⟩

/-- A sequence of calls, first to last. -/
def RingHistory.calls (n : Nat) (h : RingHistory) (cs : List RingCall) : RingHistory :=
  cs.foldl (RingHistory.call n) h

/-! ## Invariants -/

/-- The largest scratch block, `SCR_WORDS` (10_state.md R46). -/
def scrWords (p : Params) : Nat := 2 * max (2 * p.pairsMax) p.muteLen

/-- The cursors and the counter (40_ring_buffer.md R131). -/
structure RingCursors (n : Nat) (r : Ring) : Prop where
  slots_length : r.slots.length = n
  occ_le : r.occ.toNat ≤ n
  enq_lt : r.enq.toNat < n
  deq_lt : r.deq.toNat < n
  enq_eq : r.enq.toNat = (r.deq.toNat + r.occ.toNat) % n

/-- A block whose valid datums were all written, in an area of `cap` datums (10_state.md R38, R46). -/
structure BlockOk (cap : Nat) (b : SampleBlock) : Prop where
  count_le : b.count.toNat ≤ b.data.length
  data_le : b.data.length ≤ cap

/-- The ring: its cursors, and every slot within its size and holding whole pairs (R38, R131, 41_packer_volume.md R163). -/
structure RingOk (s : State) : Prop where
  cursors : RingCursors s.cfg.n s.ring
  slots_ok : ∀ b ∈ s.ring.slots, BlockOk (4 * s.cfg.pairsMax) b
  slots_even : ∀ b ∈ s.ring.slots, b.count.toNat % 2 = 0
  slots_standard : s.setup.strat = .ctx2 → ∀ b ∈ s.ring.slots, b.count.toNat ≤ 2 * s.cfg.pairsMax

/-- The Clock Configuration State (10_state.md R30 to R36, 42_clock_configurator.md R191 to R194). -/
structure ClockOk (s : State) : Prop where
  rate_legal : s.clk.rate = 0 ∨ rateLegal s.clk.rate.toNat = true
  family : s.clk.is48k = decide (fam s.clk.rate.toNat = Family.f48k)
  session_rate : s.lc = .running → s.clk.rate ≠ 0
  session_div : s.lc = .running → 1 ≤ s.clk.divInt.toNat
  session_integer : s.lc = .running → s.setup.jmode ≠ .default → s.clk.divFrac = 0 ∧ s.clk.mdivFrac = 0
  session_mclk_off : s.lc = .running → s.setup.mclkEn = false → s.clk.mdivInt = 0 ∧ s.clk.mdivFrac = 0
  session_mclk_on : s.lc = .running → s.setup.mclkEn = true → 1 ≤ s.clk.mdivInt.toNat
  session_target : s.lc = .running → ∀ t ∈ target s.cfg s.setup.jmode (fam s.clk.rate.toNat),
    s.clk.sysSrc = t.1 ∧ s.clk.sysHz = t.2
  session_detached : s.lc = .running → (s.setup.jmode = .lj ∨ s.setup.jmode = .ljoc) → s.clk.periDet = true
  sys_platform : s.clk.sysSrc = .platform → s.clk.sysHz = s.cfg.fSys0

/-- The sequencer, the descriptor and the scratch areas (10_state.md R42 to R46, R253, 60_exceptions.md R312). -/
structure SequencerOk (s : State) : Prop where
  pend_irq : s.dma.pend = true → s.lc = .running ∧ s.setup.strat = .irq
  irq_progress : s.lc = .running → s.setup.strat = .irq → s.dma.busy = !s.dma.pend
  busy_running : s.dma.busy = true → s.lc = .running
  irq_source : s.dma.busy = true → s.setup.strat = .irq →
    (s.dma.kind = .muteBlock ∧ s.dma.idx = 0 ∧ s.dma.count.toNat = s.cfg.muteLen) ∨
    (s.dma.kind = .slot ∧ s.dma.idx.toNat < s.cfg.n ∧ s.dma.count.toNat ≤ (s.ring.slot s.dma.idx.toNat).data.length)
  ctx2_source : s.dma.busy = true → s.setup.strat = .ctx2 →
    s.dma.kind = .scratch ∧ s.dma.idx = scrIndex (!s.ctx.cur) ∧ s.dma.count = (s.ctx.scr (!s.ctx.cur)).count
  pos_le : s.dma.busy = true → s.env.pos ≤ s.dma.count.toNat
  scr0_ok : BlockOk (scrWords s.cfg) s.ctx.scr0
  scr1_ok : BlockOk (scrWords s.cfg) s.ctx.scr1

/-- What `IDLE` means for the ring and the sequencer (40_ring_buffer.md R136, 70_reset_and_hazards.md R341, 45_volume_lifecycle.md R279). -/
structure IdleOk (s : State) : Prop where
  occ : s.lc = .idle → s.ring.occ = 0 ∧ s.ring.enq = 0 ∧ s.ring.deq = 0
  counts : s.lc = .idle → ∀ b ∈ s.ring.slots, b.count = 0
  loop : s.lc = .idle → s.ctx.ph = .fill ∧ s.ctx.cur = false ∧ s.ctx.scr0.count = 0 ∧ s.ctx.scr1.count = 0

/-- `INBUF` in canonical form and inside its window (20_memory.md R70); the multipliers entries of `VOLTAB` (10_state.md
R37); the pins of a session valid (45_volume_lifecycle.md R275, R281). -/
structure HostOk (s : State) : Prop where
  inbuf_wf : Memory.wf s.inbuf
  inbuf_window : ∀ c ∈ s.inbuf, c.1 < 8 * s.cfg.pairsMax
  mulL_entry : s.vol.mulL ∈ s.cfg.volTab
  mulR_entry : s.vol.mulR ∈ s.cfg.volTab
  session_pins : s.lc = .running → pinsOk s.cfg s.setup = true

/-- The invariant of every reachable state, trace apart. -/
structure State.Inv (s : State) : Prop where
  cfg : s.cfg.WF
  ring : RingOk s
  clk : ClockOk s
  seq : SequencerOk s
  idle : IdleOk s
  host : HostOk s

/-! ## The trace -/

/-- The notifications of the current session, that is since the last `OutputEnable`, in order (43_sequencer_irq.md R230). -/
def sessionNotifies (trace : List OutEvent) : List Bool :=
  trace.foldl (fun acc e =>
    match e with
    | .outputEnable _ _ _ _ _ _ => []
    | .notify b => acc ++ [b]
    | _ => acc) []

/-- The values alternate, the first being `b` (R230). -/
def alternatesFrom (b : Bool) : List Bool → Bool
  | [] => true
  | x :: xs => decide (x = b) && alternatesFrom (!b) xs

/-- The trace against the state: one `PeriClkDetach` at most (R322), exactly when `PERI_DET` is set; notifications of a
session alternate from `false`, and `MUTE` says which came last (R230). -/
structure TraceOk (s : State) : Prop where
  detach : s.trace.count .periClkDetach = if s.clk.periDet then 1 else 0
  alternate : alternatesFrom false (sessionNotifies s.trace) = true
  mute : s.play.mute = decide ((sessionNotifies s.trace).length % 2 = 1)

/-! ## Which entry of the schedule a step takes -/

/-- The command the next step runs, when the schedule's head writes a command word to `CMD`. -/
def nextCommand (s : State) : Option Instr :=
  match s.env.schedule with
  | .hostWrite 0 w :: _ => (decode w).toOption
  | .commandStale w :: _ => (decode w).toOption
  | _ => none

/-- Whether the next step is a platform reset. -/
def nextIsReset (s : State) : Bool :=
  match s.env.schedule with
  | .platformReset :: _ => true
  | _ => false

end Sys2Proof.Machine
end

