-- ==== Sys2Proof/Certificates/Slice0/Obligations.lean ====
section
/-! DEFINITION. The statements for the provers. Each cites in its docstring the rule of spec/ it formalises. -/

open Sys2Proof Sys2Proof.Machine

/-! ## The command word -/

/-- Every well-formed command is read back from its word, with every operand (30_encoding.md R100 to R102). -/
def Obligations.DecodeOfEncodedCommand : Prop :=
  ∀ i : Instr, i.wellFormed = true → decode (encode i) = .ok i

/-- A word that decodes is the word of the command it decodes to, and that command is well-formed: no two words
share a meaning (R100 to R103). -/
def Obligations.EncodeOfDecodedWord : Prop :=
  ∀ (w : Word) (i : Instr), decode w = .ok i → i.wellFormed = true ∧ encode i = w

/-- R102: a word is a command iff it matches a row and meets the row's constraint, and then it is that row's. -/
def Obligations.WordIsCommandIffItMatchesRow : Prop :=
  ∀ w : Word, ((∃ i, decode w = .ok i) ↔ CommandWord w) ∧
    ∀ i, decode w = .ok i → w &&& i.rowMask = i.rowMatch

/-- Words of the vectors V1 (95_test_vectors.md), one per format and two reserved. -/
def Obligations.SpecWordsDecode : Prop :=
  decode 0x01056512 = .ok (.configurePins 18 20 22 true) ∧
  decode 0x0200002A = .ok (.configure 2 .lj .ctx2) ∧
  decode 0x0300BB80 = .ok (.initializeAt 48000) ∧
  decode 0x04017700 = .ok (.changeRate 96000) ∧
  decode 0x05400006 = .ok (.enqueue 6 .bits24) ∧
  decode 0x06000000 = .ok .occupancy ∧
  decode 0x0701FFFA = .ok (.setVolume (-6) 1) ∧
  decode 0x08000001 = .ok (.setHandler .custom) ∧
  decode 0x09000000 = .ok .shutdown ∧
  decode 0x02000005 = .error .reservedFormat ∧
  decode 0x07030000 = .error .reservedChannel

/-- R103: writing a reserved word to `CMD` changes no state except `RESULT` and `ERR`, and emits nothing. -/
def Obligations.ReservedWordRaisesIllegalCommand : Prop :=
  ∀ (s : State) (w : Word), ¬ CommandWord w →
    runCommand w s = .next (s.finish 0 .illegalCommand) ∧ perform (.hostWrite 0 w) s = .next (s.finish 0 .illegalCommand)

/-- A step that finds a command word written to `CMD` runs the decoded command on the rest of the schedule
(20_memory.md R84, 10_state.md R52); with nothing scheduled the block waits (70_reset_and_hazards.md R341). The
schedule in State and the wait are the model's choices, log 1 and log 5. -/
def Obligations.StepRunsDecodedCommand : Prop :=
  (∀ (s : State) (w : Word) (es : List Event) (i : Instr), decode w = .ok i →
    s.env.schedule = .hostWrite 0 w :: es → step s = exec i (s.withSchedule es)) ∧
  (∀ (s : State) (e : Event) (es : List Event), s.env.schedule = e :: es → step s = perform e (s.withSchedule es)) ∧
  ∀ s : State, s.env.schedule = [] → step s = .next s

/-! ## Errors -/

/-- R304: `IllegalCommand` is raised for every reserved word, for CONFIGURE_PINS and CONFIGURE while `RUNNING`, for
CHANGE_RATE and ENQUEUE while `IDLE`, and for nothing else. -/
def Obligations.IllegalCommandCauses : Prop :=
  ∀ (w : Word) (s : State),
    let cause := ¬ CommandWord w ∨
      (s.lc = .running ∧ ((∃ d c m en, decode w = .ok (.configurePins d c m en)) ∨
        ∃ f j st, decode w = .ok (.configure f j st))) ∨
      (s.lc = .idle ∧ ((∃ r, decode w = .ok (.changeRate r)) ∨ ∃ n d, decode w = .ok (.enqueue n d)))
    (cause → runCommand w s = .next (s.finish 0 .illegalCommand)) ∧
    ∀ t, runCommand w s = .next t → t.res.err = .illegalCommand → cause

/-- R303: `HardwareContention` is raised only by INITIALIZE, while `RUNNING` or when the platform refuses the claim with
every other check passed; the block then claims nothing. -/
def Obligations.HardwareContentionCauses : Prop :=
  (∀ (i : Instr) (s t : State), exec i s = .next t → t.res.err = .hardwareContention →
    (∃ r, i = .initializeAt r) ∧ (s.lc = .running ∨ s.env.hwClaimOk = false) ∧ t = s.finish 0 .hardwareContention) ∧
  (∀ (r : BitVec 24) (s : State), s.lc = .running →
    exec (.initializeAt r) s = .next (s.finish 0 .hardwareContention)) ∧
  ∀ (r : BitVec 24) (s : State), s.lc = .idle → rateLegal r.toNat = true → pinsOk s.cfg s.setup = true →
    clockPlan (r.setWidth 32) true s ≠ none → s.env.hwClaimOk = false →
    exec (.initializeAt r) s = .next (s.finish 0 .hardwareContention)

/-- R301: what raises `ConfigurationError`, and that it records nothing but `ERR = 1`, `RESULT = 0`; with R275, what the
pin test it names is. -/
def Obligations.ConfigurationErrorCauses : Prop :=
  (∀ (p : Params) (u : Setup), pinsOk p u = true ↔
    (u.pinData.toNat < p.nPins ∧ u.pinClkBase.toNat + 1 < p.nPins ∧ (u.mclkEn = true → u.pinMclk.toNat < p.nPins)) ∧
    u.pinData.toNat ≠ u.pinClkBase.toNat ∧ u.pinData.toNat ≠ u.pinClkBase.toNat + 1 ∧
    (u.mclkEn = true → u.pinMclk.toNat ≠ u.pinData.toNat ∧ u.pinMclk.toNat ≠ u.pinClkBase.toNat ∧
      u.pinMclk.toNat ≠ u.pinClkBase.toNat + 1)) ∧
  ∀ (i : Instr) (s : State),
    let cause :=
      (∃ r, i = .initializeAt r ∧ s.lc = .idle ∧ ((r.toNat < 8000 ∨ 384000 < r.toNat) ∨ pinsOk s.cfg s.setup = false ∨
        clockPlan (r.setWidth 32) true s = none)) ∨
      (∃ r, i = .changeRate r ∧ s.lc = .running ∧ ((r.toNat < 8000 ∨ 384000 < r.toNat) ∨
        clockPlan (r.setWidth 32) false s = none)) ∨
      (∃ n, i = .enqueue n .invalid ∧ s.lc = .running)
    (cause → exec i s = .next (s.finish 0 .configurationError)) ∧
    ∀ t, exec i s = .next t → t.res.err = .configurationError → cause ∧ t = s.finish 0 .configurationError

/-- A command that reads the occupancy exactly raises `BackpressureCondition` when it is an ENQUEUE of a valid depth and a
well-formed length while `RUNNING` and the ring is full, and in no other case; no state changes (60_exceptions.md R302,
20_memory.md R76, 40_ring_buffer.md R132). With a pre-test one operation late (20_memory.md R83; a form of the model's
own, log 14) such an ENQUEUE may also raise it at `OCC + 1 = N`, and nothing else does. -/
def Obligations.BackpressureCauses : Prop :=
  (∀ (n : BitVec 22) (d : BitDepth) (bits : Nat) (s : State), s.lc = .running → bitsOf d = some bits →
    lengthOk s.cfg bits n.toNat = true → s.ring.occ.toNat = s.cfg.n →
    exec (.enqueue n d) s = .next (s.finish 0 .backpressureCondition)) ∧
  (∀ (i : Instr) (s t : State), exec i s = .next t → t.res.err = .backpressureCondition →
    (∃ n d bits, i = .enqueue n d ∧ bitsOf d = some bits ∧ lengthOk s.cfg bits n.toNat = true) ∧
      s.lc = .running ∧ s.ring.occ.toNat = s.cfg.n ∧ t = s.finish 0 .backpressureCondition) ∧
  ∀ (w : Word) (s t : State), perform (.commandStale w) s = .next t → t.res.err = .backpressureCondition →
    (∃ n d bits, decode w = .ok (.enqueue n d) ∧ bitsOf d = some bits ∧ lengthOk s.cfg bits n.toNat = true) ∧
      s.lc = .running ∧ (s.ring.occ.toNat = s.cfg.n ∨ s.ring.occ.toNat + 1 = s.cfg.n) ∧
      t = s.finish 0 .backpressureCondition

/-- R305: a failing command writes `RESULT` and `ERR` and changes nothing else; the next command runs as if it had not
been issued; the steps that are no commands raise nothing. -/
def Obligations.FailedCommandChangesNothingElse : Prop :=
  (∀ (i : Instr) (s t : State), exec i s = .next t → t.res.err ≠ .noError → t = s.finish 0 t.res.err) ∧
  (∀ (i : Instr) (s : State) (v : Word) (c : ErrorClass), exec i (s.finish v c) = exec i s) ∧
  ∀ (e : Event) (s t : State), e ∈ [.dmaRead, .dmaDone, .irqStep, .irqStepStale, .ctx2Fill, .ctx2FillStale, .ctx2Arm] →
    perform e s = .next t → t.res = s.res

/-- R104: every command, legal or not, ends by writing `RESULT` and `ERR`. -/
def Obligations.CommandEndsByWritingResultAndErr : Prop :=
  ∀ (w : Word) (s t : State), runCommand w s = .next t →
    (∃ i, decode w = .ok i ∧ t.res = ⟨commandValue i s, .noError⟩) ∨
    ∃ c, c ≠ .noError ∧ t = s.finish 0 c

/-! ## Configuration and lifecycle -/

/-- CONFIGURE_PINS in `IDLE` stores the assignment and changes nothing else (45_volume_lifecycle.md R272). -/
def Obligations.ConfigurePinsStoresPins : Prop :=
  ∀ (d c m : BitVec 6) (en : Bool) (s : State), s.lc = .idle →
    ∃ t, exec (.configurePins d c m en) s = .next t ∧ t.res = ⟨1, .noError⟩ ∧
      t.setup = ⟨s.setup.fmt, s.setup.jmode, s.setup.strat, d, c, m, en⟩ ∧
      t = { s with setup := t.setup, res := t.res }

/-- CONFIGURE in `IDLE` stores the selection and changes nothing else (45_volume_lifecycle.md R274); a format code that
names no format, which no word decodes to, raises `IllegalCommand` (the model's choice, log 10). -/
def Obligations.ConfigureStoresSelection : Prop :=
  (∀ (f : Format) (j : JitterMode) (st : Strategy) (s : State), s.lc = .idle →
    ∃ t, exec (.configure f.code j st) s = .next t ∧ t.res = ⟨1, .noError⟩ ∧
      t.setup = { s.setup with fmt := f, jmode := j, strat := st } ∧
      t = { s with setup := t.setup, res := t.res }) ∧
  ∀ (c : BitVec 3) (j : JitterMode) (st : Strategy) (s : State), 4 < c.toNat →
    exec (.configure c j st) s = .next (s.finish 0 .illegalCommand)

/-- INITIALIZE with every check passed: the clock state, the cleared ring and sequencer, the events in their order, and
what it leaves alone (45_volume_lifecycle.md R276, R275, 42_clock_configurator.md R184 to R186, 43_sequencer_irq.md R228). -/
def Obligations.InitializeStartsSession : Prop :=
  ∀ (r : BitVec 24) (p : ClockPlan) (s : State), s.lc = .idle → rateLegal r.toNat = true →
    pinsOk s.cfg s.setup = true → clockPlan (r.setWidth 32) true s = some p → s.env.hwClaimOk = true →
    ∃ t, exec (.initializeAt r) s = .next t ∧ t.res = ⟨1, .noError⟩ ∧ t.lc = .running ∧
      t.clk.rate = r.setWidth 32 ∧ t.clk.is48k = decide (fam r.toNat = Family.f48k) ∧
      (t.clk.divInt, t.clk.divFrac) = p.div ∧ (t.clk.mdivInt, t.clk.mdivFrac) = p.mdiv ∧
      (t.clk.sysSrc, t.clk.sysHz) =
        (target s.cfg s.setup.jmode (fam r.toNat)).getD (s.clk.sysSrc, s.clk.sysHz) ∧
      t.clk.periDet = (s.clk.periDet || decide (s.setup.jmode = .lj) || decide (s.setup.jmode = .ljoc)) ∧
      t.ring.occ = 0 ∧ t.ring.enq = 0 ∧ t.ring.deq = 0 ∧ (∀ k, (t.ring.slot k).count = 0) ∧
      (∀ k j, t.ring.datum k j = s.ring.datum k j) ∧
      t.ctx = ⟨.fill, false, ⟨s.ctx.scr0.data, 0⟩, ⟨s.ctx.scr1.data, 0⟩⟩ ∧
      t.play = { s.play with mute := false } ∧
      (s.setup.strat = .irq → t.dma = ⟨true, false, .muteBlock, 0, BitVec.ofNat 32 s.cfg.muteLen⟩) ∧
      (s.setup.strat = .ctx2 → t.dma = { s.dma with busy := false, pend := false }) ∧
      t.trace = s.trace ++
        (if (s.setup.jmode = .lj ∨ s.setup.jmode = .ljoc) ∧ s.clk.periDet = false then [.periClkDetach] else []) ++
        ((target s.cfg s.setup.jmode (fam r.toNat)).toList.map fun x => .sysClkRetarget x.1 x.2) ++
        [.setDivider p.div.1 p.div.2] ++ (if s.setup.mclkEn then [.setMclkDivider p.mdiv.1 p.mdiv.2] else []) ++
        [.outputEnable s.setup.fmt s.setup.strat s.setup.pinData s.setup.pinClkBase s.setup.mclkEn s.setup.pinMclk] ++
        (if s.setup.strat = .irq then [.dmaArm .muteBlock 0 (BitVec.ofNat 32 s.cfg.muteLen)] else []) ∧
      t.setup = s.setup ∧ t.vol = s.vol ∧ t.cfg = s.cfg ∧ t.inbuf = s.inbuf ∧
      t.env = (if s.setup.strat = .irq then { s.env with pos := 0 } else s.env)

/-- SHUTDOWN: disables the output first, clears the ring and the sequencer, releases last, and leaves `MUTE`, the
indicator, the handler, the multipliers, the configuration, the descriptor and the clock alone; in `IDLE` it writes
`RESULT` and `ERR` only (45_volume_lifecycle.md R279, R280). -/
def Obligations.ShutdownEndsSession : Prop :=
  (∀ s : State, s.lc = .running →
    ∃ t, exec .shutdown s = .next t ∧ t.res = ⟨1, .noError⟩ ∧ t.lc = .idle ∧
      t.trace = s.trace ++ [.outputDisable, .resourcesReleased] ∧
      t.dma = { s.dma with busy := false, pend := false } ∧
      t.ring.occ = 0 ∧ t.ring.enq = 0 ∧ t.ring.deq = 0 ∧ (∀ k, (t.ring.slot k).count = 0) ∧
      (∀ k j, t.ring.datum k j = s.ring.datum k j) ∧
      t.ctx = ⟨.fill, false, ⟨s.ctx.scr0.data, 0⟩, ⟨s.ctx.scr1.data, 0⟩⟩ ∧
      t = { s with lc := t.lc, trace := t.trace, dma := t.dma, ring := t.ring, ctx := t.ctx, res := t.res }) ∧
  ∀ s : State, s.lc = .idle → exec .shutdown s = .next (s.finish 1 .noError)

/-! ## The clock -/

/-- CHANGE_RATE while `RUNNING`, at a rate whose dividers are in range: the new clock state and the events in their order,
and nothing else touched: not the ring, `MUTE`, `DMA_BUSY`, `PEND`, the descriptor, the scratch areas or the
multipliers (42_clock_configurator.md R190, R186, R191). -/
def Obligations.ChangeRateRetunes : Prop :=
  ∀ (r : BitVec 24) (p : ClockPlan) (s : State), s.lc = .running → rateLegal r.toNat = true →
    clockPlan (r.setWidth 32) false s = some p →
    let wanted := if decide (fam r.toNat = Family.f48k) = s.clk.is48k then none
      else target s.cfg s.setup.jmode (fam r.toNat)
    ∃ t, exec (.changeRate r) s = .next t ∧ t.res = ⟨1, .noError⟩ ∧
      t.clk.rate = r.setWidth 32 ∧ t.clk.is48k = decide (fam r.toNat = Family.f48k) ∧
      (t.clk.divInt, t.clk.divFrac) = p.div ∧ (t.clk.mdivInt, t.clk.mdivFrac) = p.mdiv ∧
      (t.clk.sysSrc, t.clk.sysHz) = wanted.getD (s.clk.sysSrc, s.clk.sysHz) ∧ t.clk.periDet = s.clk.periDet ∧
      t.trace = s.trace ++ (wanted.toList.map fun x => .sysClkRetarget x.1 x.2) ++ [.setDivider p.div.1 p.div.2] ++
        (if s.setup.mclkEn then [.setMclkDivider p.mdiv.1 p.mdiv.2] else []) ∧
      t = { s with clk := t.clk, trace := t.trace, res := t.res }

/-- R195: a rate of the other family flips the family flag, and re-targets the system clock in `LJ`, `LJOC` and `EXT` and
not in `DEFAULT`; a rate of the same family does neither, and only the dividers are set. -/
def Obligations.FamilyCrossingRetargets : Prop :=
  ∀ (r : BitVec 24) (s t : State), s.lc = .running → ClockOk s → exec (.changeRate r) s = .next t →
    t.res.err = .noError →
    (t.clk.is48k ≠ s.clk.is48k ↔ fam r.toNat ≠ fam s.clk.rate.toNat) ∧
    ((∃ src hz, .sysClkRetarget src hz ∈ t.trace.drop s.trace.length) ↔
      s.setup.jmode ≠ .default ∧ fam r.toNat ≠ fam s.clk.rate.toNat) ∧
    (s.setup.jmode = .default ∨ fam r.toNat = fam s.clk.rate.toNat →
      (t.clk.sysSrc, t.clk.sysHz) = (s.clk.sysSrc, s.clk.sysHz) ∧
      t.trace = s.trace ++ [.setDivider t.clk.divInt t.clk.divFrac] ++
        (if s.setup.mclkEn then [.setMclkDivider t.clk.mdivInt t.clk.mdivFrac] else [])) ∧
    t.trace.take s.trace.length = s.trace

/-- `divide` rounds down to a multiple of 1/256, or to an integer (42_clock_configurator.md R183). -/
def Obligations.DivideRoundsDown : Prop :=
  ∀ num den : Nat, 0 < den →
    ((divide num den true).2 < 256 ∧
      ((divide num den true).1 * 256 + (divide num den true).2) * den ≤ num * 256 ∧
      num * 256 < ((divide num den true).1 * 256 + (divide num den true).2 + 1) * den) ∧
    ((divide num den false).2 = 0 ∧ (divide num den false).1 * den ≤ num ∧
      num < ((divide num den false).1 + 1) * den)

/-- What `clock_plan` computes, and that it fails exactly when an integer part is outside `1 .. 65535`
(42_clock_configurator.md R186 to R188). -/
def Obligations.PlanDividesSystemClock : Prop :=
  ∀ (rate : Word) (first : Bool) (s : State),
    let f := fam rate.toNat
    let wanted := if first = true ∨ decide (f = Family.f48k) ≠ s.clk.is48k then target s.cfg s.setup.jmode f else none
    let sys := (wanted.getD (s.clk.sysSrc, s.clk.sysHz)).2
    let d := divide sys.toNat (rate.toNat * perFormat s.cfg.osf s.setup.fmt) (decide (s.setup.jmode = .default))
    let m := divide sys.toNat (mclkTarget f) (decide (s.setup.jmode = .default))
    (clockPlan rate first s = none ↔ (d.1 < 1 ∨ 65535 < d.1) ∨ (s.setup.mclkEn = true ∧ (m.1 < 1 ∨ 65535 < m.1))) ∧
    ∀ p, clockPlan rate first s = some p →
      p.rate = rate ∧ p.fam = f ∧ p.sys = sys ∧ p.retarget = wanted.isSome ∧ (p.retarget = true → wanted = some (p.src, p.sys)) ∧
      p.div.1.toNat = d.1 ∧ p.div.2.toNat = d.2 ∧
      (s.setup.mclkEn = true → p.mdiv.1.toNat = m.1 ∧ p.mdiv.2.toNat = m.2) ∧
      (s.setup.mclkEn = false → p.mdiv = (0, 0))

/-! ## ENQUEUE and the data path -/

/-- ENQUEUE while `RUNNING`, of a well-formed length whose bytes were all written, into a ring with a free slot: the
scaled and packed block in the slot at `ENQ`, and every other datum and field unchanged (41_packer_volume.md R150, R158,
40_ring_buffer.md R132). -/
def Obligations.EnqueueStoresScaledPackedBlock : Prop :=
  ∀ (n : BitVec 22) (d : BitDepth) (bits : Nat) (bytes : List Byte) (s : State), s.lc = .running →
    bitsOf d = some bits → lengthOk s.cfg bits n.toNat = true → s.cfg.n ≤ 255 → RingCursors s.cfg.n s.ring →
    s.ring.occ.toNat < s.cfg.n → Memory.readRange s.inbuf 0 n.toNat = some bytes →
    let policy := if s.setup.strat = .irq then perFormat s.cfg.policy s.setup.fmt else .standard
    let block := pack policy ((List.range (n.toNat / pairBytes bits)).map fun p =>
      (scale (justify (sample bytes (2 * p) (bits / 8)) bits) s.vol.mulL,
       scale (justify (sample bytes (2 * p + 1) (bits / 8)) bits) s.vol.mulR))
    ∃ t, exec (.enqueue n d) s = .next t ∧ t.res = ⟨1, .noError⟩ ∧
      (∀ j, j < block.length → t.ring.datum s.ring.enq.toNat j = block[j]?) ∧
      (t.ring.slot s.ring.enq.toNat).count = BitVec.ofNat 32 block.length ∧
      (∀ k j, k ≠ s.ring.enq.toNat ∨ block.length ≤ j → t.ring.datum k j = s.ring.datum k j) ∧
      (∀ k, k ≠ s.ring.enq.toNat → (t.ring.slot k).count = (s.ring.slot k).count) ∧
      t.ring.occ.toNat = s.ring.occ.toNat + 1 ∧ t.ring.enq.toNat = (s.ring.enq.toNat + 1) % s.cfg.n ∧
      t.ring.deq = s.ring.deq ∧ t = { s with ring := t.ring, res := t.res }

/-- R75: an ENQUEUE whose `byteCount` is 0, is not a multiple of `2 * B`, or gives more than `PAIRS_MAX` pairs is refused,
while `RUNNING` at a valid bit depth, and no other command ever is. -/
def Obligations.MalformedEnqueueRefused : Prop :=
  (∀ (n : BitVec 22) (d : BitDepth) (bits : Nat) (s : State), s.lc = .running → bitsOf d = some bits →
    (n.toNat = 0 ∨ ¬ (2 * (bits / 8) ∣ n.toNat) ∨ s.cfg.pairsMax < n.toNat / (2 * (bits / 8)) ↔
      exec (.enqueue n d) s = .refused (.malformedEnqueue n))) ∧
  ∀ (i : Instr) (s : State) (q : Refusal), exec i s = .refused q →
    ∃ n d bits, i = .enqueue n d ∧ bitsOf d = some bits ∧ s.lc = .running ∧ q = .malformedEnqueue n

/-- An ENQUEUE that would read an `INBUF` byte never written since reset faults, and no other command ever does
(70_reset_and_hazards.md R356). -/
def Obligations.UnwrittenInputFaults : Prop :=
  (∀ (n : BitVec 22) (d : BitDepth) (bits : Nat) (s : State), s.lc = .running → bitsOf d = some bits →
    lengthOk s.cfg bits n.toNat = true → s.ring.occ.toNat ≠ s.cfg.n →
    (exec (.enqueue n d) s = .fault .inbufUnwritten ↔ ∃ j, j < n.toNat ∧ Memory.read s.inbuf j = none)) ∧
  ∀ (i : Instr) (s : State) (f : Fault), exec i s = .fault f → (∃ n d, i = .enqueue n d) ∧ f = .inbufUnwritten

/-- R154: for a multiplier up to unity the scaled value is the floored product over `2^29`, never larger than the input in
magnitude, so the truncation to 32 bits changes nothing. -/
def Obligations.ScaleIsFlooredProduct : Prop :=
  ∀ v m : Word, m.toNat ≤ 0x20000000 →
    (scale v m).toInt * 2 ^ 29 ≤ v.toInt * m.toNat ∧ v.toInt * m.toNat < ((scale v m).toInt + 1) * 2 ^ 29 ∧
    (scale v m).toInt.natAbs ≤ v.toInt.natAbs

/-- R155: the corner cases of `scale`. -/
def Obligations.ScaleCornerCases : Prop :=
  (∀ v : Word, scale v 0x20000000 = v) ∧ (∀ v : Word, scale v 0 = 0) ∧ (∀ m : Word, scale 0 m = 0) ∧
  (∀ v m₁ m₂ : Word, 0 ≤ v.toInt → m₁.toNat ≤ m₂.toNat → m₂.toNat ≤ 0x20000000 →
    (scale v m₁).toInt ≤ (scale v m₂).toInt) ∧
  scale 0x40000000 0x10000000 = 0x20000000 ∧ scale 0xC0000000 0x10000000 = 0xE0000000 ∧
  scale 1 0x10000000 = 0 ∧ scale 0xFFFFFFFF 0x10000000 = 0xFFFFFFFF ∧ scale 0x80000000 0x10000000 = 0xC0000000

/-- R156: the saturating negation, and its double. -/
def Obligations.NegsatSaturates : Prop :=
  ∀ x : Word, (negsat x).toInt = (if x.toInt = -2 ^ 31 then 2 ^ 31 - 1 else -x.toInt) ∧
    negsat (negsat x) = (if x = 0x80000000 then 0x80000001 else x)

/-- R157: the left channel's bits in the odd positions, the right channel's in the even; the halves; the round trip. -/
def Obligations.InterleavePlacesBits : Prop :=
  ∀ l r : Word,
    (∀ i, i < 32 → (interleave l r).getLsbD (2 * i + 1) = l.getLsbD i ∧ (interleave l r).getLsbD (2 * i) = r.getLsbD i) ∧
    (∀ i, i < 16 → (hi (interleave l r)).getLsbD (2 * i + 1) = l.getLsbD (16 + i) ∧
      (hi (interleave l r)).getLsbD (2 * i) = r.getLsbD (16 + i) ∧
      (lo (interleave l r)).getLsbD (2 * i + 1) = l.getLsbD i ∧ (lo (interleave l r)).getLsbD (2 * i) = r.getLsbD i) ∧
    deinterleave (interleave l r) = (l, r)

/-- R159 to R161: which datums each policy puts where in a block, and the block's datum count. -/
def Obligations.PackPlacesDatums : Prop :=
  ∀ (ps : List (Word × Word)) (p : Nat) (l r : Word), ps[p]? = some (l, r) →
    let w := interleave l r
    let v := interleave (negsat l) (negsat r)
    ((pack .standard ps).length = 2 * ps.length ∧
      (pack .standard ps)[2 * p]? = some l ∧ (pack .standard ps)[2 * p + 1]? = some r) ∧
    ((pack .exdf ps).length = 2 * ps.length ∧
      (pack .exdf ps)[2 * p]? = some (hi w) ∧ (pack .exdf ps)[2 * p + 1]? = some (lo w)) ∧
    ((pack .dualMono ps).length = 4 * ps.length ∧
      (pack .dualMono ps)[4 * p]? = some (hi w) ∧ (pack .dualMono ps)[4 * p + 1]? = some (lo w) ∧
      (pack .dualMono ps)[4 * p + 2]? = some (hi v) ∧ (pack .dualMono ps)[4 * p + 3]? = some (lo v))

/-- R163: expanding a `STANDARD` block is packing its pairs, so both strategies arm the same datums; the datum counts. -/
def Obligations.ExpandAfterStandardPack : Prop :=
  ∀ (pol : Policy) (ps : List (Word × Word)), expand pol (pack .standard ps) = pack pol ps ∧
    (pack pol ps).length = (if pol = .dualMono then 4 else 2) * ps.length

/-- R151: a sample is its bytes, the lowest index least significant, sign-extended. -/
def Obligations.SampleReadsLittleEndian : Prop :=
  ∀ (bytes : List Byte) (k b : Nat), 1 ≤ b → b ≤ 4 → (k + 1) * b ≤ bytes.length →
    let v := ((List.range b).map fun j => (bytes.getD (k * b + j) 0).toNat * 2 ^ (8 * j)).sum
    sample bytes k b = (if v < 2 ^ (8 * b - 1) then (v : Int) else (v : Int) - 2 ^ (8 * b)) ∧
    -2 ^ (8 * b - 1) ≤ sample bytes k b ∧ sample bytes k b < 2 ^ (8 * b - 1)

/-- R152: left-justification multiplies by `2^(32 - bits)` without overflow and leaves the low bits 0. -/
def Obligations.JustifyShiftsLeft : Prop :=
  ∀ (v : Int) (bits : Nat), bits = 16 ∨ bits = 24 ∨ bits = 32 → -2 ^ (bits - 1) ≤ v → v < 2 ^ (bits - 1) →
    (justify v bits).toInt = v * 2 ^ (32 - bits) ∧ ∀ i, i < 32 - bits → (justify v bits).getLsbD i = false

/-! ## Volume, handler, occupancy -/

/-- OCCUPANCY returns `OCC` and changes nothing else, in both lifecycle states (40_ring_buffer.md R136). -/
def Obligations.OccupancyReturnsCounter : Prop :=
  ∀ s : State, exec .occupancy s = .next (s.finish (BitVec.ofNat 32 s.ring.occ.toNat) .noError)

/-- SET_VOLUME takes the table entry of the clamped magnitude for the selected channel, or both, in both lifecycle
states, and changes nothing else (45_volume_lifecycle.md R270); the channel code 3, which no word decodes to, raises
`IllegalCommand` (the model's choice, log 10). -/
def Obligations.SetVolumeSelectsMultiplier : Prop :=
  (∀ (att : BitVec 16) (s : State), exec (.setVolume att 3) s = .next (s.finish 0 .illegalCommand)) ∧
  ∀ (att : BitVec 16) (ch : BitVec 2) (s : State), ch ≠ 3 →
    ∃ t, exec (.setVolume att ch) s = .next t ∧ t.res = ⟨1, .noError⟩ ∧
      (∀ k : Nat, (k : Int) = -(min 0 (max (-100) att.toInt)) →
        t.vol.mulL = (if ch = 0 ∨ ch = 1 then (s.cfg.volTab[k]?).getD 0 else s.vol.mulL) ∧
        t.vol.mulR = (if ch = 0 ∨ ch = 2 then (s.cfg.volTab[k]?).getD 0 else s.vol.mulR)) ∧
      t = { s with vol := t.vol, res := t.res }

/-- The multiplier is unity from 0 dB up, and does not rise as the attenuation falls (45_volume_lifecycle.md R271). -/
def Obligations.MultiplierFallsWithAttenuation : Prop :=
  ∀ (p : Params), p.WF →
    (∀ a : BitVec 16, 0 ≤ a.toInt → volTabAt p (attenuationIndex a) = 0x20000000) ∧
    ∀ a b : BitVec 16, a.toInt ≤ b.toInt →
      (volTabAt p (attenuationIndex a)).toNat ≤ (volTabAt p (attenuationIndex b)).toNat

/-- SET_HANDLER replaces the handler selection and changes nothing else (45_volume_lifecycle.md R278). -/
def Obligations.SetHandlerSelects : Prop :=
  ∀ (h : Handler) (s : State),
    ∃ t, exec (.setHandler h) s = .next t ∧ t.res = ⟨1, .noError⟩ ∧ t.play = ⟨s.play.mute, h, s.play.ind⟩ ∧
      t = { s with play := t.play, res := t.res }

/-! ## The ring -/

/-- R137: whatever calls are made of an empty ring, the occupancy stays in `0 .. N`, enqueue fails exactly at `N` and
dequeue exactly at 0, and the blocks come back in the order they went in. -/
def Obligations.RingIsFifoQueue : Prop :=
  ∀ (n : Nat) (r : Ring) (cs : List RingCall), 1 ≤ n → n ≤ 255 → r.slots.length = n → r.occ = 0 →
    r.enq.toNat < n → r.deq = r.enq →
    (∀ block, RingCall.enqueue block ∈ cs → block.length < 2 ^ 32) →
    let h := (RingHistory.mk r [] []).calls n cs
    RingCursors n h.ring ∧ h.stored = h.returned ++ h.ring.queue n ∧
    (∀ block, ringEnqueue n block h.ring = none ↔ h.ring.occ.toNat = n) ∧
    (ringDequeue n h.ring = none ↔ h.ring.occ.toNat = 0)

/-! ## The sequencer -/

/-- An enabled `irq_step` completes, and `MUTE`, the notification and the armed source follow the table of
43_sequencer_irq.md R225 (with R220, R222 to R224, R226). -/
def Obligations.IrqStepFollowsHysteresisTable : Prop :=
  ∀ s : State, s.lc = .running → s.setup.strat = .irq → s.dma.pend = true → s.cfg.n ≤ 255 → RingCursors s.cfg.n s.ring →
    let occ := s.ring.occ.toNat
    let muteArm := OutEvent.dmaArm .muteBlock 0 (BitVec.ofNat 32 s.cfg.muteLen)
    let liveArm := OutEvent.dmaArm .slot s.ring.deq (s.ring.slot s.ring.deq.toNat).count
    let indicator := fun b => if s.play.hsel = .default then b else s.play.ind
    ∃ t, perform .irqStep s = .next t ∧
      (t.play.mute = true →
        t.dma = ⟨true, false, .muteBlock, 0, BitVec.ofNat 32 s.cfg.muteLen⟩ ∧ t.ring = s.ring) ∧
      (t.play.mute = false →
        t.dma = ⟨true, false, .slot, s.ring.deq, (s.ring.slot s.ring.deq.toNat).count⟩ ∧ t.ring.slots = s.ring.slots ∧
        t.ring.enq = s.ring.enq ∧ t.ring.occ.toNat = occ - 1 ∧ t.ring.deq.toNat = (s.ring.deq.toNat + 1) % s.cfg.n) ∧
      (s.play.mute = false → occ = 0 →
        t.play = ⟨true, s.play.hsel, indicator false⟩ ∧ t.trace = s.trace ++ [.notify false, muteArm]) ∧
      (s.play.mute = false → 1 ≤ occ → t.play = s.play ∧ t.trace = s.trace ++ [liveArm]) ∧
      (s.play.mute = true → occ = 0 → t.play = s.play ∧ t.trace = s.trace ++ [muteArm]) ∧
      (s.play.mute = true → 1 ≤ occ → occ < s.cfg.n / 4 → t.play = s.play ∧ t.trace = s.trace ++ [muteArm]) ∧
      (s.play.mute = true → 1 ≤ occ → s.cfg.n / 4 ≤ occ →
        t.play = ⟨false, s.play.hsel, indicator true⟩ ∧ t.trace = s.trace ++ [.notify true, liveArm]) ∧
      t.env = { s.env with pos := 0 } ∧
      t = { s with play := t.play, ring := t.ring, dma := t.dma, trace := t.trace, env := t.env }

/-- An enabled `ctx2_fill` completes: the oldest block, or the mute block, expanded by the format's policy into
`SCR[CUR]` with its length as `COUNT`; the datums beyond it, the other area and every slot unchanged (44_sequencer_second_context.md R251, R252, R257). -/
def Obligations.FillFormatsIntoScratch : Prop :=
  ∀ s : State, s.Inv → s.lc = .running → s.setup.strat = .ctx2 → s.ctx.ph = .fill →
    let occ := s.ring.occ.toNat
    let live := occ ≠ 0 ∧ (s.play.mute = false ∨ s.cfg.n / 4 ≤ occ)
    let old := s.ctx.scr s.ctx.cur
    let holds := fun (b : SampleBlock) (block : List Word) => b.count.toNat = block.length ∧
      ∀ j, b.data[j]? = if j < block.length then block[j]? else old.data[j]?
    ∃ t, perform .ctx2Fill s = .next t ∧ t.ctx.ph = .wait ∧ t.ctx.cur = s.ctx.cur ∧
      t.ctx.scr (!s.ctx.cur) = s.ctx.scr (!s.ctx.cur) ∧
      (live → holds (t.ctx.scr s.ctx.cur)
          (expand (perFormat s.cfg.policy s.setup.fmt) (s.ring.slot s.ring.deq.toNat).contents) ∧
        t.play.mute = false ∧ t.ring.slots = s.ring.slots ∧ t.ring.enq = s.ring.enq ∧
        t.ring.occ.toNat = occ - 1 ∧ t.ring.deq.toNat = (s.ring.deq.toNat + 1) % s.cfg.n) ∧
      (¬ live → holds (t.ctx.scr s.ctx.cur)
          (expand (perFormat s.cfg.policy s.setup.fmt) (List.replicate s.cfg.muteLen 0)) ∧
        t.play.mute = true ∧ t.ring = s.ring) ∧
      t.trace = s.trace ++ (if t.play.mute = s.play.mute then [] else [.notify (!t.play.mute)]) ∧
      t.play.hsel = s.play.hsel ∧
      t.play.ind = (if t.play.mute ≠ s.play.mute ∧ s.play.hsel = .default then !t.play.mute else s.play.ind) ∧
      t = { s with play := t.play, ring := t.ring, ctx := t.ctx, trace := t.trace }

/-- The expanded mute block is all zero, `MUTE_LEN` datums long for `STANDARD` and `EXDF` and `2 * MUTE_LEN` for `DUALMONO`
(44_sequencer_second_context.md R252). -/
def Obligations.MuteBlockExpandsToZeros : Prop :=
  ∀ (p : Params) (pol : Policy), p.muteLen % 2 = 0 →
    expand pol (muteBlock p) = List.replicate (if pol = .dualMono then 2 * p.muteLen else p.muteLen) 0

/-- An enabled `ctx2_arm` arms `SCR[CUR]`, swaps and goes back to filling; with a transfer in flight it is not enabled
(44_sequencer_second_context.md R254; that a step not enabled is a fault is the model's choice, log 4). -/
def Obligations.ContextArmStartsTransfer : Prop :=
  ∀ s : State, s.lc = .running → s.setup.strat = .ctx2 → s.ctx.ph = .wait →
    (s.dma.busy = false →
      ∃ t, perform .ctx2Arm s = .next t ∧
        t.dma = ⟨true, s.dma.pend, .scratch, if s.ctx.cur then 1 else 0, (s.ctx.scr s.ctx.cur).count⟩ ∧
        t.ctx = { s.ctx with cur := !s.ctx.cur, ph := .fill } ∧
        t.trace = s.trace ++ [.dmaArm .scratch (if s.ctx.cur then 1 else 0) (s.ctx.scr s.ctx.cur).count] ∧
        t.env = { s.env with pos := 0 } ∧ t = { s with dma := t.dma, ctx := t.ctx, trace := t.trace, env := t.env }) ∧
    (s.dma.busy = true → perform .ctx2Arm s = .fault (.stepNotEnabled .ctx2Arm) ∧
      perform .ctx2Fill s = .fault (.stepNotEnabled .ctx2Fill))

/-- R311: with every datum delivered, `dma_done` clears `DMA_BUSY` and, under `IRQ`, sets `PEND`; while not `RUNNING` or with
nothing in flight it is ignored. -/
def Obligations.DmaDoneEndsTransfer : Prop :=
  (∀ s : State, s.lc = .running → s.dma.busy = true → s.env.pos = s.dma.count.toNat →
    perform .dmaDone s = .next { s with dma := { s.dma with
      busy := false, pend := if s.setup.strat = .irq then true else s.dma.pend } }) ∧
  ∀ s : State, ¬ (s.lc = .running ∧ s.dma.busy = true) → perform .dmaDone s = .next s

/-- A transfer nothing was delivered of yet, completed in one go, carries exactly the armed source's first `DESC_COUNT`
datums, in order (43_sequencer_irq.md R227; that the engine delivers what is left within `dma_done` is the model's
choice, log 6). -/
def Obligations.TransferDeliversArmedBlock : Prop :=
  ∀ s : State, s.Inv → s.dma.busy = true → s.env.pos = 0 →
    let source := match s.dma.kind with
      | .slot => (s.ring.slot s.dma.idx.toNat).data
      | .scratch => (s.ctx.scr (!s.ctx.cur)).data
      | _ => List.replicate s.cfg.muteLen 0
    s.dma.count.toNat ≤ source.length ∧
    ∃ t, perform .dmaDone s = .next t ∧ t.env.stream = s.env.stream ++ source.take s.dma.count.toNat ∧
      t.env.pos = s.dma.count.toNat ∧ t.dma.busy = false

/-- One datum read delivers the datum the armed source holds at that instant, and changes nothing of the block
(43_sequencer_irq.md R227, 20_memory.md R84). -/
def Obligations.DmaReadDeliversInPlace : Prop :=
  ∀ (s : State) (d : Word), s.dma.busy = true → s.env.pos < s.dma.count.toNat →
    armedDatum s s.env.pos = some d →
    perform .dmaRead s = .next { s with env := { s.env with pos := s.env.pos + 1, stream := s.env.stream ++ [d] } }

/-- The in-flight overwrite race: an ENQUEUE into the slot in flight makes the transfer's later datums the new block's,
and beyond a shorter block the old one's (70_reset_and_hazards.md R351). -/
def Obligations.EnqueueOverInFlightSlot : Prop :=
  ∀ (n : BitVec 22) (d : BitDepth) (s t : State), RingCursors s.cfg.n s.ring → s.dma.kind = .slot →
    s.dma.idx = s.ring.enq → exec (.enqueue n d) s = .next t → t.res.err = .noError →
    ∃ bits bytes, bitsOf d = some bits ∧ Memory.readRange s.inbuf 0 n.toNat = some bytes ∧
      t.dma = s.dma ∧ t.env = s.env ∧
      ∀ j, armedDatum t j =
        if j < (enqueueBlock bits bytes s).length then (enqueueBlock bits bytes s)[j]? else armedDatum s j

/-- R253: with a transfer in flight under `CTX2` the descriptor names the area that is not being filled, so `ctx2_fill`
writes no datum the DMA engine reads. -/
def Obligations.ScratchInFlightIsNotFilled : Prop :=
  ∀ s : State, s.Inv → s.dma.busy = true → s.setup.strat = .ctx2 →
    (s.dma.kind = .scratch ∧ s.dma.idx = scrIndex (!s.ctx.cur)) ∧
    ∀ t, perform .ctx2Fill s = .next t → ∀ j, armedDatum t j = armedDatum s j

/-- In every state that meets the invariant an enabled step of the sequencer, and of the DMA engine, is taken without a stop
(60_exceptions.md R305, R311, 43_sequencer_irq.md R220, R227, 44_sequencer_second_context.md R251, R254). That `dma_done`
also answers with datums still left, by delivering them first, is the model's choice (log 6). -/
def Obligations.EnabledStepsComplete : Prop :=
  ∀ s : State, s.Inv →
    (irqEnabled s = true → ∃ t, perform .irqStep s = .next t) ∧
    (fillEnabled s = true → ∃ t, perform .ctx2Fill s = .next t) ∧
    (armEnabled s = true → ∃ t, perform .ctx2Arm s = .next t) ∧
    (dmaReadEnabled s = true → ∃ t, perform .dmaRead s = .next t) ∧
    ∃ t, perform .dmaDone s = .next t

/-! ## Reset and invariants -/

/-- R54: a reset puts every field that rule names at its reset value, whatever the parameters; `VOLTAB` and the mute block
are constant. -/
def Obligations.ResetValues : Prop :=
  ∀ s : State, ∃ t, perform .platformReset s = .next t ∧ t.lc = .idle ∧
    t.setup = ⟨.i2s, .default, .irq, 0x3F, 0x3F, 0x3F, false⟩ ∧
    t.clk = ⟨0, false, 0, 0, 0, 0, s.cfg.fSys0, .platform, false⟩ ∧ t.vol = ⟨0x20000000, 0x20000000⟩ ∧
    t.ring.occ = 0 ∧ t.ring.enq = 0 ∧ t.ring.deq = 0 ∧ t.ring.slots.length = s.cfg.n ∧
    (∀ b ∈ t.ring.slots, b.count = 0) ∧ t.play = ⟨false, .default, false⟩ ∧
    t.dma = ⟨false, false, .nothing, 0, 0⟩ ∧ t.ctx.ph = .fill ∧ t.ctx.cur = false ∧ t.ctx.scr0.count = 0 ∧
    t.ctx.scr1.count = 0 ∧ t.res = ⟨0, .noError⟩ ∧ t.trace = [] ∧ t.cfg = s.cfg ∧
    ∀ d ∈ muteBlock t.cfg, d = 0

/-- The reset state meets the invariants, under every legal binding of the parameters, and under binding P1, with which the
model resets (the model's choice, log 2; 00_scope.md R11, 10_state.md R54). -/
def Obligations.ResetMeetsInvariants : Prop :=
  (∀ p : Params, p.WF → (State.resetWith p).Inv ∧ TraceOk (State.resetWith p)) ∧ State.reset.Inv

/-- Every step keeps the invariant of every reachable state (10_state.md R37 to R46, 40_ring_buffer.md R131, 42_clock_configurator.md
R191, 44_sequencer_second_context.md R253, 60_exceptions.md R312). -/
def Obligations.StepKeepsInvariant : Prop :=
  ∀ s t : State, s.Inv → step s = .next t → t.Inv

/-- Every step keeps what the trace says: one detach at most between two resets (60_exceptions.md R322), and the
notifications of a session alternating from `false`, `MUTE` agreeing with the last (43_sequencer_irq.md R230). -/
def Obligations.StepKeepsTraceOrder : Prop :=
  ∀ s t : State, TraceOk s → step s = .next t → TraceOk t

/-- From a state that meets the invariant no step reads a datum never written since reset (10_state.md R38). -/
def Obligations.NoStepReadsUnwrittenDatum : Prop :=
  ∀ (s : State) (kind : SourceKind) (idx : BitVec 8), s.Inv → step s ≠ .fault (.datumUnwritten kind idx)

/-! ## Who writes what -/

/-- The multipliers change only in a SET_VOLUME or a reset, and the parameters never (10_state.md R37, R20). -/
def Obligations.VolumeWrittenOnlyBySetVolume : Prop :=
  ∀ s t : State, step s = .next t → t.cfg = s.cfg ∧
    (t.vol ≠ s.vol → nextIsReset s = true ∨ ∃ a ch, nextCommand s = some (.setVolume a ch))

/-- The clock state changes only in an INITIALIZE, a CHANGE_RATE or a reset (42_clock_configurator.md R180). -/
def Obligations.ClockWrittenOnlyByConfigurator : Prop :=
  ∀ s t : State, step s = .next t → t.clk ≠ s.clk →
    nextIsReset s = true ∨ ∃ r, nextCommand s = some (.initializeAt r) ∨ nextCommand s = some (.changeRate r)

/-- Format, mode, strategy and pins are constant while `RUNNING`; `RUNNING` is entered only by an INITIALIZE that succeeds,
and left only by SHUTDOWN, resets apart (10_state.md R23 to R27, 45_volume_lifecycle.md R281). -/
def Obligations.SessionKeepsConfiguration : Prop :=
  ∀ s t : State, step s = .next t → nextIsReset s = false →
    (s.lc = .running → t.setup = s.setup) ∧
    (s.lc = .idle → t.lc = .running → ∃ r, nextCommand s = some (.initializeAt r) ∧ t.res = ⟨1, .noError⟩) ∧
    (s.lc = .running → t.lc = .idle → nextCommand s = some .shutdown)

/-- R138: `ENQ` is written only by the producer's ENQUEUE, `DEQ` only by the consumer's steps, INITIALIZE, SHUTDOWN and
resets apart. -/
def Obligations.CursorsWrittenByTheirContext : Prop :=
  ∀ s t : State, step s = .next t → nextIsReset s = false → nextCommand s ≠ some .shutdown →
    (∀ r, nextCommand s ≠ some (.initializeAt r)) →
    (t.ring.enq ≠ s.ring.enq → ∃ n d, nextCommand s = some (.enqueue n d)) ∧
    (t.ring.deq ≠ s.ring.deq →
      ∃ e ∈ [Event.irqStep, .irqStepStale, .ctx2Fill, .ctx2FillStale], s.env.schedule.head? = some e) ∧
    (t.ring.occ ≠ s.ring.occ → (∃ n d, nextCommand s = some (.enqueue n d)) ∨
      ∃ e ∈ [Event.irqStep, .irqStepStale, .ctx2Fill, .ctx2FillStale], s.env.schedule.head? = some e)

/-- The callback fires exactly on a transition of `MUTE` taken by a step of the sequencer, with the new playing state, and never
otherwise (43_sequencer_irq.md R224, 45_volume_lifecycle.md R278). -/
def Obligations.NotifyExactlyOnTransitions : Prop :=
  ∀ s t : State, step s = .next t → nextIsReset s = false →
    t.trace.take s.trace.length = s.trace ∧
    (∀ b, OutEvent.notify b ∈ t.trace.drop s.trace.length → t.play.mute ≠ s.play.mute ∧ b = !t.play.mute) ∧
    (t.play.mute ≠ s.play.mute →
      (∃ r, nextCommand s = some (.initializeAt r)) ∨
      (t.trace.drop s.trace.length).count (.notify (!t.play.mute)) = 1)

/-- `RESULT` and `ERR` are written by commands and by nothing else, and `INBUF` by the host's byte writes alone (10_state.md R21). -/
def Obligations.ResultAndInputWriters : Prop :=
  ∀ s t : State, step s = .next t → nextIsReset s = false →
    (t.res ≠ s.res → ∃ w, s.env.schedule.head? = some (.hostWrite 0 w) ∨ s.env.schedule.head? = some (.commandStale w)) ∧
    (t.inbuf ≠ s.inbuf → ∃ o v, s.env.schedule.head? = some (.hostWriteByte o v))

/-! ## The host's registers -/

/-- The register map of 10_state.md R52: which register stands at which offset and at no other; the registers of several
fields pack them as its table says, unlisted bits reading 0; the others read their one field. -/
def Obligations.RegistersPackFields : Prop :=
  (∀ (offset : Nat) (r : Reg), Reg.ofOffset offset = some r ↔
    (offset, r) ∈ [(0x00, Reg.cmd), (0x04, .status), (0x08, .result), (0x0C, .cfg), (0x10, .pins), (0x14, .rate),
      (0x18, .clkDiv), (0x1C, .mclkDiv), (0x20, .sysHz), (0x24, .sysSrc), (0x28, .mulL), (0x2C, .mulR), (0x30, .ring),
      (0x34, .descSrc), (0x38, .descCnt)]) ∧
  ∀ s : State,
    (∀ k, k < 32 → (s.regRead .status).getLsbD k =
      ([s.lc.bit, s.play.mute, s.clk.is48k, s.dma.busy, s.dma.pend, s.ctx.ph.bit, s.ctx.cur, s.clk.periDet, s.play.ind,
        s.play.hsel.bit, decide (s.ring.occ.toNat = s.cfg.n), decide (s.ring.occ.toNat = 0), s.res.err.code.getLsbD 0,
        s.res.err.code.getLsbD 1, s.res.err.code.getLsbD 2, s.res.err.code.getLsbD 3].getD k false)) ∧
    (s.regRead .cfg).toNat = s.setup.fmt.code.toNat + 8 * s.setup.jmode.code.toNat + 32 * s.setup.strat.bit.toNat ∧
    (s.regRead .pins).toNat = s.setup.pinData.toNat + 2 ^ 6 * s.setup.pinClkBase.toNat +
      2 ^ 12 * s.setup.pinMclk.toNat + 2 ^ 18 * s.setup.mclkEn.toNat ∧
    (s.regRead .clkDiv).toNat = s.clk.divFrac.toNat + 2 ^ 8 * s.clk.divInt.toNat ∧
    (s.regRead .mclkDiv).toNat = s.clk.mdivFrac.toNat + 2 ^ 8 * s.clk.mdivInt.toNat ∧
    (s.regRead .ring).toNat = s.ring.enq.toNat + 2 ^ 8 * s.ring.deq.toNat + 2 ^ 16 * s.ring.occ.toNat ∧
    (s.regRead .descSrc).toNat = s.dma.idx.toNat + 2 ^ 8 * s.dma.kind.code.toNat ∧
    s.regRead .result = s.res.result ∧ s.regRead .rate = s.clk.rate ∧ s.regRead .sysHz = s.clk.sysHz ∧
    (s.regRead .sysSrc).toNat = s.clk.sysSrc.code.toNat ∧ s.regRead .mulL = s.vol.mulL ∧ s.regRead .mulR = s.vol.mulR ∧
    s.regRead .descCnt = s.dma.count ∧ s.regRead .cmd = 0

/-- R79: a register read returns the register's view and has no side effect, so reading again gives the same; a write to any
register but `CMD` is ignored. -/
def Obligations.RegisterAccessesHaveNoSideEffect : Prop :=
  ∀ (s : State) (offset : Nat) (r : Reg), Reg.ofOffset offset = some r →
    (∃ t, perform (.hostRead offset) s = .next t ∧ t.env.rdata = s.regRead r ∧
      (∀ q, t.regRead q = s.regRead q) ∧ t = { s with env := { s.env with rdata := t.env.rdata } }) ∧
    (r ≠ .cmd → ∀ v, perform (.hostWrite offset v) s = .next s) ∧
    (r = .cmd → ∀ v, perform (.hostWrite offset v) s = runCommand v s)

/-- A byte write at 0x1000 + j stores `INBUF[j]` and changes no other byte and nothing else (10_state.md R52). -/
def Obligations.InputByteWrite : Prop :=
  ∀ (s : State) (j : Nat) (v : Byte), j < 8 * s.cfg.pairsMax →
    ∃ t, perform (.hostWriteByte (0x1000 + j) v) s = .next t ∧ Memory.read t.inbuf j = some v ∧
      (∀ k, k ≠ j → Memory.read t.inbuf k = Memory.read s.inbuf k) ∧ t = { s with inbuf := t.inbuf }
end

