-- ==== Sys2Proof/Laws/State.lean ====
section
/-! SUPPORT. One lemma per field per named update of the state, true by rfl, so that no proof unfolds an update. -/

namespace Sys2Proof.Machine

variable (s : State)

/-! ## `State.finish` -/

@[simp] theorem State.finish_cfg (v : Word) (c : ErrorClass) : (s.finish v c).cfg = s.cfg := rfl
@[simp] theorem State.finish_lc (v : Word) (c : ErrorClass) : (s.finish v c).lc = s.lc := rfl
@[simp] theorem State.finish_setup (v : Word) (c : ErrorClass) : (s.finish v c).setup = s.setup := rfl
@[simp] theorem State.finish_clk (v : Word) (c : ErrorClass) : (s.finish v c).clk = s.clk := rfl
@[simp] theorem State.finish_vol (v : Word) (c : ErrorClass) : (s.finish v c).vol = s.vol := rfl
@[simp] theorem State.finish_ring (v : Word) (c : ErrorClass) : (s.finish v c).ring = s.ring := rfl
@[simp] theorem State.finish_play (v : Word) (c : ErrorClass) : (s.finish v c).play = s.play := rfl
@[simp] theorem State.finish_dma (v : Word) (c : ErrorClass) : (s.finish v c).dma = s.dma := rfl
@[simp] theorem State.finish_ctx (v : Word) (c : ErrorClass) : (s.finish v c).ctx = s.ctx := rfl
@[simp] theorem State.finish_res (v : Word) (c : ErrorClass) : (s.finish v c).res = ⟨v, c⟩ := rfl
@[simp] theorem State.finish_inbuf (v : Word) (c : ErrorClass) : (s.finish v c).inbuf = s.inbuf := rfl
@[simp] theorem State.finish_trace (v : Word) (c : ErrorClass) : (s.finish v c).trace = s.trace := rfl
@[simp] theorem State.finish_env (v : Word) (c : ErrorClass) : (s.finish v c).env = s.env := rfl

/-! ## `State.emit` -/

@[simp] theorem State.emit_cfg (e : OutEvent) : (s.emit e).cfg = s.cfg := rfl
@[simp] theorem State.emit_lc (e : OutEvent) : (s.emit e).lc = s.lc := rfl
@[simp] theorem State.emit_setup (e : OutEvent) : (s.emit e).setup = s.setup := rfl
@[simp] theorem State.emit_clk (e : OutEvent) : (s.emit e).clk = s.clk := rfl
@[simp] theorem State.emit_vol (e : OutEvent) : (s.emit e).vol = s.vol := rfl
@[simp] theorem State.emit_ring (e : OutEvent) : (s.emit e).ring = s.ring := rfl
@[simp] theorem State.emit_play (e : OutEvent) : (s.emit e).play = s.play := rfl
@[simp] theorem State.emit_dma (e : OutEvent) : (s.emit e).dma = s.dma := rfl
@[simp] theorem State.emit_ctx (e : OutEvent) : (s.emit e).ctx = s.ctx := rfl
@[simp] theorem State.emit_res (e : OutEvent) : (s.emit e).res = s.res := rfl
@[simp] theorem State.emit_inbuf (e : OutEvent) : (s.emit e).inbuf = s.inbuf := rfl
@[simp] theorem State.emit_trace (e : OutEvent) : (s.emit e).trace = s.trace ++ [e] := rfl
@[simp] theorem State.emit_env (e : OutEvent) : (s.emit e).env = s.env := rfl

/-! ## `State.withSchedule` -/

@[simp] theorem State.withSchedule_cfg (es : List Event) : (s.withSchedule es).cfg = s.cfg := rfl
@[simp] theorem State.withSchedule_lc (es : List Event) : (s.withSchedule es).lc = s.lc := rfl
@[simp] theorem State.withSchedule_setup (es : List Event) : (s.withSchedule es).setup = s.setup := rfl
@[simp] theorem State.withSchedule_clk (es : List Event) : (s.withSchedule es).clk = s.clk := rfl
@[simp] theorem State.withSchedule_vol (es : List Event) : (s.withSchedule es).vol = s.vol := rfl
@[simp] theorem State.withSchedule_ring (es : List Event) : (s.withSchedule es).ring = s.ring := rfl
@[simp] theorem State.withSchedule_play (es : List Event) : (s.withSchedule es).play = s.play := rfl
@[simp] theorem State.withSchedule_dma (es : List Event) : (s.withSchedule es).dma = s.dma := rfl
@[simp] theorem State.withSchedule_ctx (es : List Event) : (s.withSchedule es).ctx = s.ctx := rfl
@[simp] theorem State.withSchedule_res (es : List Event) : (s.withSchedule es).res = s.res := rfl
@[simp] theorem State.withSchedule_inbuf (es : List Event) : (s.withSchedule es).inbuf = s.inbuf := rfl
@[simp] theorem State.withSchedule_trace (es : List Event) : (s.withSchedule es).trace = s.trace := rfl
@[simp] theorem State.withSchedule_env (es : List Event) : (s.withSchedule es).env = { s.env with schedule := es } := rfl

/-! ## `State.answer` -/

@[simp] theorem State.answer_cfg (v : Word) : (s.answer v).cfg = s.cfg := rfl
@[simp] theorem State.answer_lc (v : Word) : (s.answer v).lc = s.lc := rfl
@[simp] theorem State.answer_setup (v : Word) : (s.answer v).setup = s.setup := rfl
@[simp] theorem State.answer_clk (v : Word) : (s.answer v).clk = s.clk := rfl
@[simp] theorem State.answer_vol (v : Word) : (s.answer v).vol = s.vol := rfl
@[simp] theorem State.answer_ring (v : Word) : (s.answer v).ring = s.ring := rfl
@[simp] theorem State.answer_play (v : Word) : (s.answer v).play = s.play := rfl
@[simp] theorem State.answer_dma (v : Word) : (s.answer v).dma = s.dma := rfl
@[simp] theorem State.answer_ctx (v : Word) : (s.answer v).ctx = s.ctx := rfl
@[simp] theorem State.answer_res (v : Word) : (s.answer v).res = s.res := rfl
@[simp] theorem State.answer_inbuf (v : Word) : (s.answer v).inbuf = s.inbuf := rfl
@[simp] theorem State.answer_trace (v : Word) : (s.answer v).trace = s.trace := rfl
@[simp] theorem State.answer_env (v : Word) : (s.answer v).env = { s.env with rdata := v } := rfl

/-! ## `State.deliver` -/

@[simp] theorem State.deliver_cfg (ds : List Word) : (s.deliver ds).cfg = s.cfg := rfl
@[simp] theorem State.deliver_lc (ds : List Word) : (s.deliver ds).lc = s.lc := rfl
@[simp] theorem State.deliver_setup (ds : List Word) : (s.deliver ds).setup = s.setup := rfl
@[simp] theorem State.deliver_clk (ds : List Word) : (s.deliver ds).clk = s.clk := rfl
@[simp] theorem State.deliver_vol (ds : List Word) : (s.deliver ds).vol = s.vol := rfl
@[simp] theorem State.deliver_ring (ds : List Word) : (s.deliver ds).ring = s.ring := rfl
@[simp] theorem State.deliver_play (ds : List Word) : (s.deliver ds).play = s.play := rfl
@[simp] theorem State.deliver_dma (ds : List Word) : (s.deliver ds).dma = s.dma := rfl
@[simp] theorem State.deliver_ctx (ds : List Word) : (s.deliver ds).ctx = s.ctx := rfl
@[simp] theorem State.deliver_res (ds : List Word) : (s.deliver ds).res = s.res := rfl
@[simp] theorem State.deliver_inbuf (ds : List Word) : (s.deliver ds).inbuf = s.inbuf := rfl
@[simp] theorem State.deliver_trace (ds : List Word) : (s.deliver ds).trace = s.trace := rfl
@[simp] theorem State.deliver_env (ds : List Word) : (s.deliver ds).env = { s.env with pos := s.env.pos + ds.length, stream := s.env.stream ++ ds } := rfl

/-! ## `arm` -/

@[simp] theorem arm_cfg (k : SourceKind) (i : BitVec 8) (c : Word) : (arm k i c s).cfg = s.cfg := rfl
@[simp] theorem arm_lc (k : SourceKind) (i : BitVec 8) (c : Word) : (arm k i c s).lc = s.lc := rfl
@[simp] theorem arm_setup (k : SourceKind) (i : BitVec 8) (c : Word) : (arm k i c s).setup = s.setup := rfl
@[simp] theorem arm_clk (k : SourceKind) (i : BitVec 8) (c : Word) : (arm k i c s).clk = s.clk := rfl
@[simp] theorem arm_vol (k : SourceKind) (i : BitVec 8) (c : Word) : (arm k i c s).vol = s.vol := rfl
@[simp] theorem arm_ring (k : SourceKind) (i : BitVec 8) (c : Word) : (arm k i c s).ring = s.ring := rfl
@[simp] theorem arm_play (k : SourceKind) (i : BitVec 8) (c : Word) : (arm k i c s).play = s.play := rfl
@[simp] theorem arm_dma (k : SourceKind) (i : BitVec 8) (c : Word) : (arm k i c s).dma = { s.dma with kind := k, idx := i, count := c, busy := true } := rfl
@[simp] theorem arm_ctx (k : SourceKind) (i : BitVec 8) (c : Word) : (arm k i c s).ctx = s.ctx := rfl
@[simp] theorem arm_res (k : SourceKind) (i : BitVec 8) (c : Word) : (arm k i c s).res = s.res := rfl
@[simp] theorem arm_inbuf (k : SourceKind) (i : BitVec 8) (c : Word) : (arm k i c s).inbuf = s.inbuf := rfl
@[simp] theorem arm_trace (k : SourceKind) (i : BitVec 8) (c : Word) : (arm k i c s).trace = s.trace ++ [.dmaArm k i c] := rfl
@[simp] theorem arm_env (k : SourceKind) (i : BitVec 8) (c : Word) : (arm k i c s).env = { s.env with pos := 0 } := rfl

/-! ## `clearPend` -/

@[simp] theorem clearPend_cfg : (clearPend s).cfg = s.cfg := rfl
@[simp] theorem clearPend_lc : (clearPend s).lc = s.lc := rfl
@[simp] theorem clearPend_setup : (clearPend s).setup = s.setup := rfl
@[simp] theorem clearPend_clk : (clearPend s).clk = s.clk := rfl
@[simp] theorem clearPend_vol : (clearPend s).vol = s.vol := rfl
@[simp] theorem clearPend_ring : (clearPend s).ring = s.ring := rfl
@[simp] theorem clearPend_play : (clearPend s).play = s.play := rfl
@[simp] theorem clearPend_dma : (clearPend s).dma = { s.dma with pend := false } := rfl
@[simp] theorem clearPend_ctx : (clearPend s).ctx = s.ctx := rfl
@[simp] theorem clearPend_res : (clearPend s).res = s.res := rfl
@[simp] theorem clearPend_inbuf : (clearPend s).inbuf = s.inbuf := rfl
@[simp] theorem clearPend_trace : (clearPend s).trace = s.trace := rfl
@[simp] theorem clearPend_env : (clearPend s).env = s.env := rfl

/-! ## `clearSequencer` -/

@[simp] theorem clearSequencer_cfg : (clearSequencer s).cfg = s.cfg := rfl
@[simp] theorem clearSequencer_lc : (clearSequencer s).lc = s.lc := rfl
@[simp] theorem clearSequencer_setup : (clearSequencer s).setup = s.setup := rfl
@[simp] theorem clearSequencer_clk : (clearSequencer s).clk = s.clk := rfl
@[simp] theorem clearSequencer_vol : (clearSequencer s).vol = s.vol := rfl
@[simp] theorem clearSequencer_ring : (clearSequencer s).ring = s.ring.clear := rfl
@[simp] theorem clearSequencer_play : (clearSequencer s).play = s.play := rfl
@[simp] theorem clearSequencer_dma : (clearSequencer s).dma = { s.dma with busy := false, pend := false } := rfl
@[simp] theorem clearSequencer_ctx : (clearSequencer s).ctx = s.ctx.clear := rfl
@[simp] theorem clearSequencer_res : (clearSequencer s).res = s.res := rfl
@[simp] theorem clearSequencer_inbuf : (clearSequencer s).inbuf = s.inbuf := rfl
@[simp] theorem clearSequencer_trace : (clearSequencer s).trace = s.trace := rfl
@[simp] theorem clearSequencer_env : (clearSequencer s).env = s.env := rfl

/-! ## `transferComplete` -/

@[simp] theorem transferComplete_cfg : (transferComplete s).cfg = s.cfg := rfl
@[simp] theorem transferComplete_lc : (transferComplete s).lc = s.lc := rfl
@[simp] theorem transferComplete_setup : (transferComplete s).setup = s.setup := rfl
@[simp] theorem transferComplete_clk : (transferComplete s).clk = s.clk := rfl
@[simp] theorem transferComplete_vol : (transferComplete s).vol = s.vol := rfl
@[simp] theorem transferComplete_ring : (transferComplete s).ring = s.ring := rfl
@[simp] theorem transferComplete_play : (transferComplete s).play = s.play := rfl
@[simp] theorem transferComplete_dma : (transferComplete s).dma = { s.dma with busy := false, pend := s.dma.pend || decide (s.setup.strat = .irq) } := rfl
@[simp] theorem transferComplete_ctx : (transferComplete s).ctx = s.ctx := rfl
@[simp] theorem transferComplete_res : (transferComplete s).res = s.res := rfl
@[simp] theorem transferComplete_inbuf : (transferComplete s).inbuf = s.inbuf := rfl
@[simp] theorem transferComplete_trace : (transferComplete s).trace = s.trace := rfl
@[simp] theorem transferComplete_env : (transferComplete s).env = s.env := rfl

/-! ## `fillScratch` -/

@[simp] theorem fillScratch_cfg (b : List Word) : (fillScratch b s).cfg = s.cfg := rfl
@[simp] theorem fillScratch_lc (b : List Word) : (fillScratch b s).lc = s.lc := rfl
@[simp] theorem fillScratch_setup (b : List Word) : (fillScratch b s).setup = s.setup := rfl
@[simp] theorem fillScratch_clk (b : List Word) : (fillScratch b s).clk = s.clk := rfl
@[simp] theorem fillScratch_vol (b : List Word) : (fillScratch b s).vol = s.vol := rfl
@[simp] theorem fillScratch_ring (b : List Word) : (fillScratch b s).ring = s.ring := rfl
@[simp] theorem fillScratch_play (b : List Word) : (fillScratch b s).play = s.play := rfl
@[simp] theorem fillScratch_dma (b : List Word) : (fillScratch b s).dma = s.dma := rfl
@[simp] theorem fillScratch_ctx (b : List Word) : (fillScratch b s).ctx = { s.ctx.setScr s.ctx.cur ((s.ctx.scr s.ctx.cur).store (expand (formatPolicy s) b)) with ph := .wait } := rfl
@[simp] theorem fillScratch_res (b : List Word) : (fillScratch b s).res = s.res := rfl
@[simp] theorem fillScratch_inbuf (b : List Word) : (fillScratch b s).inbuf = s.inbuf := rfl
@[simp] theorem fillScratch_trace (b : List Word) : (fillScratch b s).trace = s.trace := rfl
@[simp] theorem fillScratch_env (b : List Word) : (fillScratch b s).env = s.env := rfl

end Sys2Proof.Machine
end

