-- ==== Sys2Proof/Laws/Ops.lean ====
section
/-! SUPPORT. One spec lemma per shared operation of Machine/Ops.lean: everything it can do, said once. -/

namespace Sys2Proof.Machine

/-! ## How a command ends -/

@[simp] theorem complete_eq_next {v : Word} {s t : State} : complete v s = .next t ↔ t = s.finish v .noError := by
  simp [complete, eq_comm]

@[simp] theorem raise_eq_next {c : ErrorClass} {s t : State} : raise c s = .next t ↔ t = s.finish 0 c := by
  simp [raise, eq_comm]

@[simp] theorem State.finish_finish (s : State) (v w : Word) (c d : ErrorClass) :
    (s.finish v c).finish w d = s.finish w d := rfl

/-! ## Sample Blocks and the ring -/

@[simp] theorem SampleBlock.store_count (b : SampleBlock) (ws : List Word) :
    (b.store ws).count = BitVec.ofNat 32 ws.length := rfl

@[simp] theorem SampleBlock.clear_data (b : SampleBlock) : b.clear.data = b.data := rfl

@[simp] theorem SampleBlock.clear_count (b : SampleBlock) : b.clear.count = 0 := rfl

/-- Storing writes the datums of the block and keeps every datum beyond it. -/
theorem SampleBlock.store_datum (b : SampleBlock) (ws : List Word) (j : Nat) :
    (b.store ws).data[j]? = if j < ws.length then ws[j]? else b.data[j]? := by
  unfold SampleBlock.store
  by_cases h : j < ws.length
  · simp [h, List.getElem?_append_left h]
  · have h' : ws.length ≤ j := by omega
    simp [h, List.getElem?_append_right h', List.getElem?_drop, Nat.add_sub_cancel' h']

/-- Storing never shortens what was written. -/
theorem SampleBlock.store_length (b : SampleBlock) (ws : List Word) :
    (b.store ws).data.length = max ws.length b.data.length := by
  simp only [SampleBlock.store, List.length_append, List.length_drop]; omega

/-- A read of the first `n` datums answers them when all were written, and nothing otherwise. -/
theorem SampleBlock.readFirst_eq_some {b : SampleBlock} {n : Nat} {ws : List Word} :
    b.readFirst n = some ws ↔ n ≤ b.data.length ∧ ws = b.data.take n := by
  unfold SampleBlock.readFirst
  split <;> simp_all [eq_comm]

@[simp] theorem ContextState.setScr_ph (x : ContextState) (c : Bool) (b : SampleBlock) : (x.setScr c b).ph = x.ph := by
  cases c <;> rfl

@[simp] theorem ContextState.setScr_cur (x : ContextState) (c : Bool) (b : SampleBlock) : (x.setScr c b).cur = x.cur := by
  cases c <;> rfl

/-- Writing one scratch area leaves the other alone. -/
theorem ContextState.scr_setScr (x : ContextState) (c d : Bool) (b : SampleBlock) :
    (x.setScr c b).scr d = if d = c then b else x.scr d := by
  cases c <;> cases d <;> rfl

@[simp] theorem ContextState.scr_with (x : ContextState) (p : Phase) (c d : Bool) :
    ({ x with ph := p, cur := c } : ContextState).scr d = x.scr d := by cases d <;> rfl

@[simp] theorem ContextState.scr_with_ph (x : ContextState) (p : Phase) (d : Bool) :
    ({ x with ph := p } : ContextState).scr d = x.scr d := by cases d <;> rfl

/-- A slot after one slot was set. -/
theorem Ring.slot_set (r : Ring) (i k : Nat) (b : SampleBlock) (h : i < r.slots.length) (o e d : BitVec 8) :
    Ring.slot ⟨r.slots.set i b, o, e, d⟩ k = if k = i then b else r.slot k := by
  unfold Ring.slot
  by_cases hk : k = i
  · subst hk; simp [h]
  · simp [hk, List.getElem?_set_ne (Ne.symm hk)]

/-- A slot inside the ring is one of its slots. -/
theorem Ring.slot_mem (r : Ring) (i : Nat) (h : i < r.slots.length) : r.slot i ∈ r.slots := by
  simp [Ring.slot, List.getElem?_eq_getElem h, List.getElem_mem]

@[simp] theorem Ring.clear_occ (r : Ring) : r.clear.occ = 0 := rfl
@[simp] theorem Ring.clear_enq (r : Ring) : r.clear.enq = 0 := rfl
@[simp] theorem Ring.clear_deq (r : Ring) : r.clear.deq = 0 := rfl
@[simp] theorem Ring.clear_slots (r : Ring) : r.clear.slots = r.slots.map SampleBlock.clear := rfl

/-- Clearing the ring clears every `COUNT` and keeps every datum. -/
theorem Ring.slot_clear (r : Ring) (i : Nat) : r.clear.slot i = (r.slot i).clear := by
  unfold Ring.slot Ring.clear
  cases h : r.slots[i]? <;> simp [h, SampleBlock.clear]

/-- An enqueue succeeds exactly below capacity, and then it is this ring (40_ring_buffer.md R132). -/
theorem ringEnqueue_eq_some {n : Nat} {b : List Word} {r r' : Ring} : ringEnqueue n b r = some r' ↔
    r.occ.toNat ≠ n ∧ r' = ⟨r.slots.set r.enq.toNat ((r.slot r.enq.toNat).store b), r.occ + 1, advance n r.enq, r.deq⟩ := by
  unfold ringEnqueue
  split <;> simp_all [eq_comm]

@[simp] theorem ringEnqueue_eq_none {n : Nat} {b : List Word} {r : Ring} :
    ringEnqueue n b r = none ↔ r.occ.toNat = n := by
  unfold ringEnqueue
  split <;> simp_all

/-- A dequeue succeeds exactly on an occupied ring, and then it is this slot and this ring (40_ring_buffer.md R134). -/
theorem ringDequeue_eq_some {n : Nat} {r r' : Ring} {i : BitVec 8} {c : Word} : ringDequeue n r = some (i, c, r') ↔
    r.occ.toNat ≠ 0 ∧ i = r.deq ∧ c = (r.slot r.deq.toNat).count ∧
      r' = { r with deq := advance n r.deq, occ := r.occ - 1 } := by
  unfold ringDequeue
  split
  · simp_all
  · simp_all only [Option.some.injEq, Prod.mk.injEq]
    constructor
    · rintro ⟨rfl, rfl, rfl⟩; simp_all
    · rintro ⟨_, rfl, rfl, rfl⟩; simp

@[simp] theorem ringDequeue_eq_none {n : Nat} {r : Ring} : ringDequeue n r = none ↔ r.occ.toNat = 0 := by
  unfold ringDequeue
  split <;> simp_all

/-- A cursor's advance, as a number (10_state.md R40). -/
theorem advance_toNat {n : Nat} (c : BitVec 8) (h0 : 1 ≤ n) (h : n ≤ 255) : (advance n c).toNat = (c.toNat + 1) % n := by
  have := Nat.mod_lt (c.toNat + 1) (show 0 < n by omega)
  simp only [advance, BitVec.toNat_ofNat]
  exact Nat.mod_eq_of_lt (by omega)

theorem occ_succ_toNat {o : BitVec 8} (h : o.toNat < 255) : (o + 1).toNat = o.toNat + 1 := by
  simp only [BitVec.toNat_add]; simp; omega

theorem occ_pred_toNat {o : BitVec 8} (h : o.toNat ≠ 0) : (o - 1).toNat = o.toNat - 1 := by
  have := o.isLt
  simp only [BitVec.toNat_sub]; simp; omega

/-! ## Silence hysteresis -/

/-- The indicator after a notification (43_sequencer_irq.md R224). -/
def indAfter (b : Bool) (p : PlayState) : Bool := if p.hsel = .default then b else p.ind

/-- `notify` writes the indicator and the trace (R224). -/
theorem notify_eq (b : Bool) (s : State) :
    notify b s = { s with play := { s.play with ind := indAfter b s.play }, trace := s.trace ++ [.notify b] } := by
  unfold notify indAfter
  rcases s with ⟨cfg, lc, setup, clk, vol, ring, ⟨m, h, i⟩, dma, ctx, res, inbuf, trace, env⟩
  cases h <;> rfl

/-- A transition writes `MUTE`, the indicator and the trace (R222). -/
theorem transition_eq (m : Bool) (s : State) : transition m s =
    { s with play := ⟨m, s.play.hsel, indAfter (!m) s.play⟩, trace := s.trace ++ [.notify (!m)] } := by
  unfold transition
  rw [notify_eq]
  rfl

/-- Everything `hyst` can do, as the five rows of 43_sequencer_irq.md R225. -/
theorem hyst_cases (occ : BitVec 8) (s : State) :
    (occ.toNat = 0 ∧ s.play.mute = false ∧ hyst occ s = (.muted, transition true s)) ∨
    (occ.toNat = 0 ∧ s.play.mute = true ∧ hyst occ s = (.muted, s)) ∨
    (occ.toNat ≠ 0 ∧ s.play.mute = false ∧ hyst occ s = (.live, s)) ∨
    (occ.toNat ≠ 0 ∧ s.play.mute = true ∧ occ.toNat < s.cfg.n / 4 ∧ hyst occ s = (.muted, s)) ∨
    (occ.toNat ≠ 0 ∧ s.play.mute = true ∧ s.cfg.n / 4 ≤ occ.toNat ∧ hyst occ s = (.live, transition false s)) := by
  by_cases h0 : occ.toNat = 0 <;> cases hm : s.play.mute <;> by_cases ht : s.cfg.n / 4 ≤ occ.toNat <;>
    simp [hyst, h0, hm, ht, thr, Nat.lt_of_not_le]

/-! ## The DMA engine's reads -/

/-- A run of datums is read exactly when each of them can be, and is then the list of them. -/
theorem armedDatums_eq_some {s : State} {j k : Nat} {ds : List Word} : armedDatums s j k = some ds ↔
    ds.length = k ∧ ∀ i, i < k → armedDatum s (j + i) = ds[i]? := by
  induction k generalizing j ds with
  | zero => cases ds <;> simp [armedDatums]
  | succ k ih =>
    simp only [armedDatums, Option.bind_eq_some_iff, Option.map_eq_some_iff]
    constructor
    · rintro ⟨d, hd, es, hes, rfl⟩
      obtain ⟨hl, hi⟩ := ih.1 hes
      refine ⟨by simp [hl], fun i hik => ?_⟩
      cases i with
      | zero => simpa using hd
      | succ i => rw [← Nat.add_assoc, Nat.add_right_comm]; simpa using hi i (by omega)
    · rintro ⟨hl, hi⟩
      obtain _ | ⟨d, es⟩ := ds
      · simp at hl
      · refine ⟨d, by simpa using hi 0 (by omega), es, ih.2 ⟨by simpa using hl, fun i hik => ?_⟩, rfl⟩
        have := hi (i + 1) (by omega)
        rw [Nat.add_right_comm, Nat.add_assoc]; simpa [Nat.add_assoc] using this

end Sys2Proof.Machine
end

