-- ==== Sys2Proof/Laws/Clock.lean ====
section
/-! SUPPORT. Spec lemmas of the Clock Configurator: what a plan is, when there is none, and what committing one leaves. -/

namespace Sys2Proof.Machine

/-- The integer part of `divide` (42_clock_configurator.md R183). -/
theorem divide_int (num den : Nat) (b : Bool) : (divide num den b).1 = num * 256 / den / 256 := rfl

/-- The fractional part of `divide` fits its 8 bits. -/
theorem divide_frac_lt (num den : Nat) (b : Bool) : (divide num den b).2 < 256 := by
  cases b <;> simp [divide]
  omega

/-- A divider is answered exactly when its integer part is in range, and holds both parts unchanged (R186, R188). -/
theorem checkedDivide_eq_some {num den : Nat} {b : Bool} {d : BitVec 16 × BitVec 8} :
    checkedDivide num den b = some d ↔
      1 ≤ (divide num den b).1 ∧ (divide num den b).1 ≤ 65535 ∧
        d.1.toNat = (divide num den b).1 ∧ d.2.toNat = (divide num den b).2 := by
  have hf := divide_frac_lt num den b
  obtain ⟨d1, d2⟩ := d
  have h1 := d1.isLt
  have h2 := d2.isLt
  unfold checkedDivide
  generalize divide num den b = q at hf
  obtain ⟨i, f⟩ := q
  simp only at hf ⊢
  split
  · simp; omega
  · simp only [Option.some.injEq, Prod.mk.injEq, ← BitVec.toNat_inj, BitVec.toNat_ofNat]
    omega

/-- There is no divider exactly when its integer part is out of range. -/
theorem checkedDivide_eq_none {num den : Nat} {b : Bool} :
    checkedDivide num den b = none ↔ (divide num den b).1 < 1 ∨ 65535 < (divide num den b).1 := by
  unfold checkedDivide
  simp only
  split <;> simp_all

/-- A plan exists exactly when both dividers do, and is then this one (R186). -/
theorem clockPlan_eq_some {rate : Word} {first : Bool} {s : State} {p : ClockPlan} :
    clockPlan rate first s = some p ↔ ∃ d m,
      checkedDivide (planSystem rate first s).2.2.toNat (rate.toNat * perFormat s.cfg.osf s.setup.fmt)
        (decide (s.setup.jmode = .default)) = some d ∧
      planMclk (planSystem rate first s).2.2 (fam rate.toNat) s = some m ∧
      p = ⟨rate, fam rate.toNat, (planSystem rate first s).1, (planSystem rate first s).2.1, (planSystem rate first s).2.2, d, m⟩ := by
  unfold clockPlan
  simp only [Option.bind_eq_some_iff, Option.map_eq_some_iff]
  constructor
  · rintro ⟨d, hd, m, hm, rfl⟩; exact ⟨d, m, hd, hm, rfl⟩
  · rintro ⟨d, m, hd, hm, rfl⟩; exact ⟨d, hd, m, hm, rfl⟩

/-- There is no plan exactly when one of the dividers is out of range (R186, R188). -/
theorem clockPlan_eq_none {rate : Word} {first : Bool} {s : State} :
    clockPlan rate first s = none ↔
      checkedDivide (planSystem rate first s).2.2.toNat (rate.toNat * perFormat s.cfg.osf s.setup.fmt)
        (decide (s.setup.jmode = .default)) = none ∨
      planMclk (planSystem rate first s).2.2 (fam rate.toNat) s = none := by
  unfold clockPlan
  simp only
  cases checkedDivide (planSystem rate first s).2.2.toNat (rate.toNat * perFormat s.cfg.osf s.setup.fmt)
    (decide (s.setup.jmode = .default)) <;> simp

/-- The system clock a commit leaves (R184). -/
def committedSystem (p : ClockPlan) (s : State) : SysSource × Word :=
  if p.retarget then (p.src, p.sys) else (s.clk.sysSrc, s.clk.sysHz)

/-- Whether a commit detaches the peripheral clock (R185). -/
def detaches (first : Bool) (s : State) : Bool :=
  first && (decide (s.setup.jmode = .lj) || decide (s.setup.jmode = .ljoc)) && !s.clk.periDet

/-- The events a commit emits, in their order (R186). -/
def commitEvents (p : ClockPlan) (first : Bool) (s : State) : List OutEvent :=
  (if detaches first s then [.periClkDetach] else []) ++
    (if p.retarget then [.sysClkRetarget p.src p.sys] else []) ++ [.setDivider p.div.1 p.div.2] ++
    (if s.setup.mclkEn then [.setMclkDivider p.mdiv.1 p.mdiv.2] else [])

/-- The detach half of a commit (R185). -/
theorem commitDetach_eq (first : Bool) (s : State) : commitDetach first s =
    { s with
      clk := { s.clk with periDet := s.clk.periDet || detaches first s }
      trace := s.trace ++ if detaches first s then [.periClkDetach] else [] } := by
  unfold commitDetach
  split
  · rename_i h; rw [show detaches first s = true from h]; simp [State.emit]
  · rename_i h; rw [show detaches first s = false by simpa [detaches] using h]; simp

/-- The re-target half of a commit (R184). -/
theorem commitRetarget_eq (p : ClockPlan) (s : State) : commitRetarget p s =
    { s with
      clk := { s.clk with sysHz := (committedSystem p s).2, sysSrc := (committedSystem p s).1 }
      trace := s.trace ++ if p.retarget then [.sysClkRetarget p.src p.sys] else [] } := by
  unfold commitRetarget committedSystem
  split <;> simp [State.emit]

/-- The divider half of a commit (R186). -/
theorem commitDividers_eq (p : ClockPlan) (s : State) : commitDividers p s =
    { s with
      clk := { s.clk with rate := p.rate, is48k := decide (p.fam = Family.f48k), divInt := p.div.1, divFrac := p.div.2,
                          mdivInt := p.mdiv.1, mdivFrac := p.mdiv.2 }
      trace := s.trace ++ [.setDivider p.div.1 p.div.2] ++
        if s.setup.mclkEn then [.setMclkDivider p.mdiv.1 p.mdiv.2] else [] } := by
  unfold commitDividers
  simp only [State.emit]
  split <;> simp_all

/-- A commit writes the clock state and the trace, and nothing else (R186). -/
theorem clockCommit_eq (p : ClockPlan) (first : Bool) (s : State) : clockCommit p first s =
    { s with
      clk := ⟨p.rate, decide (p.fam = Family.f48k), p.div.1, p.div.2, p.mdiv.1, p.mdiv.2, (committedSystem p s).2,
        (committedSystem p s).1, s.clk.periDet || detaches first s⟩
      trace := s.trace ++ commitEvents p first s } := by
  unfold clockCommit
  rw [commitDetach_eq, commitRetarget_eq, commitDividers_eq]
  simp [commitEvents, committedSystem]

end Sys2Proof.Machine
end

