-- ==== Sys2Proof/Laws/Memory.lean ====
section
/-! SUPPORT. The byte memory `INBUF`: read after write, and that a write keeps the canonical form. -/

namespace Sys2Proof.Machine

/-- A byte just written is read back. -/
theorem Memory.read_write_same (m : Memory) (a : Nat) (b : Byte) : Memory.read (Memory.write m a b) a = some b := by
  induction m with
  | nil => simp [Memory.write, Memory.read]
  | cons c m ih =>
    obtain ⟨k, v⟩ := c
    by_cases h1 : a < k
    · simp [Memory.write, h1, Memory.read]
    · by_cases h2 : a = k
      · simp [Memory.write, h2, Memory.read]
      · have : k ≠ a := fun h => h2 h.symm
        simp [Memory.write, h1, h2, Memory.read, this, ih]

/-- A write leaves every other byte alone. -/
theorem Memory.read_write_other (m : Memory) {a k : Nat} (b : Byte) (h : k ≠ a) :
    Memory.read (Memory.write m a b) k = Memory.read m k := by
  induction m with
  | nil => simp [Memory.write, Memory.read, Ne.symm h]
  | cons c m ih =>
    obtain ⟨l, v⟩ := c
    by_cases h1 : a < l
    · simp [Memory.write, h1, Memory.read, Ne.symm h]
    · by_cases h2 : a = l
      · subst h2; simp [Memory.write, Memory.read, Ne.symm h]
      · simp [Memory.write, h1, h2, Memory.read, ih]

/-- The addresses after a write are the old ones and the written one. -/
theorem Memory.mem_write {m : Memory} {a : Nat} {b : Byte} {c : Host.Cell} (h : c ∈ Memory.write m a b) :
    c = (a, b) ∨ c ∈ m := by
  induction m with
  | nil => simpa [Memory.write] using h
  | cons d m ih =>
    obtain ⟨k, v⟩ := d
    by_cases h1 : a < k
    · simpa [Memory.write, h1] using h
    · by_cases h2 : a = k
      · simp only [Memory.write, h2, if_true, if_false, lt_irrefl] at h
        rcases List.mem_cons.1 h with h | h
        · exact .inl (by rw [h, h2])
        · exact .inr (List.mem_cons_of_mem _ h)
      · simp only [Memory.write, h1, h2, if_false] at h
        rcases List.mem_cons.1 h with h | h
        · exact .inr (h ▸ List.mem_cons_self)
        · exact (ih h).imp_right (List.mem_cons_of_mem _)

/-- A write keeps the addresses strictly rising. -/
theorem Memory.write_wf {m : Memory} (a : Nat) (b : Byte) (h : Memory.wf m) : Memory.wf (Memory.write m a b) := by
  induction m with
  | nil => simp [Memory.write, Memory.wf]
  | cons c m ih =>
    obtain ⟨k, v⟩ := c
    obtain ⟨hk, hm⟩ := List.pairwise_cons.1 h
    by_cases h1 : a < k
    · simp only [Memory.write, h1, if_true]
      refine List.pairwise_cons.2 ⟨fun d hd => ?_, h⟩
      rcases List.mem_cons.1 hd with rfl | hd
      · exact h1
      · exact h1.trans (hk d hd)
    · by_cases h2 : a = k
      · simp only [Memory.write, h2, if_true, lt_irrefl, if_false]
        exact List.pairwise_cons.2 ⟨hk, hm⟩
      · simp only [Memory.write, h1, h2, if_false]
        refine List.pairwise_cons.2 ⟨fun d hd => ?_, ih hm⟩
        rcases Memory.mem_write hd with rfl | hd
        · show k < a; omega
        · exact hk d hd

/-- A range is read exactly when each of its bytes was written, and is then the list of them. -/
theorem Memory.readRange_eq_some {m : Memory} {a n : Nat} {bs : List Byte} : Memory.readRange m a n = some bs ↔
    bs.length = n ∧ ∀ j, j < n → Memory.read m (a + j) = bs[j]? := by
  induction n generalizing a bs with
  | zero => cases bs <;> simp [Memory.readRange]
  | succ n ih =>
    simp only [Memory.readRange, Option.bind_eq_some_iff, Option.map_eq_some_iff]
    constructor
    · rintro ⟨b, hb, cs, hcs, rfl⟩
      obtain ⟨hl, hj⟩ := ih.1 hcs
      refine ⟨by simp [hl], fun j hjn => ?_⟩
      cases j with
      | zero => simpa using hb
      | succ j => rw [← Nat.add_assoc, Nat.add_right_comm]; simpa using hj j (by omega)
    · rintro ⟨hl, hj⟩
      obtain _ | ⟨b, cs⟩ := bs
      · simp at hl
      · refine ⟨b, by simpa using hj 0 (by omega), cs, ih.2 ⟨by simpa using hl, fun j hjn => ?_⟩, rfl⟩
        have := hj (j + 1) (by omega)
        rw [Nat.add_right_comm, Nat.add_assoc]; simpa [Nat.add_assoc] using this

/-- A range is unreadable exactly when one of its bytes was never written. -/
theorem Memory.readRange_eq_none {m : Memory} {a n : Nat} :
    Memory.readRange m a n = none ↔ ∃ j, j < n ∧ Memory.read m (a + j) = none := by
  induction n generalizing a with
  | zero => simp [Memory.readRange]
  | succ n ih =>
    cases hb : Memory.read m a with
    | none => simp only [Memory.readRange, hb, Option.bind_none, true_iff]; exact ⟨0, by omega, hb⟩
    | some b =>
      simp only [Memory.readRange, hb, Option.bind_some, Option.map_eq_none_iff, ih]
      constructor
      · rintro ⟨j, hj, h⟩; exact ⟨j + 1, by omega, by rw [← h]; congr 1; omega⟩
      · rintro ⟨_ | j, hj, h⟩
        · simp [hb] at h
        · exact ⟨j, by omega, by rw [← h]; congr 1; omega⟩

end Sys2Proof.Machine
end

