-- ==== Sys2Proof/Laws/Exec.lean ====
section
/-! SUPPORT. What each command can do when it answers a next state: it ends as a failure that writes `RESULT` and `ERR`
only, or it succeeds under its conditions with the state given here. -/

namespace Sys2Proof.Machine

theorem Lifecycle.eq_idle {l : Lifecycle} (h : ¬ l = .running) : l = .idle := by cases l <;> simp_all

/-- The session INITIALIZE leaves (45_volume_lifecycle.md R276). -/
theorem startSession_eq (s : State) : startSession s =
    { s with
      lc := .running
      ring := s.ring.clear
      ctx := s.ctx.clear
      play := { s.play with mute := false }
      dma := if s.setup.strat = .irq then ⟨true, false, .muteBlock, 0, BitVec.ofNat 32 s.cfg.muteLen⟩
        else { s.dma with busy := false, pend := false }
      env := if s.setup.strat = .irq then { s.env with pos := 0 } else s.env
      trace := s.trace ++
        [.outputEnable s.setup.fmt s.setup.strat s.setup.pinData s.setup.pinClkBase s.setup.mclkEn s.setup.pinMclk] ++
        if s.setup.strat = .irq then [.dmaArm .muteBlock 0 (BitVec.ofNat 32 s.cfg.muteLen)] else [] } := by
  unfold startSession
  simp only [clearSequencer, State.emit]
  cases h : s.setup.strat <;> simp [armMuteBlock, arm, State.emit]

/-- The state SHUTDOWN leaves of a session (R279, R280). -/
theorem endSession_eq (s : State) : endSession s =
    { s with
      lc := .idle
      ring := s.ring.clear
      ctx := s.ctx.clear
      dma := { s.dma with busy := false, pend := false }
      trace := s.trace ++ [.outputDisable, .resourcesReleased] } := by
  simp [endSession, clearSequencer, State.emit]

theorem execConfigurePins_next {d c m : BitVec 6} {en : Bool} {s t : State} (h : execConfigurePins d c m en s = .next t) :
    t = s.finish 0 .illegalCommand ∨ (s.lc = .idle ∧ t = State.finish { s with setup := { s.setup with
      pinData := d, pinClkBase := c, pinMclk := m, mclkEn := en } } 1 .noError) := by
  unfold execConfigurePins at h
  split at h
  · exact .inl (raise_eq_next.1 h)
  · rename_i hl; exact .inr ⟨Lifecycle.eq_idle hl, complete_eq_next.1 h⟩

theorem execConfigure_next {f : BitVec 3} {j : JitterMode} {st : Strategy} {s t : State} (h : execConfigure f j st s = .next t) :
    t = s.finish 0 .illegalCommand ∨ ∃ fmt, Format.ofCode f = some fmt ∧ s.lc = .idle ∧
      t = State.finish { s with setup := { s.setup with fmt := fmt, jmode := j, strat := st } } 1 .noError := by
  unfold execConfigure at h
  split at h
  · exact .inl (raise_eq_next.1 h)
  · rename_i fmt hf
    split at h
    · exact .inl (raise_eq_next.1 h)
    · rename_i hl; exact .inr ⟨fmt, hf, Lifecycle.eq_idle hl, complete_eq_next.1 h⟩

theorem execInitialize_next {r : BitVec 24} {s t : State} (h : execInitialize r s = .next t) :
    (t = s.finish 0 .hardwareContention ∧ (s.lc = .running ∨ s.env.hwClaimOk = false)) ∨
    (t = s.finish 0 .configurationError ∧ s.lc = .idle ∧ (rateLegal r.toNat = false ∨ pinsOk s.cfg s.setup = false ∨
      clockPlan (r.setWidth 32) true s = none)) ∨
    ∃ p, s.lc = .idle ∧ rateLegal r.toNat = true ∧ pinsOk s.cfg s.setup = true ∧
      clockPlan (r.setWidth 32) true s = some p ∧ s.env.hwClaimOk = true ∧
      t = (startSession (clockCommit p true s)).finish 1 .noError := by
  unfold execInitialize at h
  split at h
  · rename_i hl; exact .inl ⟨raise_eq_next.1 h, .inl hl⟩
  rename_i hl
  have hl := Lifecycle.eq_idle hl
  split at h
  · rename_i hr; exact .inr (.inl ⟨raise_eq_next.1 h, hl, .inl hr⟩)
  rename_i hr
  split at h
  · rename_i hp; exact .inr (.inl ⟨raise_eq_next.1 h, hl, .inr (.inl hp)⟩)
  rename_i hp
  split at h
  · rename_i hc; exact .inr (.inl ⟨raise_eq_next.1 h, hl, .inr (.inr hc)⟩)
  rename_i p hc
  split at h
  · rename_i ho; exact .inl ⟨raise_eq_next.1 h, .inr ho⟩
  · rename_i ho
    exact .inr (.inr ⟨p, hl, by simpa using hr, by simpa using hp, hc, by simpa using ho, complete_eq_next.1 h⟩)

theorem execChangeRate_next {r : BitVec 24} {s t : State} (h : execChangeRate r s = .next t) :
    (t = s.finish 0 .illegalCommand ∧ s.lc = .idle) ∨
    (t = s.finish 0 .configurationError ∧ s.lc = .running ∧
      (rateLegal r.toNat = false ∨ clockPlan (r.setWidth 32) false s = none)) ∨
    ∃ p, s.lc = .running ∧ rateLegal r.toNat = true ∧ clockPlan (r.setWidth 32) false s = some p ∧
      t = (clockCommit p false s).finish 1 .noError := by
  unfold execChangeRate at h
  split at h
  · rename_i hl; exact .inl ⟨raise_eq_next.1 h, Lifecycle.eq_idle hl⟩
  rename_i hl
  have hl : s.lc = .running := by simpa using hl
  split at h
  · rename_i hr; exact .inr (.inl ⟨raise_eq_next.1 h, hl, .inl hr⟩)
  rename_i hr
  split at h
  · rename_i hc; exact .inr (.inl ⟨raise_eq_next.1 h, hl, .inr hc⟩)
  · rename_i p hc; exact .inr (.inr ⟨p, hl, by simpa using hr, hc, complete_eq_next.1 h⟩)

theorem execEnqueue_next {n : BitVec 22} {d : BitDepth} {s t : State} (h : execEnqueue n d s = .next t) :
    (t = s.finish 0 .illegalCommand ∧ s.lc = .idle) ∨
    (t = s.finish 0 .configurationError ∧ s.lc = .running ∧ d = .invalid) ∨
    (t = s.finish 0 .backpressureCondition ∧ s.lc = .running ∧ s.ring.occ.toNat = s.cfg.n ∧
      ∃ bits, bitsOf d = some bits ∧ lengthOk s.cfg bits n.toNat = true) ∨
    ∃ bits bytes r, s.lc = .running ∧ bitsOf d = some bits ∧ lengthOk s.cfg bits n.toNat = true ∧
      Memory.readRange s.inbuf 0 n.toNat = some bytes ∧
      ringEnqueue s.cfg.n (enqueueBlock bits bytes s) s.ring = some r ∧
      t = State.finish { s with ring := r } 1 .noError := by
  unfold execEnqueue at h
  split at h
  · rename_i hl; exact .inl ⟨raise_eq_next.1 h, Lifecycle.eq_idle hl⟩
  rename_i hl
  have hl : s.lc = .running := by simpa using hl
  split at h
  · rename_i hb; exact .inr (.inl ⟨raise_eq_next.1 h, hl, by cases d <;> simp_all [bitsOf]⟩)
  rename_i bits hb
  split at h
  · simp at h
  rename_i hn
  split at h
  · rename_i ho; exact .inr (.inr (.inl ⟨raise_eq_next.1 h, hl, ho, bits, hb, by simpa using hn⟩))
  split at h
  · simp at h
  rename_i bytes hm
  split at h
  · rename_i he; exact .inr (.inr (.inl ⟨raise_eq_next.1 h, hl, ringEnqueue_eq_none.1 he, bits, hb, by simpa using hn⟩))
  · rename_i r he
    exact .inr (.inr (.inr ⟨bits, bytes, r, hl, hb, by simpa using hn, hm, he, complete_eq_next.1 h⟩))

theorem execSetVolume_next {a : BitVec 16} {ch : BitVec 2} {s t : State} (h : execSetVolume a ch s = .next t) :
    (t = s.finish 0 .illegalCommand ∧ ch = 3) ∨ (ch ≠ 3 ∧ t = State.finish
      { s with vol := setMultipliers ch (volTabAt s.cfg (attenuationIndex a)) s.vol } 1 .noError) := by
  unfold execSetVolume at h
  split at h
  · rename_i hc; exact .inl ⟨raise_eq_next.1 h, hc⟩
  · rename_i hc; exact .inr ⟨hc, complete_eq_next.1 h⟩

theorem execShutdown_next {s t : State} (h : execShutdown s = .next t) :
    (s.lc = .idle ∧ t = s.finish 1 .noError) ∨ (s.lc = .running ∧ t = (endSession s).finish 1 .noError) := by
  unfold execShutdown at h
  rw [complete_eq_next] at h
  split at h
  · rename_i hl; exact .inr ⟨hl, h⟩
  · rename_i hl; exact .inl ⟨Lifecycle.eq_idle hl, h⟩

/-- A command whose pre-test is stale ends as it would without staleness, or is an ENQUEUE that would have succeeded one
block below capacity and fails with `BackpressureCondition` (20_memory.md R83, log 14). -/
theorem runCommandStale_next {w : Word} {s t : State} (h : runCommandStale w s = .next t) :
    runCommand w s = .next t ∨ ∃ n d u, decode w = .ok (.enqueue n d) ∧ execEnqueue n d s = .next u ∧
      u.res.err = .noError ∧ s.ring.occ.toNat + 1 = s.cfg.n ∧ t = s.finish 0 .backpressureCondition := by
  unfold runCommandStale at h
  split at h
  · rename_i i u hd hr
    split at h
    · rename_i hp
      cases i with
      | enqueue n d =>
        exact .inr ⟨n, d, u, hd, by simpa [runCommand, hd, exec] using hr, hp.1, of_decide_eq_true hp.2, raise_eq_next.1 h⟩
      | _ => exact absurd hp.2 Bool.false_ne_true
    · exact .inl (hr.trans h)
  · exact .inl h

end Sys2Proof.Machine
end

