-- ==== Sys2Proof/Laws/Params.lean ====
section
/-! SUPPORT. Binding P1 meets the constraints of 00_scope.md R11. -/

namespace Sys2Proof

/-- Binding P1 of 00_scope.md R11 meets that rule's constraint column. -/
theorem Params.p1_wf : Params.p1.WF where
  n_min := by decide
  n_quarter := by decide
  n_width := by decide
  pairs_min := by decide
  pairs_width := by decide
  mute_min := by decide
  mute_even := by decide
  mute_max := by decide
  mute_width := by decide
  volTab_length := by decide
  volTab_unity := rfl
  volTab_max := fun m hm => by
    have h : (Params.p1.volTab.all fun m => decide (m.toNat ≤ unityGain.toNat)) = true := by decide +kernel
    exact of_decide_eq_true (List.all_eq_true.1 h m hm)
  volTab_falls := by decide +kernel
  osf_i2s := by decide
  osf_pt8211 := by decide
  osf_exdf := by decide
  osf_i2sDual := by decide
  osf_pt8211Dual := by decide
  fSys0_pos := by decide
  fLj_pos := by decide
  fLjoc_pos := by decide
  fExt_pos := by decide
  pllMap_total := fun hz h => by
    simp only [List.mem_cons, List.not_mem_nil, or_false] at h
    rcases h with rfl | rfl | rfl | rfl <;> decide
  nPins_min := by decide
  policy_standard := by decide
  policy_exdf := by decide
  policy_dualMono := by decide

end Sys2Proof
end

