-- ==== Sys2Proof/Laws/PerInstr.lean ====
section
/-! SUPPORT. Statements about every command as syntax, one lemma per constructor. Family `MatchesRow`: the word a command is
encoded to has its row's fixed bits (30_encoding.md R102). -/

namespace Sys2Proof.Laws

/-- `word & mask = match`, with the command's row of the opcode map (R102). -/
def MatchesRow.Statement (i : Instr) : Prop := encode i &&& i.rowMask = i.rowMatch

/-- A field whose bits are all zero in `mask` does not show under `mask`. -/
theorem MatchesRow.or_place_and {len : Nat} (w : Word) (v : BitVec len) (lo : Nat) (mask : Word)
    (h : ∀ k, lo ≤ k → k < lo + len → mask.getLsbD k = false) : (w ||| place v lo) &&& mask = w &&& mask := by
  apply BitVec.eq_of_getLsbD_eq
  intro k hk
  simp only [place, BitVec.getLsbD_and, BitVec.getLsbD_or, BitVec.getLsbD_shiftLeft, BitVec.getLsbD_setWidth]
  by_cases h1 : k < lo
  · simp [h1]
  · by_cases h2 : k < lo + len
    · simp [h k (by omega) h2]
    · simp [BitVec.getLsbD_of_ge v (k - lo) (by omega)]

theorem MatchesRow.configurePins (dataPin clockPinBase masterClockPin : BitVec 6) (mclkEn : Bool) :
    MatchesRow.Statement (.configurePins dataPin clockPinBase masterClockPin mclkEn) := by
  simp only [MatchesRow.Statement, encode, Instr.rowMask, Instr.rowMatch]
  repeat rw [MatchesRow.or_place_and _ _ _ _ (by intro k h1 h2; interval_cases k <;> decide)]
  decide

theorem MatchesRow.configure (outputFormat : BitVec 3) (jitterMode : JitterMode) (strategy : Strategy) :
    MatchesRow.Statement (.configure outputFormat jitterMode strategy) := by
  simp only [MatchesRow.Statement, encode, Instr.rowMask, Instr.rowMatch]
  repeat rw [MatchesRow.or_place_and _ _ _ _ (by intro k h1 h2; interval_cases k <;> decide)]
  decide

theorem MatchesRow.initializeAt (sampleRate : BitVec 24) : MatchesRow.Statement (.initializeAt sampleRate) := by
  simp only [MatchesRow.Statement, encode, Instr.rowMask, Instr.rowMatch]
  rw [MatchesRow.or_place_and _ _ _ _ (by intro k h1 h2; interval_cases k <;> decide)]
  decide

theorem MatchesRow.changeRate (sampleRate : BitVec 24) : MatchesRow.Statement (.changeRate sampleRate) := by
  simp only [MatchesRow.Statement, encode, Instr.rowMask, Instr.rowMatch]
  rw [MatchesRow.or_place_and _ _ _ _ (by intro k h1 h2; interval_cases k <;> decide)]
  decide

theorem MatchesRow.enqueue (byteCount : BitVec 22) (depth : BitDepth) :
    MatchesRow.Statement (.enqueue byteCount depth) := by
  simp only [MatchesRow.Statement, encode, Instr.rowMask, Instr.rowMatch]
  repeat rw [MatchesRow.or_place_and _ _ _ _ (by intro k h1 h2; interval_cases k <;> decide)]
  decide

theorem MatchesRow.occupancy : MatchesRow.Statement .occupancy := by
  unfold MatchesRow.Statement; decide

theorem MatchesRow.setVolume (attenuationDb : BitVec 16) (channel : BitVec 2) :
    MatchesRow.Statement (.setVolume attenuationDb channel) := by
  simp only [MatchesRow.Statement, encode, Instr.rowMask, Instr.rowMatch]
  repeat rw [MatchesRow.or_place_and _ _ _ _ (by intro k h1 h2; interval_cases k <;> decide)]
  decide

theorem MatchesRow.setHandler (handler : Handler) : MatchesRow.Statement (.setHandler handler) := by
  unfold MatchesRow.Statement; cases handler <;> decide

theorem MatchesRow.shutdown : MatchesRow.Statement .shutdown := by
  unfold MatchesRow.Statement; decide

end Sys2Proof.Laws
end

