-- ==== Sys2Proof/Laws/Sequencer.lean ====
section
/-! SUPPORT. What each step of the sequencer and of the DMA engine can do when it answers a next state. -/

namespace Sys2Proof.Machine

/-- `hyst` writes the play state and the trace, and answers live only on a non-empty reading (43_sequencer_irq.md R222). -/
theorem hyst_eq (occ : BitVec 8) (s : State) : ∃ v p es, hyst occ s = (v, { s with play := p, trace := s.trace ++ es }) ∧
    (v = .live → occ.toNat ≠ 0 ∧ p.mute = false) ∧ (v = .muted → p.mute = true) ∧ p.hsel = s.play.hsel ∧
    (p = s.play ∧ es = [] ∨ p = ⟨!s.play.mute, s.play.hsel, indAfter s.play.mute s.play⟩ ∧ es = [.notify s.play.mute]) := by
  rcases hyst_cases occ s with ⟨h0, hm, h⟩ | ⟨h0, hm, h⟩ | ⟨h0, hm, h⟩ | ⟨h0, hm, -, h⟩ | ⟨h0, hm, -, h⟩
  · exact ⟨.muted, ⟨true, s.play.hsel, indAfter false s.play⟩, [.notify false], by rw [h, transition_eq]; rfl, by simp, by simp, rfl, .inr ⟨by simp [hm], by simp [hm]⟩⟩
  · exact ⟨.muted, s.play, [], by rw [h]; simp, by simp, by simp [hm], rfl, .inl ⟨rfl, rfl⟩⟩
  · exact ⟨.live, s.play, [], by rw [h]; simp, by simp [h0, hm], by simp, rfl, .inl ⟨rfl, rfl⟩⟩
  · exact ⟨.muted, s.play, [], by rw [h]; simp, by simp, by simp [hm], rfl, .inl ⟨rfl, rfl⟩⟩
  · exact ⟨.live, ⟨false, s.play.hsel, indAfter true s.play⟩, [.notify true], by rw [h, transition_eq]; rfl, by simp [h0], by simp, rfl, .inr ⟨by simp [hm], by simp [hm]⟩⟩

/-- The transfer an interrupt step arms when it does not play a block. -/
theorem armMuteBlock_eq (s : State) : armMuteBlock s =
    { s with
      dma := ⟨true, s.dma.pend, .muteBlock, 0, BitVec.ofNat 32 s.cfg.muteLen⟩
      env := { s.env with pos := 0 }
      trace := s.trace ++ [.dmaArm .muteBlock 0 (BitVec.ofNat 32 s.cfg.muteLen)] } := rfl

/-- What an interrupt step arms: the mute block, or the slot at `DEQ` of an occupied ring (R220). -/
theorem irqArm_cases (v : Verdict) (s : State) :
    (irqArm v s = armMuteBlock s ∧ (v = .muted ∨ s.ring.occ.toNat = 0)) ∨
    (v = .live ∧ s.ring.occ.toNat ≠ 0 ∧ irqArm v s =
      { s with
        ring := { s.ring with deq := advance s.cfg.n s.ring.deq, occ := s.ring.occ - 1 }
        dma := ⟨true, s.dma.pend, .slot, s.ring.deq, (s.ring.slot s.ring.deq.toNat).count⟩
        env := { s.env with pos := 0 }
        trace := s.trace ++ [.dmaArm .slot s.ring.deq (s.ring.slot s.ring.deq.toNat).count] }) := by
  cases v with
  | muted => exact .inl ⟨rfl, .inl rfl⟩
  | live =>
    unfold irqArm
    simp only
    split
    · rename_i h; exact .inl ⟨rfl, .inr (ringDequeue_eq_none.1 h)⟩
    · rename_i h
      obtain ⟨h0, rfl, rfl, rfl⟩ := ringDequeue_eq_some.1 h
      exact .inr ⟨trivial, h0, rfl⟩

theorem irqStep_next {s t : State} (h : irqStep s = .next t) : irqEnabled s = true ∧ irqBody s.ring.occ s = .next t := by
  unfold irqStep at h
  split at h <;> simp_all

theorem irqStepStale_next {s t : State} (h : irqStepStale s = .next t) :
    irqEnabled s = true ∧ s.ring.occ.toNat ≠ 0 ∧ irqBody (staleOcc s) s = .next t := by
  unfold irqStepStale at h
  split at h <;> simp_all

theorem ctx2Fill_next {s t : State} (h : ctx2Fill s = .next t) : fillEnabled s = true ∧ fillBody s.ring.occ s = .next t := by
  unfold ctx2Fill at h
  split at h <;> simp_all

theorem ctx2FillStale_next {s t : State} (h : ctx2FillStale s = .next t) :
    fillEnabled s = true ∧ s.ring.occ.toNat ≠ 0 ∧ fillBody (staleOcc s) s = .next t := by
  unfold ctx2FillStale at h
  split at h <;> simp_all

theorem irqEnabled_eq {s : State} : irqEnabled s = true ↔ s.lc = .running ∧ s.setup.strat = .irq ∧ s.dma.pend = true := by
  simp [irqEnabled, and_assoc]

theorem fillEnabled_eq {s : State} : fillEnabled s = true ↔ s.lc = .running ∧ s.setup.strat = .ctx2 ∧ s.ctx.ph = .fill := by
  simp [fillEnabled, and_assoc]

theorem armEnabled_eq {s : State} :
    armEnabled s = true ↔ s.lc = .running ∧ s.setup.strat = .ctx2 ∧ s.ctx.ph = .wait ∧ s.dma.busy = false := by
  simp [armEnabled, and_assoc]

theorem dmaReadEnabled_eq {s : State} : dmaReadEnabled s = true ↔ s.dma.busy = true ∧ s.env.pos < s.dma.count.toNat := by
  simp [dmaReadEnabled]

/-- What a fill leaves: the mute block expanded, or the block of the slot at `DEQ` of an occupied ring (R251). -/
theorem fillFrom_next {v : Verdict} {s t : State} (h : fillFrom v s = .next t) :
    (t = fillScratch (muteBlock s.cfg) s ∧ (v = .muted ∨ s.ring.occ.toNat = 0)) ∨
    (v = .live ∧ s.ring.occ.toNat ≠ 0 ∧ ∃ block, (s.ring.slot s.ring.deq.toNat).readFirst
        (s.ring.slot s.ring.deq.toNat).count.toNat = some block ∧
      t = fillScratch block { s with ring := { s.ring with deq := advance s.cfg.n s.ring.deq, occ := s.ring.occ - 1 } }) := by
  cases v with
  | muted => exact .inl ⟨by simpa [fillFrom, eq_comm] using h, .inl rfl⟩
  | live =>
    unfold fillFrom at h
    simp only at h
    split at h
    · rename_i hd; exact .inl ⟨by simpa [eq_comm] using h, .inr (ringDequeue_eq_none.1 hd)⟩
    · rename_i hd
      obtain ⟨h0, rfl, rfl, rfl⟩ := ringDequeue_eq_some.1 hd
      split at h
      · simp at h
      · rename_i block hb; exact .inr ⟨rfl, h0, block, hb, by simpa [eq_comm] using h⟩

/-- A fill writes `SCR[CUR]` and `PH` (R251). -/
theorem fillScratch_eq (block : List Word) (s : State) : fillScratch block s =
    { s with ctx := { s.ctx.setScr s.ctx.cur ((s.ctx.scr s.ctx.cur).store (expand (formatPolicy s) block)) with ph := .wait } } :=
  rfl

theorem ctx2Arm_next {s t : State} (h : ctx2Arm s = .next t) : armEnabled s = true ∧ t =
    { s with
      dma := ⟨true, s.dma.pend, .scratch, scrIndex s.ctx.cur, (s.ctx.scr s.ctx.cur).count⟩
      ctx := { s.ctx with cur := !s.ctx.cur, ph := .fill }
      env := { s.env with pos := 0 }
      trace := s.trace ++ [.dmaArm .scratch (scrIndex s.ctx.cur) (s.ctx.scr s.ctx.cur).count] } := by
  unfold ctx2Arm at h
  split at h
  · simp at h
  · rename_i he; exact ⟨by simpa using he, by simpa [arm, State.emit, eq_comm] using h⟩

theorem dmaRead_next {s t : State} (h : dmaRead s = .next t) :
    dmaReadEnabled s = true ∧ ∃ d, armedDatum s s.env.pos = some d ∧ t = s.deliver [d] := by
  unfold dmaRead at h
  split at h
  · simp at h
  rename_i he
  split at h
  · simp at h
  · rename_i d hd; exact ⟨by simpa using he, d, hd, by simpa [eq_comm] using h⟩

theorem dmaDone_next {s t : State} (h : dmaDone s = .next t) :
    (t = s ∧ ¬ (s.lc = .running ∧ s.dma.busy = true)) ∨
    (s.lc = .running ∧ s.dma.busy = true ∧ ∃ ds, armedDatums s s.env.pos (s.dma.count.toNat - s.env.pos) = some ds ∧
      t = transferComplete (s.deliver ds)) := by
  unfold dmaDone at h
  split at h
  · rename_i hb
    split at h
    · simp at h
    · rename_i ds hd; exact .inr ⟨hb.1, hb.2, ds, hd, by simpa [eq_comm] using h⟩
  · rename_i hb; exact .inl ⟨by simpa [eq_comm] using h, hb⟩

end Sys2Proof.Machine
end

