-- ==== Sys2Proof/Machine/Assembler.lean ====
section
/-! DEFINITION. The assembler's lines and the pseudo-commands (30_encoding.md R109, R110). They are the host's side: no
step reads them. -/

namespace Sys2Proof.Machine

/-- `ch=<BOTH|L|R>` (R109). -/
inductive AsmChannel
  | both | left | right
deriving DecidableEq, Repr

/-- `depth=<16|24|32>` (R109). -/
inductive AsmDepth
  | d16 | d24 | d32
deriving DecidableEq, Repr

/-- One line of a program (R109): a command with the operands of its syntax, or a step in square brackets. -/
inductive AsmLine
  | configurePins (data clkbase : BitVec 6) (mclk : Option (BitVec 6))
  | configure (fmt : Format) (mode : JitterMode) (ctx2 : Bool)
  | initializeAt (rate : BitVec 24)
  | changeRate (rate : BitVec 24)
  | enqueue (bytes : BitVec 22) (depth : AsmDepth)
  | occupancy
  | setVolume (att : BitVec 16) (ch : AsmChannel)
  | setHandler (sel : Handler)
  | shutdown
  | dmaDone | irqStep | ctx2Fill | ctx2Arm
deriving DecidableEq, Repr

/-- `channelSelector` codes (30_encoding.md R108). -/
def AsmChannel.code : AsmChannel → BitVec 2
  | .both => 0
  | .left => 1
  | .right => 2

/-- The depth an assembler line can name. -/
def AsmDepth.depth : AsmDepth → BitDepth
  | .d16 => .bits16
  | .d24 => .bits24
  | .d32 => .bits32

/-- The command a line assembles to; `mclk=none` assembles `mclkEn = 0` and `masterClockPin = 0x3F` (R109). A step in
square brackets has no encoding. -/
def AsmLine.instr : AsmLine → Option Instr
  | .configurePins d c none => some (.configurePins d c 0x3F false)
  | .configurePins d c (some m) => some (.configurePins d c m true)
  | .configure f j b => some (.configure f.code j (Strategy.ofBit b))
  | .initializeAt r => some (.initializeAt r)
  | .changeRate r => some (.changeRate r)
  | .enqueue n d => some (.enqueue n d.depth)
  | .occupancy => some .occupancy
  | .setVolume a ch => some (.setVolume a ch.code)
  | .setHandler h => some (.setHandler h)
  | .shutdown => some .shutdown
  | .dmaDone => none
  | .irqStep => none
  | .ctx2Fill => none
  | .ctx2Arm => none

/-- The entry of the schedule a line stands for: the write of its word to `CMD`, or the step. -/
def AsmLine.event : AsmLine → Event
  | .dmaDone => .dmaDone
  | .irqStep => .irqStep
  | .ctx2Fill => .ctx2Fill
  | .ctx2Arm => .ctx2Arm
  | l => .hostWrite 0 (match l.instr with | some i => encode i | none => 0)

/-- `FLUSH` issues another OCCUPANCY unless the last one answered 0 (R110). -/
def flushAgain (s : State) : Bool := decide (s.res.result ≠ 0)

/-- `ENQUEUE_RETRY` issues the same ENQUEUE again unless `RESULT = 1` or `ERR` is not `BackpressureCondition` (R110). -/
def enqueueRetryAgain (s : State) : Bool :=
  decide (s.res.result ≠ 1) && decide (s.res.err = .backpressureCondition)

end Sys2Proof.Machine
end

