-- ==== Sys2Proof/Tests/Slice0.lean ====
section
/-! SUPPORT. Small tests, and for every statement with hypotheses a witness that meets them. Every expected value is a row of
95_test_vectors.md (V1 to V9, PA to PE), named at the test. -/

namespace Sys2Proof.Tests

open Sys2Proof Sys2Proof.Machine

set_option Elab.async false

/-! ## Helpers -/

/-- Whether an outcome is a next state. -/
def goes : Out → Bool
  | .next _ => true
  | _ => false

/-- The next state of an outcome that has one. -/
def onward : Out → State
  | .next t => t
  | _ => State.reset

theorem exists_next {o : Out} {P : State → Prop} (h : goes o = true ∧ P (onward o)) : ∃ t, o = .next t ∧ P t := by
  cases o with
  | next t => exact ⟨t, rfl, h.2⟩
  | fault f => exact absurd h.1 (by simp [goes])
  | refused r => exact absurd h.1 (by simp [goes])

/-- A small binding of the parameters: four slots of at most two pairs. -/
def small : Params := { Params.p1 with n := 4, pairsMax := 2, muteLen := 2 }

theorem small_wf : small.WF :=
  { Params.p1_wf with
    n_min := by decide
    n_quarter := by decide
    n_width := by decide
    pairs_min := by decide
    pairs_width := by decide
    mute_min := by decide
    mute_even := by decide
    mute_max := by decide
    mute_width := by decide }

/-- `IDLE` with valid pins, under the parameters `p`. -/
def idle (p : Params) (f : Format) (j : JitterMode) (st : Strategy) (mclk : Bool) : State :=
  { State.resetWith p with setup := ⟨f, j, st, 18, 20, 22, mclk⟩ }

/-- The state after a command. -/
def after (i : Instr) (s : State) : State := onward (exec i s)

/-- A session at 48000 Hz. -/
def session (p : Params) (f : Format) (j : JitterMode) (st : Strategy) : State :=
  after (.initializeAt 48000) (idle p f j st false)

/-- `INBUF` holding the bytes from index 0. -/
def withBytes (bs : List Byte) (s : State) : State := { s with inbuf := bs.zipIdx.map fun c => (c.2, c.1) }

/-- One pair (0x4000, -0x4000) at 16 bit enqueued (V4.2, row 1). -/
def put (s : State) : State := after (.enqueue 4 .bits16) (withBytes [0x00, 0x40, 0x00, 0xC0] s)

/-- The state after an event. -/
def evt (e : Event) (s : State) : State := onward (perform e s)

/-- An interrupt-driven session, its first transfer in flight. -/
def irqS : State := session small .i2s .default .irq

/-- The same with a full ring. -/
def fullS : State := put (put (put (put irqS)))

/-- An interrupt pending, one block queued. -/
def pendS : State := evt .dmaDone (put irqS)

/-- A slot's transfer in flight. -/
def slotS : State := evt .irqStep pendS

/-- A second-context session of the dual-mono format. -/
def ctxS : State := session small .i2sDual .default .ctx2

/-- A second-context session with a block to play. -/
def ctxLiveS : State := put ctxS

/-- The loop waiting to arm, nothing in flight. -/
def ctxWaitS : State := evt .ctx2Fill ctxLiveS

/-- A scratch area's transfer in flight, the loop filling again. -/
def ctxBusyS : State := evt .ctx2Arm ctxWaitS

/-- The invariant as a check. -/
def blockCheck (cap : Nat) (b : SampleBlock) : Bool := decide (b.count.toNat ≤ b.data.length ∧ b.data.length ≤ cap)

theorem blockCheck_ok {cap : Nat} {b : SampleBlock} (h : blockCheck cap b = true) : BlockOk cap b :=
  have h := of_decide_eq_true h
  ⟨h.1, h.2⟩

/-- The target of the session's mode and family holds of the clock state. -/
def targetCheck (s : State) : Bool :=
  match target s.cfg s.setup.jmode (fam s.clk.rate.toNat) with
  | none => true
  | some t => decide (s.clk.sysSrc = t.1 ∧ s.clk.sysHz = t.2)

theorem targetCheck_ok {s : State} (h : targetCheck s = true) :
    ∀ t ∈ target s.cfg s.setup.jmode (fam s.clk.rate.toNat), s.clk.sysSrc = t.1 ∧ s.clk.sysHz = t.2 := by
  unfold targetCheck at h
  intro t ht
  rw [Option.mem_def.1 ht] at h
  exact of_decide_eq_true h

/-- A running state's invariant from checks of its fields. -/
theorem running_inv (s : State) (cfg : s.cfg.WF) (lc : s.lc = .running)
    (cursors : (s.ring.slots.length = s.cfg.n ∧ s.ring.occ.toNat ≤ s.cfg.n ∧ s.ring.enq.toNat < s.cfg.n ∧
      s.ring.deq.toNat < s.cfg.n) ∧ s.ring.enq.toNat = (s.ring.deq.toNat + s.ring.occ.toNat) % s.cfg.n)
    (slots : (s.ring.slots.all fun b => blockCheck (4 * s.cfg.pairsMax) b && decide (b.count.toNat % 2 = 0) &&
      decide (b.count.toNat ≤ 2 * s.cfg.pairsMax)) = true)
    (clk : (rateLegal s.clk.rate.toNat = true ∧ s.clk.is48k = decide (fam s.clk.rate.toNat = Family.f48k) ∧
      s.clk.rate ≠ 0 ∧ 1 ≤ s.clk.divInt.toNat) ∧ s.setup.jmode = .default ∧ s.setup.mclkEn = false ∧
      s.clk.mdivInt = 0 ∧ s.clk.mdivFrac = 0 ∧ s.clk.sysHz = s.cfg.fSys0)
    (tgt : targetCheck s = true)
    (seq : (s.dma.pend = true → s.setup.strat = .irq) ∧ (s.setup.strat = .irq → s.dma.busy = !s.dma.pend) ∧
      (s.dma.busy = true → s.env.pos ≤ s.dma.count.toNat))
    (irq : s.dma.busy = true → s.setup.strat = .irq →
      (s.dma.kind = .muteBlock ∧ s.dma.idx = 0 ∧ s.dma.count.toNat = s.cfg.muteLen) ∨
      (s.dma.kind = .slot ∧ s.dma.idx.toNat < s.cfg.n ∧ s.dma.count.toNat ≤ (s.ring.slot s.dma.idx.toNat).data.length))
    (ctx2 : s.dma.busy = true → s.setup.strat = .ctx2 →
      s.dma.kind = .scratch ∧ s.dma.idx = scrIndex (!s.ctx.cur) ∧ s.dma.count = (s.ctx.scr (!s.ctx.cur)).count)
    (scr : (blockCheck (scrWords s.cfg) s.ctx.scr0 && blockCheck (scrWords s.cfg) s.ctx.scr1) = true)
    (host : (decide (Memory.wf s.inbuf) && s.inbuf.all (fun c => decide (c.1 < 8 * s.cfg.pairsMax)) &&
      pinsOk s.cfg s.setup) = true)
    (vol : s.vol = ⟨unityGain, unityGain⟩) : s.Inv := by
  have hb := List.all_eq_true.1 slots
  simp only [Bool.and_eq_true, decide_eq_true_eq] at hb scr host
  have hu : unityGain ∈ s.cfg.volTab := List.mem_of_getElem? cfg.volTab_unity
  have hi : s.lc ≠ .idle := by rw [lc]; decide
  obtain ⟨⟨c1, c2, c3, c4⟩, c5⟩ := cursors
  obtain ⟨⟨k1, k2, k3, k4⟩, k5, k6, k7, k8, k9⟩ := clk
  refine ⟨cfg, ⟨⟨c1, c2, c3, c4, c5⟩, fun b h => blockCheck_ok (hb b h).1.1, fun b h => (hb b h).1.2, fun _ b h => (hb b h).2⟩,
    ⟨.inr k1, k2, fun _ => k3, fun _ => k4, fun _ h => absurd k5 h, fun _ _ => ⟨k7, k8⟩, fun _ h => ?_, fun _ => targetCheck_ok tgt,
      fun _ h => ?_, fun _ => k9⟩,
    ⟨fun h => ⟨lc, seq.1 h⟩, fun _ => seq.2.1, fun _ => lc, irq, ctx2, seq.2.2, blockCheck_ok scr.1, blockCheck_ok scr.2⟩,
    ⟨fun h => absurd h hi, fun h => absurd h hi, fun h => absurd h hi⟩,
    ⟨host.1.1, fun c h => of_decide_eq_true (List.all_eq_true.1 host.1.2 c h), by rw [vol]; exact hu, by rw [vol]; exact hu,
      fun _ => host.2⟩⟩
  · rw [k6] at h; exact absurd h (by decide)
  · rw [k5] at h; exact absurd h (by decide)

theorem irqS_inv : irqS.Inv := by apply running_inv irqS small_wf <;> decide +kernel

theorem slotS_inv : slotS.Inv := by apply running_inv slotS small_wf <;> decide +kernel

theorem pendS_inv : pendS.Inv := by apply running_inv pendS small_wf <;> decide +kernel

theorem ctxS_inv : ctxS.Inv := by apply running_inv ctxS small_wf <;> decide +kernel

theorem ctxLiveS_inv : ctxLiveS.Inv := by apply running_inv ctxLiveS small_wf <;> decide +kernel

theorem ctxWaitS_inv : ctxWaitS.Inv := by apply running_inv ctxWaitS small_wf <;> decide +kernel

theorem ctxBusyS_inv : ctxBusyS.Inv := by apply running_inv ctxBusyS small_wf <;> decide +kernel

/-! ## Well-formedness: each check refuses an ill-formed term (30_encoding.md R102) -/

theorem test_wellFormed_format : (Instr.configure 4 .ext .ctx2).wellFormed = true ∧
    (Instr.configure 5 .default .irq).wellFormed = false ∧ (Instr.configure 7 .ext .ctx2).wellFormed = false := by decide

theorem test_wellFormed_channel : (Instr.setVolume 0 2).wellFormed = true ∧ (Instr.setVolume 0 3).wellFormed = false := by
  decide

/-! ## Decoding: words written out in V1 -/

theorem test_decode_configurePins : decode 0x0103F512 = .ok (.configurePins 18 20 63 false) ∧
    decode 0x01056512 = .ok (.configurePins 18 20 22 true) := by decide

theorem test_decode_configure : decode 0x0200002A = .ok (.configure 2 .lj .ctx2) ∧
    decode 0x02000023 = .ok (.configure 3 .default .ctx2) ∧ decode 0x02000018 = .ok (.configure 0 .ext .irq) := by decide

theorem test_decode_rates : decode 0x0300BB80 = .ok (.initializeAt 48000) ∧ decode 0x0305DC01 = .ok (.initializeAt 384001) ∧
    decode 0x04017700 = .ok (.changeRate 96000) := by decide

theorem test_decode_enqueue : decode 0x05000200 = .ok (.enqueue 512 .bits16) ∧ decode 0x05400006 = .ok (.enqueue 6 .bits24) ∧
    decode 0x05800008 = .ok (.enqueue 8 .bits32) ∧ decode 0x05C00004 = .ok (.enqueue 4 .invalid) := by decide

theorem test_decode_setVolume : decode 0x0701FFFA = .ok (.setVolume (-6) 1) ∧ decode 0x0702FF38 = .ok (.setVolume (-200) 2) ∧
    decode 0x07010005 = .ok (.setVolume 5 1) := by decide

theorem test_decode_plain : decode 0x06000000 = .ok .occupancy ∧ decode 0x08000001 = .ok (.setHandler .custom) ∧
    decode 0x09000000 = .ok .shutdown := by decide

theorem test_decode_reserved :
    ([0x00000000, 0x0A000000, 0xFFFFFFFF, 0x06000001, 0x09800000, 0x01080000, 0x02000040, 0x02000005, 0x07030000, 0x07040000,
      0x08000002].all fun w => !(decode w).toOption.isSome) = true := by decide

theorem test_encode : encode (.configurePins 18 20 22 true) = 0x01056512 ∧ encode (.configure 2 .lj .ctx2) = 0x0200002A ∧
    encode (.enqueue 6 .bits24) = 0x05400006 ∧ encode (.setVolume (-6) 1) = 0x0701FFFA := by decide

/-! ## Commands -/

/-- PE: CONFIGURE_PINS in `IDLE`. -/
theorem test_configurePins : (after (.configurePins 18 20 63 false) State.reset).setup =
    ⟨.i2s, .default, .irq, 18, 20, 63, false⟩ := by decide +kernel

/-- PE: CONFIGURE_PINS while `RUNNING` gives ERR 4. -/
theorem test_configurePins_running : (after (.configurePins 1 2 63 false) irqS).res = ⟨0, .illegalCommand⟩ := by decide +kernel

/-- PD, line 2. -/
theorem test_configure : (after (.configure 3 .default .ctx2) State.reset).setup.fmt = .i2sDual ∧
    (after (.configure 3 .default .ctx2) State.reset).setup.strat = .ctx2 := by decide +kernel

/-- V6.2, row 1: the events of INITIALIZE 44100 in `LJ` with a master clock. -/
theorem test_initialize_lj : (after (.initializeAt 44100) (idle Params.p1 .i2s .lj .irq true)).trace =
    [.periClkDetach, .sysClkRetarget .pll 135475200, .setDivider 24 0, .setMclkDivider 3 0,
     .outputEnable .i2s .irq 18 20 true 22, .dmaArm .muteBlock 0 256] := by decide +kernel

/-- V5.1 and V5.3: 48000 Hz in `DEFAULT`. -/
theorem test_initialize_default : ((session Params.p1 .i2s .default .irq).clk.divInt, (session Params.p1 .i2s .default .irq).clk.divFrac,
    (session Params.p1 .i2s .default .irq).clk.sysHz) = (20, 88, 125000000) := by decide +kernel

/-- V6.2, rows 2 and 3: CHANGE_RATE to the other family re-targets. -/
theorem test_changeRate : (after (.changeRate 48000) (after (.initializeAt 44100) (idle Params.p1 .i2s .lj .irq true))).trace.drop 6 =
    [.sysClkRetarget .pll 147456000, .setDivider 24 0, .setMclkDivider 3 0] := by decide +kernel

/-- V6.3: 400000 Hz is out of range. -/
theorem test_changeRate_range : (after (.changeRate 400000) irqS).res = ⟨0, .configurationError⟩ := by decide +kernel

/-- V4.2, row 4: 32-bit samples, dual mono, the right channel's negation saturating. -/
theorem test_enqueue_dual : (after (.enqueue 8 .bits32)
      (withBytes [0, 0, 0, 0x40, 0, 0, 0, 0x80] (session small .i2sDual .default .irq))).ring.slot 0 =
    ⟨[0x60000000, 0x00000000, 0xB5555555, 0x55555555], 4⟩ := by decide +kernel

/-- V4.2, row 5: 24-bit samples. -/
theorem test_enqueue_24 : (after (.enqueue 6 .bits24)
      (withBytes [0x56, 0x34, 0x12, 0, 0, 0x80] (session small .pt8211 .default .irq))).ring.slot 0 =
    ⟨[0x12345600, 0x80000000], 2⟩ := by decide +kernel

/-- PE: OCCUPANCY of a full ring. -/
theorem test_occupancy : (after .occupancy fullS).res = ⟨4, .noError⟩ := by decide +kernel

/-- V9.1, row 2. -/
theorem test_setVolume : (after (.setVolume (-6) 1) State.reset).vol = ⟨0x1009B9CF, 0x20000000⟩ := by decide +kernel

/-- V9.1, row 6: clamping. -/
theorem test_setVolume_clamp : (after (.setVolume 0x8000 0) State.reset).vol = ⟨0, 0⟩ := by decide +kernel

/-- PD, line 3. -/
theorem test_setHandler : (after (.setHandler .custom) State.reset).play = ⟨false, .custom, false⟩ := by decide +kernel

/-- PC: SHUTDOWN keeps the descriptor and releases last. -/
theorem test_shutdown : (after .shutdown irqS).trace.drop 3 = [.outputDisable, .resourcesReleased] ∧
    (after .shutdown irqS).dma = ⟨false, false, .muteBlock, 0, 2⟩ := by decide +kernel

/-! ## Steps without an encoding -/

/-- V7.1, row 1, and V7.3: the first observation of an empty ring mutes, and the default handler writes `IND`. -/
theorem test_irqStep_empty : (evt .irqStep (evt .dmaDone irqS)).play = ⟨true, .default, false⟩ ∧
    (evt .irqStep (evt .dmaDone irqS)).trace.drop 3 = [.notify false, .dmaArm .muteBlock 0 2] := by decide +kernel

/-- PA: a live block is armed and dequeued. -/
theorem test_irqStep_live : slotS.dma = ⟨true, false, .slot, 0, 2⟩ ∧ slotS.ring.occ = 0 ∧ slotS.ring.deq = 1 := by decide +kernel

/-- V8, row 1, in the dual-mono format of V4.2: the block expanded into `SCR[0]`. -/
theorem test_ctx2Fill : (evt .ctx2Fill (after (.enqueue 8 .bits32) (withBytes [0, 0, 0, 0x40, 0, 0, 0, 0x80] ctxS))).ctx.scr0 =
    ⟨[0x60000000, 0x00000000, 0xB5555555, 0x55555555], 4⟩ := by decide +kernel

/-- V8, row 4. -/
theorem test_ctx2Arm : ctxBusyS.dma = ⟨true, false, .scratch, 0, 4⟩ ∧ ctxBusyS.ctx.cur = true ∧ ctxBusyS.ctx.ph = .fill := by
  decide +kernel

/-- V8, row 6: under `CTX2` a completion leaves `PEND` 0. -/
theorem test_dmaDone_ctx2 : (evt .dmaDone ctxBusyS).dma = ⟨false, false, .scratch, 0, 4⟩ := by decide +kernel

/-- PA: the transfer delivers the block's datums in order. -/
theorem test_dmaDone_delivers : (evt .dmaDone slotS).env.stream = [0, 0, 0x40000000, 0xC0000000] := by decide +kernel

/-! ## The data path: V3 -/

theorem test_scale : scale 0xC0000000 0x1009B9CF = 0xDFEC8C62 ∧ scale 0xFFFFFFFD 0x10000000 = 0xFFFFFFFE := by decide

theorem test_interleave : interleave 0x12345678 0x9ABCDEF0 = 0x434C4F70737C7F80 := by decide

/-- V4.1, row 3: two pairs in dual mono. -/
theorem test_pack_dualMono : pack .dualMono [(0x40000000, 0xC0000000), (0x80000000, 0x7FFFFFFF)] =
    [0x70000000, 0x00000000, 0xB0000000, 0x00000000, 0x95555555, 0x55555555, 0x6AAAAAAA, 0xAAAAAAAB] := by decide

/-- V9.2, rows 4 to 7 and 9. -/
theorem test_pinsOk : ([(18, 18, false, 63), (18, 17, false, 63), (18, 29, false, 63), (18, 20, true, 21), (29, 0, true, 2)].map
    fun (q : BitVec 6 × BitVec 6 × Bool × BitVec 6) =>
      pinsOk Params.p1 ⟨.i2s, .default, .irq, q.1, q.2.1, q.2.2.2, q.2.2.1⟩) = [false, false, false, false, true] := by decide

theorem test_sample : sample [0x00, 0xC0] 0 2 = -16384 ∧ sample [0x00, 0x00, 0x80] 0 3 = -8388608 ∧
    sample [0x56, 0x34, 0x12] 0 3 = 0x123456 := by decide

/-- PD: an assembler line's event (30_encoding.md R109). -/
theorem test_assembler : (AsmLine.configurePins 18 20 none).event = .hostWrite 0 0x0103F512 ∧
    (AsmLine.enqueue 8 .d32).event = .hostWrite 0 0x05800008 := by decide

/-! ## Witnesses: a state and operands that meet the hypotheses of each statement -/

theorem wit_DecodeOfEncodedCommand : (Instr.configure 4 .ext .ctx2).wellFormed = true ∧
    (Instr.setVolume (-100) 2).wellFormed = true := by decide

theorem wit_EncodeOfDecodedWord : decode 0x02000023 = .ok (.configure 3 .default .ctx2) := by decide

theorem wit_WordIsCommandIffItMatchesRow : CommandWord 0x02000004 ∧ ¬ CommandWord 0x02000005 ∧
    decode 0x02000004 = .ok (.configure 4 .default .irq) := by unfold CommandWord; decide

theorem wit_ReservedWordRaisesIllegalCommand : ¬ CommandWord 0x07030000 ∧ ¬ CommandWord 0x0A000000 := by
  unfold CommandWord
  decide

theorem wit_StepRunsDecodedCommand : decode 0x06000000 = .ok .occupancy ∧
    (irqS.withSchedule [.hostWrite 0 0x06000000]).env.schedule = .hostWrite 0 0x06000000 :: [] ∧
    State.reset.env.schedule = [] := ⟨by decide, rfl, rfl⟩

theorem wit_IllegalCommandCauses : irqS.lc = .running ∧ decode 0x0103F512 = .ok (.configurePins 18 20 63 false) ∧
    decode 0x02000000 = .ok (.configure 0 .default .irq) ∧ State.reset.lc = .idle ∧
    decode 0x0400BB80 = .ok (.changeRate 48000) ∧ decode 0x05000004 = .ok (.enqueue 4 .bits16) ∧ ¬ CommandWord 0 := by
  refine ⟨by decide +kernel, by decide, by decide, rfl, by decide, by decide, ?_⟩
  unfold CommandWord
  decide

theorem wit_IllegalCommandCauses_next : ∃ t, runCommand 0x05000004 State.reset = .next t ∧ t.res.err = .illegalCommand :=
  exists_next (by decide +kernel)

/-- The platform refusing the claim. -/
def refusing : State := { idle small .i2s .default .irq false with
  env := { (idle small .i2s .default .irq false).env with hwClaimOk := false } }

theorem wit_HardwareContentionCauses : irqS.lc = .running ∧ refusing.lc = .idle ∧
    rateLegal (48000 : BitVec 24).toNat = true ∧ pinsOk refusing.cfg refusing.setup = true ∧
    clockPlan ((48000 : BitVec 24).setWidth 32) true refusing ≠ none ∧ refusing.env.hwClaimOk = false := by decide +kernel

theorem wit_HardwareContentionCauses_next : ∃ t, exec (.initializeAt 48000) refusing = .next t ∧
    t.res.err = .hardwareContention := exists_next (by decide +kernel)

/-- Rates at and beyond the ends of the legal range, invalid pins, a divider out of range (V5.4), an invalid depth. -/
theorem wit_ConfigurationErrorCauses : (idle small .i2s .default .irq false).lc = .idle ∧
    (7999 : BitVec 24).toNat < 8000 ∧ 384000 < (384001 : BitVec 24).toNat ∧ pinsOk State.reset.cfg State.reset.setup = false ∧
    clockPlan ((96000 : BitVec 24).setWidth 32) true
      (idle { small with fSys0 := 12000000 } .i2s .default .irq false) = none ∧ irqS.lc = .running := by decide +kernel

theorem wit_ConfigurationErrorCauses_next : ∃ t, exec (.enqueue 4 .invalid) irqS = .next t ∧
    t.res.err = .configurationError := exists_next (by decide +kernel)

theorem wit_BackpressureCauses : fullS.lc = .running ∧ bitsOf .bits16 = some 16 ∧
    lengthOk fullS.cfg 16 (4 : BitVec 22).toNat = true ∧ fullS.ring.occ.toNat = fullS.cfg.n := by decide +kernel

theorem wit_BackpressureCauses_next : ∃ t, exec (.enqueue 4 .bits16) fullS = .next t ∧
    t.res.err = .backpressureCondition := exists_next (by decide +kernel)

/-- One block below capacity, the bytes of one pair in `INBUF`: a stale pre-test fails here (log 14); and the full ring. -/
theorem wit_BackpressureCauses_stale :
    (∃ t, perform (.commandStale 0x05000004) (put (put (put irqS))) = .next t ∧ t.res.err = .backpressureCondition ∧
      t.ring.occ.toNat + 1 = t.cfg.n) ∧
    ∃ t, perform (.commandStale 0x05000004) fullS = .next t ∧ t.res.err = .backpressureCondition :=
  ⟨exists_next (by decide +kernel), exists_next (by decide +kernel)⟩

theorem wit_FailedCommandChangesNothingElse : (∃ t, exec (.changeRate 48000) State.reset = .next t ∧ t.res.err ≠ .noError) ∧
    (∃ t, perform .dmaRead irqS = .next t ∧ t.res.err = .noError) ∧ (∃ t, perform .dmaDone irqS = .next t ∧ t.dma.busy = false) ∧
    (∃ t, perform .irqStep pendS = .next t ∧ t.dma.busy = true) ∧ (∃ t, perform .ctx2Fill ctxS = .next t ∧ t.ctx.ph = .wait) ∧
    ∃ t, perform .ctx2Arm ctxWaitS = .next t ∧ t.dma.busy = true :=
  ⟨exists_next (by decide +kernel), exists_next (by decide +kernel), exists_next (by decide +kernel),
    exists_next (by decide +kernel), exists_next (by decide +kernel), exists_next (by decide +kernel)⟩

theorem wit_CommandEndsByWritingResultAndErr : ∃ t, runCommand 0x06000000 fullS = .next t ∧ t.res = ⟨4, .noError⟩ :=
  exists_next (by decide +kernel)

theorem wit_ConfigurePinsStoresPins : State.reset.lc = .idle := rfl

theorem wit_ConfigureStoresSelection : State.reset.lc = .idle ∧ 4 < (5 : BitVec 3).toNat := by decide +kernel

theorem wit_InitializeStartsSession : ∃ p, clockPlan ((48000 : BitVec 24).setWidth 32) true (idle small .i2s .lj .irq true) = some p ∧
    (idle small .i2s .lj .irq true).lc = .idle ∧ rateLegal (48000 : BitVec 24).toNat = true ∧
    pinsOk (idle small .i2s .lj .irq true).cfg (idle small .i2s .lj .irq true).setup = true ∧
    (idle small .i2s .lj .irq true).env.hwClaimOk = true :=
  ⟨⟨48000, .f48k, true, .pll, 147456000, (24, 0), (3, 0)⟩, by decide +kernel⟩

theorem wit_ShutdownEndsSession : irqS.lc = .running ∧ State.reset.lc = .idle := by decide +kernel

/-- A low-jitter session at 44100 Hz. -/
def ljS : State := after (.initializeAt 44100) (idle small .i2s .lj .irq true)

theorem wit_ChangeRateRetunes : ∃ p, clockPlan ((48000 : BitVec 24).setWidth 32) false ljS = some p ∧ ljS.lc = .running ∧
    rateLegal (48000 : BitVec 24).toNat = true ∧ p.retarget = true :=
  ⟨⟨48000, .f48k, true, .pll, 147456000, (24, 0), (3, 0)⟩, by decide +kernel⟩

theorem wit_FamilyCrossingRetargets : ClockOk irqS ∧ irqS.lc = .running ∧
    ∃ t, exec (.changeRate 44100) irqS = .next t ∧ t.res.err = .noError :=
  ⟨irqS_inv.clk, by decide +kernel, exists_next (by decide +kernel)⟩

/-- A rate of the same family in low-jitter mode, and the other family in `DEFAULT` (V6.2, V5.3). -/
theorem wit_FamilyCrossingRetargets_stays :
    (ljS.lc = .running ∧ fam (88200 : BitVec 24).toNat = fam ljS.clk.rate.toNat ∧
      ∃ t, exec (.changeRate 88200) ljS = .next t ∧ t.res.err = .noError) ∧
    (irqS.setup.jmode = .default ∧ fam (44100 : BitVec 24).toNat ≠ fam irqS.clk.rate.toNat ∧
      ∃ t, exec (.changeRate 44100) irqS = .next t ∧ t.clk.is48k = false) :=
  ⟨⟨by decide +kernel, by decide +kernel, exists_next (by decide +kernel)⟩,
    by decide +kernel, by decide +kernel, exists_next (by decide +kernel)⟩

theorem wit_DivideRoundsDown : 0 < 48000 * 128 ∧ divide 125000000 (48000 * 128) true = (20, 88) := by decide +kernel

theorem wit_PlanDividesSystemClock : ∃ p, clockPlan 48000 true (idle small .i2s .default .irq true) = some p ∧
    (idle small .i2s .default .irq true).setup.mclkEn = true :=
  ⟨⟨48000, .f48k, false, .platform, 125000000, (20, 88), (2, 139)⟩, by decide +kernel⟩

/-- A session with one pair's bytes in `INBUF`. -/
def readyS : State := withBytes [0x00, 0x40, 0x00, 0xC0] irqS

theorem wit_EnqueueStoresScaledPackedBlock : RingCursors readyS.cfg.n readyS.ring ∧ readyS.lc = .running ∧
    bitsOf .bits16 = some 16 ∧ lengthOk readyS.cfg 16 (4 : BitVec 22).toNat = true ∧ readyS.cfg.n ≤ 255 ∧
    readyS.ring.occ.toNat < readyS.cfg.n ∧
    Memory.readRange readyS.inbuf 0 (4 : BitVec 22).toNat = some [0x00, 0x40, 0x00, 0xC0] :=
  ⟨irqS_inv.ring.cursors, by decide +kernel⟩

/-- Lengths 0, no whole pair, one pair too many, and the largest that is well-formed. -/
theorem wit_MalformedEnqueueRefused : irqS.lc = .running ∧ bitsOf .bits16 = some 16 ∧ (0 : BitVec 22).toNat = 0 ∧
    ¬ (2 * (16 / 8) ∣ (6 : BitVec 22).toNat) ∧ irqS.cfg.pairsMax < (12 : BitVec 22).toNat / (2 * (16 / 8)) ∧
    lengthOk irqS.cfg 16 (8 : BitVec 22).toNat = true := by decide +kernel

theorem wit_MalformedEnqueueRefused_stop : exec (.enqueue 6 .bits16) readyS = .refused (.malformedEnqueue 6) := rfl

theorem wit_UnwrittenInputFaults : irqS.lc = .running ∧ bitsOf .bits32 = some 32 ∧ lengthOk irqS.cfg 32 (8 : BitVec 22).toNat = true ∧
    irqS.ring.occ.toNat ≠ irqS.cfg.n ∧ Memory.read irqS.inbuf 0 = none := by decide +kernel

theorem wit_UnwrittenInputFaults_stop : exec (.enqueue 8 .bits32) readyS = .fault .inbufUnwritten := rfl

theorem wit_ScaleIsFlooredProduct : (0x1009B9CF : Word).toNat ≤ 0x20000000 ∧ (0x20000000 : Word).toNat ≤ 0x20000000 := by decide

theorem wit_ScaleCornerCases : 0 ≤ (0x40000000 : Word).toInt ∧ (0x10000000 : Word).toNat ≤ (0x20000000 : Word).toNat ∧
    (0x20000000 : Word).toNat ≤ 0x20000000 := by decide

theorem wit_PackPlacesDatums : [((0x40000000 : Word), (0xC0000000 : Word)), (0x80000000, 0x7FFFFFFF)][1]? =
    some (0x80000000, 0x7FFFFFFF) := by decide

theorem wit_SampleReadsLittleEndian : (1 ≤ 3 ∧ 3 ≤ 4) ∧ (1 + 1) * 3 ≤ ([1, 2, 3, 4, 5, 0x86] : List Byte).length ∧
    (1 + 1) * 4 ≤ ([1, 2, 3, 4, 5, 6, 7, 0x88] : List Byte).length ∧ (0 + 1) * 1 ≤ ([1] : List Byte).length := by decide

theorem wit_JustifyShiftsLeft : (-2 ^ (16 - 1) ≤ (-32768 : Int) ∧ (-32768 : Int) < 2 ^ (16 - 1)) ∧
    (-2 ^ (24 - 1) ≤ (8388607 : Int) ∧ (8388607 : Int) < 2 ^ (24 - 1)) ∧
    (-2 ^ (32 - 1) ≤ (-2147483648 : Int) ∧ (2147483647 : Int) < 2 ^ (32 - 1)) := by decide

theorem wit_SetVolumeSelectsMultiplier : (2 : BitVec 2) ≠ 3 ∧
    ((100 : Nat) : Int) = -(min 0 (max (-100) (-200 : BitVec 16).toInt)) ∧
    ((0 : Nat) : Int) = -(min 0 (max (-100) (5 : BitVec 16).toInt)) := by decide

theorem wit_MultiplierFallsWithAttenuation : Params.p1.WF ∧ 0 ≤ (5 : BitVec 16).toInt ∧
    (-7 : BitVec 16).toInt ≤ (-6 : BitVec 16).toInt := ⟨Params.p1_wf, by decide⟩

theorem wit_RingIsFifoQueue : irqS.ring.slots.length = 4 ∧ irqS.ring.occ = 0 ∧ irqS.ring.enq.toNat < 4 ∧
    irqS.ring.deq = irqS.ring.enq ∧ (List.length [(1 : Word), 2] < 2 ^ 32) := by decide +kernel

/-- Muted by an empty ring, interrupt pending, with one block (the threshold of four slots) and with none. -/
def mutedS : State := evt .dmaDone (evt .irqStep (evt .dmaDone irqS))

theorem wit_IrqStepFollowsHysteresisTable :
    (RingCursors pendS.cfg.n pendS.ring ∧ pendS.cfg.n ≤ 255 ∧ pendS.lc = .running ∧ pendS.setup.strat = .irq ∧
      pendS.dma.pend = true ∧ pendS.play.mute = false ∧ pendS.ring.occ.toNat = 1) ∧
    (mutedS.lc = .running ∧ mutedS.setup.strat = .irq ∧ mutedS.dma.pend = true ∧ mutedS.play.mute = true ∧
      mutedS.ring.occ.toNat = 0) ∧
    ((put mutedS).dma.pend = true ∧ (put mutedS).play.mute = true ∧ (put mutedS).cfg.n / 4 ≤ (put mutedS).ring.occ.toNat) :=
  ⟨⟨pendS_inv.ring.cursors, by decide +kernel⟩, by decide +kernel, by decide +kernel⟩

/-- Eight slots, one block: muted below the threshold 2 (V7.1, row 3). -/
theorem wit_IrqStepFollowsHysteresisTable_below :
    let s := put (evt .dmaDone (evt .irqStep (evt .dmaDone (session { small with n := 8 } .i2s .default .irq))))
    s.dma.pend = true ∧ s.play.mute = true ∧ 1 ≤ s.ring.occ.toNat ∧ s.ring.occ.toNat < s.cfg.n / 4 := by decide +kernel

theorem wit_FillFormatsIntoScratch : (ctxS.Inv ∧ ctxS.lc = .running ∧ ctxS.setup.strat = .ctx2 ∧ ctxS.ctx.ph = .fill ∧
      ctxS.ring.occ.toNat = 0) ∧
    (ctxLiveS.Inv ∧ ctxLiveS.lc = .running ∧ ctxLiveS.setup.strat = .ctx2 ∧ ctxLiveS.ctx.ph = .fill ∧
      ctxLiveS.ring.occ.toNat ≠ 0 ∧ ctxLiveS.play.mute = false) :=
  ⟨⟨ctxS_inv, by decide +kernel⟩, ctxLiveS_inv, by decide +kernel⟩

theorem wit_MuteBlockExpandsToZeros : small.muteLen % 2 = 0 ∧ Params.p1.muteLen % 2 = 0 := by decide

theorem wit_ContextArmStartsTransfer : (ctxWaitS.lc = .running ∧ ctxWaitS.setup.strat = .ctx2 ∧ ctxWaitS.ctx.ph = .wait ∧
      ctxWaitS.dma.busy = false) ∧
    (evt .ctx2Fill ctxBusyS).lc = .running ∧ (evt .ctx2Fill ctxBusyS).setup.strat = .ctx2 ∧
      (evt .ctx2Fill ctxBusyS).ctx.ph = .wait ∧ (evt .ctx2Fill ctxBusyS).dma.busy = true := by decide +kernel

/-- The mute block's two datums delivered one by one. -/
def drainedS : State := evt .dmaRead (evt .dmaRead irqS)

theorem wit_DmaDoneEndsTransfer : drainedS.lc = .running ∧ drainedS.dma.busy = true ∧
    drainedS.env.pos = drainedS.dma.count.toNat ∧ ¬ (State.reset.lc = .running ∧ State.reset.dma.busy = true) ∧
    ¬ (ctxS.lc = .running ∧ ctxS.dma.busy = true) := by decide +kernel

theorem wit_TransferDeliversArmedBlock : (irqS.Inv ∧ irqS.dma.busy = true ∧ irqS.env.pos = 0 ∧ irqS.dma.kind = .muteBlock) ∧
    (slotS.Inv ∧ slotS.dma.busy = true ∧ slotS.env.pos = 0 ∧ slotS.dma.kind = .slot) ∧
    (ctxBusyS.Inv ∧ ctxBusyS.dma.busy = true ∧ ctxBusyS.env.pos = 0 ∧ ctxBusyS.dma.kind = .scratch) :=
  ⟨⟨irqS_inv, by decide +kernel⟩, ⟨slotS_inv, by decide +kernel⟩, ctxBusyS_inv, by decide +kernel⟩

theorem wit_DmaReadDeliversInPlace : slotS.dma.busy = true ∧ slotS.env.pos < slotS.dma.count.toNat ∧
    armedDatum slotS slotS.env.pos = some 0x40000000 := by decide +kernel

/-- Slot 0 in flight and three blocks enqueued behind it: `ENQ` has come round to slot 0. -/
def overS : State := put (put (put slotS))

theorem wit_EnqueueOverInFlightSlot : RingCursors overS.cfg.n overS.ring ∧ overS.dma.kind = .slot ∧ overS.dma.idx = overS.ring.enq ∧
    ∃ t, exec (.enqueue 4 .bits16) overS = .next t ∧ t.res.err = .noError :=
  ⟨by constructor <;> decide +kernel, by decide +kernel, by decide +kernel, exists_next (by decide +kernel)⟩

theorem wit_ScratchInFlightIsNotFilled : ctxBusyS.Inv ∧ ctxBusyS.dma.busy = true ∧ ctxBusyS.setup.strat = .ctx2 ∧
    ∃ t, perform .ctx2Fill ctxBusyS = .next t ∧ t.ctx.ph = .wait :=
  ⟨ctxBusyS_inv, by decide +kernel, by decide +kernel, exists_next (by decide +kernel)⟩

theorem wit_EnabledStepsComplete : (pendS.Inv ∧ irqEnabled pendS = true) ∧ (ctxS.Inv ∧ fillEnabled ctxS = true) ∧
    (ctxWaitS.Inv ∧ armEnabled ctxWaitS = true) ∧ (slotS.Inv ∧ dmaReadEnabled slotS = true) :=
  ⟨⟨pendS_inv, by decide +kernel⟩, ⟨ctxS_inv, by decide +kernel⟩, ⟨ctxWaitS_inv, by decide +kernel⟩, slotS_inv, by decide +kernel⟩

theorem wit_ResetMeetsInvariants : Params.p1.WF ∧ small.WF := ⟨Params.p1_wf, small_wf⟩

theorem wit_StepKeepsInvariant : pendS.Inv ∧ ∃ t, step pendS = .next t ∧ t.lc = .running :=
  ⟨pendS_inv, exists_next (by decide +kernel)⟩

theorem wit_StepKeepsTraceOrder : TraceOk mutedS ∧
    ∃ t, step (mutedS.withSchedule [.irqStep]) = .next t ∧ t.dma.busy = true :=
  ⟨by constructor <;> decide +kernel, exists_next (by decide +kernel)⟩

theorem wit_NoStepReadsUnwrittenDatum : slotS.Inv ∧ ctxBusyS.Inv := ⟨slotS_inv, ctxBusyS_inv⟩

theorem wit_VolumeWrittenOnlyBySetVolume :
    ∃ t, step (irqS.withSchedule [.hostWrite 0 0x0701FFFA]) = .next t ∧ t.vol ≠ irqS.vol := exists_next (by decide +kernel)

theorem wit_ClockWrittenOnlyByConfigurator :
    ∃ t, step (irqS.withSchedule [.hostWrite 0 0x04017700]) = .next t ∧ t.clk ≠ irqS.clk := exists_next (by decide +kernel)

theorem wit_SessionKeepsConfiguration : nextIsReset (irqS.withSchedule [.hostWrite 0 0x09000000]) = false ∧
    (∃ t, step (irqS.withSchedule [.hostWrite 0 0x09000000]) = .next t ∧ irqS.lc = .running ∧ t.lc = .idle) ∧
    ∃ t, step ((idle small .i2s .default .irq false).withSchedule [.hostWrite 0 0x0300BB80]) = .next t ∧ t.lc = .running :=
  ⟨rfl, exists_next (by decide +kernel), exists_next (by decide +kernel)⟩

theorem wit_CursorsWrittenByTheirContext : nextIsReset (readyS.withSchedule [.hostWrite 0 0x05000004]) = false ∧
    nextCommand (readyS.withSchedule [.hostWrite 0 0x05000004]) = some (.enqueue 4 .bits16) ∧
    (∃ t, step (readyS.withSchedule [.hostWrite 0 0x05000004]) = .next t ∧ t.ring.enq ≠ readyS.ring.enq ∧
      t.ring.occ ≠ readyS.ring.occ) ∧
    ∃ t, step (pendS.withSchedule [.irqStep]) = .next t ∧ t.ring.deq ≠ pendS.ring.deq :=
  ⟨rfl, by decide +kernel, exists_next (by decide +kernel), exists_next (by decide +kernel)⟩

theorem wit_NotifyExactlyOnTransitions :
    ∃ t, step ((evt .dmaDone irqS).withSchedule [.irqStep]) = .next t ∧
      OutEvent.notify false ∈ t.trace.drop (evt .dmaDone irqS).trace.length ∧ t.play.mute ≠ (evt .dmaDone irqS).play.mute :=
  exists_next (by decide +kernel)

theorem wit_ResultAndInputWriters :
    (∃ t, step (fullS.withSchedule [.hostWrite 0 0x06000000]) = .next t ∧ t.res ≠ fullS.res) ∧
    ∃ t, step (irqS.withSchedule [.hostWriteByte 0x1000 7]) = .next t ∧ t.inbuf ≠ irqS.inbuf :=
  ⟨exists_next (by decide +kernel), exists_next (by decide +kernel)⟩

theorem wit_RegisterAccessesHaveNoSideEffect : Reg.ofOffset 0x00 = some .cmd ∧ Reg.ofOffset 0x38 = some .descCnt ∧
    Reg.ofOffset 0x3C = none := by decide

theorem wit_InputByteWrite : 0 < 8 * small.pairsMax ∧ 15 < 8 * small.pairsMax := by decide

end Sys2Proof.Tests
end

section
/-! PROOFS. What a command that succeeds and what a step may write, and from it who writes what (10_state.md R21 to R37). -/

namespace Sys2Proof.Machine

/-! ## What a command that succeeds writes -/

/-- The state a command that succeeds leaves, before `RESULT` and `ERR` are written: one rule per command, with the
conditions it succeeds under (30_encoding.md R104). -/
inductive Effect (s : State) : Instr → State → Prop
  | configurePins (d c m : BitVec 6) (en : Bool) (idle : s.lc = .idle) :
      Effect s (.configurePins d c m en)
        { s with setup := { s.setup with pinData := d, pinClkBase := c, pinMclk := m, mclkEn := en } }
  | configure (f : BitVec 3) (j : JitterMode) (st : Strategy) (fmt : Format) (named : Format.ofCode f = some fmt)
      (idle : s.lc = .idle) :
      Effect s (.configure f j st) { s with setup := { s.setup with fmt := fmt, jmode := j, strat := st } }
  | initializeAt (r : BitVec 24) (p : ClockPlan) (idle : s.lc = .idle) (legal : rateLegal r.toNat = true)
      (pins : pinsOk s.cfg s.setup = true) (plan : clockPlan (r.setWidth 32) true s = some p)
      (claim : s.env.hwClaimOk = true) :
      Effect s (.initializeAt r) (startSession (clockCommit p true s))
  | changeRate (r : BitVec 24) (p : ClockPlan) (running : s.lc = .running) (legal : rateLegal r.toNat = true)
      (plan : clockPlan (r.setWidth 32) false s = some p) :
      Effect s (.changeRate r) (clockCommit p false s)
  | enqueue (n : BitVec 22) (d : BitDepth) (bits : Nat) (bytes : List Byte) (r : Ring) (running : s.lc = .running)
      (depth : bitsOf d = some bits) (length : lengthOk s.cfg bits n.toNat = true)
      (input : Memory.readRange s.inbuf 0 n.toNat = some bytes)
      (stored : ringEnqueue s.cfg.n (enqueueBlock bits bytes s) s.ring = some r) :
      Effect s (.enqueue n d) { s with ring := r }
  | occupancy : Effect s .occupancy s
  | setVolume (a : BitVec 16) (ch : BitVec 2) (named : ch ≠ 3) :
      Effect s (.setVolume a ch)
        { s with vol := setMultipliers ch (volTabAt s.cfg (attenuationIndex a)) s.vol }
  | setHandler (h : Handler) : Effect s (.setHandler h) { s with play := { s.play with hsel := h } }
  | shutdownIdle (idle : s.lc = .idle) : Effect s .shutdown s
  | shutdownRunning (running : s.lc = .running) : Effect s .shutdown (endSession s)

/-- A command that answers a next state fails, writing `RESULT` and `ERR` only, or has its effect and returns its value. -/
theorem exec_next {i : Instr} {s t : State} (h : exec i s = .next t) :
    (∃ c, t = s.finish 0 c) ∨ ∃ u, Effect s i u ∧ t = u.finish (commandValue i s) .noError := by
  cases i with
  | configurePins d c m en =>
    obtain rfl | ⟨hl, rfl⟩ := execConfigurePins_next h
    · exact .inl ⟨_, rfl⟩
    · exact .inr ⟨_, .configurePins d c m en hl, rfl⟩
  | configure f j st =>
    obtain rfl | ⟨fmt, hf, hl, rfl⟩ := execConfigure_next h
    · exact .inl ⟨_, rfl⟩
    · exact .inr ⟨_, .configure f j st fmt hf hl, rfl⟩
  | initializeAt r =>
    obtain ⟨rfl, -⟩ | ⟨rfl, -⟩ | ⟨p, hl, hr, hp, hc, ho, rfl⟩ := execInitialize_next h
    · exact .inl ⟨_, rfl⟩
    · exact .inl ⟨_, rfl⟩
    · exact .inr ⟨_, .initializeAt r p hl hr hp hc ho, rfl⟩
  | changeRate r =>
    obtain ⟨rfl, -⟩ | ⟨rfl, -⟩ | ⟨p, hl, hr, hc, rfl⟩ := execChangeRate_next h
    · exact .inl ⟨_, rfl⟩
    · exact .inl ⟨_, rfl⟩
    · exact .inr ⟨_, .changeRate r p hl hr hc, rfl⟩
  | enqueue n d =>
    obtain ⟨rfl, -⟩ | ⟨rfl, -⟩ | ⟨rfl, -⟩ | ⟨bits, bytes, r, hl, hb, hn, hm, he, rfl⟩ := execEnqueue_next h
    · exact .inl ⟨_, rfl⟩
    · exact .inl ⟨_, rfl⟩
    · exact .inl ⟨_, rfl⟩
    · exact .inr ⟨_, .enqueue n d bits bytes r hl hb hn hm he, rfl⟩
  | occupancy =>
    have ht : t = s.finish (s.ring.occ.setWidth 32) .noError := complete_eq_next.1 h
    exact .inr ⟨s, .occupancy, by rw [ht, commandValue, BitVec.ofNat_toNat]⟩
  | setVolume a ch =>
    obtain ⟨rfl, -⟩ | ⟨hc, rfl⟩ := execSetVolume_next h
    · exact .inl ⟨_, rfl⟩
    · exact .inr ⟨_, .setVolume a ch hc, rfl⟩
  | setHandler hs => exact .inr ⟨_, .setHandler hs, complete_eq_next.1 h⟩
  | shutdown =>
    obtain ⟨hl, rfl⟩ | ⟨hl, rfl⟩ := execShutdown_next h
    · exact .inr ⟨_, .shutdownIdle hl, rfl⟩
    · exact .inr ⟨_, .shutdownRunning hl, rfl⟩

/-! ### Frames of an effect -/

section
variable {s u : State} {i : Instr} (e : Effect s i u)
include e

theorem Effect.cfg_eq : u.cfg = s.cfg := by
  cases e <;> simp [startSession_eq, endSession_eq, clockCommit_eq]

theorem Effect.inbuf_eq : u.inbuf = s.inbuf := by
  cases e <;> simp [startSession_eq, endSession_eq, clockCommit_eq]

/-- Only SET_VOLUME writes the multipliers (10_state.md R37). -/
theorem Effect.vol_eq (hv : ∀ a ch, i ≠ .setVolume a ch) : u.vol = s.vol := by
  cases e with
  | setVolume a ch => exact absurd rfl (hv a ch)
  | _ => simp [startSession_eq, endSession_eq, clockCommit_eq]

/-- CONFIGURE and CONFIGURE_PINS, which alone write the configuration, succeed only in `IDLE` (10_state.md R24 to R27). -/
theorem Effect.setup_eq (hr : s.lc = .running) : u.setup = s.setup := by
  cases e with
  | configurePins | configure => simp_all
  | _ => simp [startSession_eq, endSession_eq, clockCommit_eq]

/-- Only INITIALIZE enters `RUNNING` (10_state.md R23). -/
theorem Effect.initializeAt_of_enters (hs : s.lc = .idle) (hu : u.lc = .running) : ∃ r, i = .initializeAt r := by
  cases e with
  | initializeAt r => exact ⟨r, rfl⟩
  | _ => simp_all

/-- Only SHUTDOWN leaves `RUNNING` (10_state.md R23). -/
theorem Effect.shutdown_of_leaves (hs : s.lc = .running) (hu : u.lc = .idle) : i = .shutdown := by
  cases e with
  | shutdownIdle | shutdownRunning => rfl
  | _ => simp_all [clockCommit_eq]

end

/-! ## What a step writes -/

/-- The state a step's effect starts from: the schedule's first entry is taken off it. -/
abbrev State.taken (s : State) : State := s.withSchedule s.env.schedule.tail

/-- The host writes the word `w` to `CMD` next. -/
def NextWritesCmd (s : State) (w : Word) : Prop :=
  s.env.schedule.head? = some (.hostWrite 0 w) ∨ s.env.schedule.head? = some (.commandStale w)

/-- What the steps of the sequencer, the DMA engine, the platform and the register port all leave alone. -/
structure BlockFrame (s t : State) : Prop where
  cfg : t.cfg = s.cfg
  lc : t.lc = s.lc
  setup : t.setup = s.setup
  clk : t.clk = s.clk
  vol : t.vol = s.vol
  res : t.res = s.res
  inbuf : t.inbuf = s.inbuf

/-- The steps of 20_memory.md R84 by what they may write: a command that fails, a command that succeeds, a byte write to
`INBUF`, a platform reset, and every other step. -/
inductive StepEffect (s t : State) : Prop
  | failed (w : Word) (c : ErrorClass) (cmd : NextWritesCmd s w) (eq : t = s.taken.finish 0 c)
  | succeeded (w : Word) (i : Instr) (u : State) (cmd : NextWritesCmd s w) (dec : decode w = .ok i)
      (effect : Effect s.taken i u) (eq : t = u.finish (commandValue i s.taken) .noError)
  | byteWrite (o : Nat) (v : Byte) (j : Nat) (head : s.env.schedule.head? = some (.hostWriteByte o v))
      (eq : t = { s.taken with inbuf := Memory.write s.inbuf j v })
  | reset (head : nextIsReset s = true) (cfg : t.cfg = s.cfg)
  | quiet (frame : BlockFrame s t)

theorem nextCommand_of_writesCmd {s : State} {w : Word} {i : Instr} (hw : NextWritesCmd s w) (hd : decode w = .ok i) :
    nextCommand s = some i := by
  unfold NextWritesCmd at hw
  cases h : s.env.schedule with
  | nil => simp [h] at hw
  | cons e es =>
    simp only [h, List.head?_cons, Option.some.injEq] at hw
    obtain rfl | rfl := hw <;> simp [nextCommand, h, hd, Except.toOption]

theorem step_of_schedule_cons {s : State} {e : Event} {es : List Event} (h : s.env.schedule = e :: es) :
    step s = perform e s.taken := by
  simp [step, State.taken, h]

theorem runCommand_next {w : Word} {s t : State} (h : runCommand w s = .next t) :
    (∃ c, t = s.finish 0 c) ∨
    ∃ i u, decode w = .ok i ∧ Effect s i u ∧ t = u.finish (commandValue i s) .noError := by
  unfold runCommand at h
  split at h
  · rename_i i hd
    obtain hc | ⟨u, hu, ht⟩ := exec_next h
    · exact .inl hc
    · exact .inr ⟨i, u, hd, hu, ht⟩
  · exact .inl ⟨_, raise_eq_next.1 h⟩

/-- The fifteen offsets of the map and their registers (10_state.md R52). -/
theorem Reg.ofOffset_eq_some (offset : Nat) (r : Reg) : Reg.ofOffset offset = some r ↔
    (offset, r) ∈ [(0x00, Reg.cmd), (0x04, .status), (0x08, .result), (0x0C, .cfg), (0x10, .pins), (0x14, .rate),
      (0x18, .clkDiv), (0x1C, .mclkDiv), (0x20, .sysHz), (0x24, .sysSrc), (0x28, .mulL), (0x2C, .mulR), (0x30, .ring),
      (0x34, .descSrc), (0x38, .descCnt)] := by
  unfold Reg.ofOffset
  split <;> simp_all [eq_comm]

/-- A register write runs a command at offset 0, the only offset of `CMD`, and is ignored elsewhere (10_state.md R52). -/
theorem hostWrite_next {o : Nat} {w : Word} {s t : State} (h : hostWrite o w s = .next t) :
    (o = 0 ∧ runCommand w s = .next t) ∨ t = s := by
  unfold hostWrite at h
  split at h
  · rename_i hr
    exact .inl ⟨by simpa using (Reg.ofOffset_eq_some o .cmd).1 hr, h⟩
  · exact .inr (by simpa [eq_comm] using h)
  · simp at h

theorem hostWriteByte_next {o : Nat} {v : Byte} {s t : State} (h : hostWriteByte o v s = .next t) :
    ∃ j, inbufIndex s.cfg o = some j ∧ t = { s with inbuf := Memory.write s.inbuf j v } := by
  unfold hostWriteByte at h
  split at h
  · rename_i j hj; exact ⟨j, hj, by simpa [eq_comm] using h⟩
  · simp at h

theorem hostRead_next {o : Nat} {s t : State} (h : hostRead o s = .next t) : ∃ v, t = s.answer v := by
  unfold hostRead at h
  split at h
  · exact ⟨_, by simpa [eq_comm] using h⟩
  · simp at h

theorem hostReadByte_next {o : Nat} {s t : State} (h : hostReadByte o s = .next t) : t = s.answer 0 := by
  unfold hostReadByte at h
  split at h
  · simpa [eq_comm] using h
  · simp at h

/-! ### Frames of the steps no command encodes -/

theorem irqBody_frame {occ : BitVec 8} {s t : State} (h : irqBody occ s = .next t) : BlockFrame s t := by
  obtain ⟨v, p, es, hh, -⟩ := hyst_eq occ (clearPend s)
  simp only [irqBody, hh, Host.Outcome.next.injEq] at h
  subst h
  obtain ⟨ht, -⟩ | ⟨-, -, ht⟩ := irqArm_cases v { clearPend s with play := p, trace := (clearPend s).trace ++ es }
  · rw [ht, armMuteBlock_eq]; constructor <;> rfl
  · rw [ht]; constructor <;> rfl

theorem fillBody_frame {occ : BitVec 8} {s t : State} (h : fillBody occ s = .next t) : BlockFrame s t := by
  obtain ⟨v, p, es, hh, -⟩ := hyst_eq occ s
  simp only [fillBody, hh] at h
  obtain ⟨rfl, -⟩ | ⟨-, -, block, -, rfl⟩ := fillFrom_next h <;> constructor <;> rfl

theorem ctx2Arm_frame {s t : State} (h : ctx2Arm s = .next t) : BlockFrame s t := by
  obtain ⟨-, rfl⟩ := ctx2Arm_next h
  constructor <;> rfl

theorem dmaRead_frame {s t : State} (h : dmaRead s = .next t) : BlockFrame s t := by
  obtain ⟨-, d, -, rfl⟩ := dmaRead_next h
  constructor <;> rfl

theorem dmaDone_frame {s t : State} (h : dmaDone s = .next t) : BlockFrame s t := by
  obtain ⟨rfl, -⟩ | ⟨-, -, ds, -, rfl⟩ := dmaDone_next h <;> constructor <;> rfl

theorem BlockFrame.of_taken {s t : State} (h : BlockFrame s.taken t) : BlockFrame s t :=
  ⟨h.cfg, h.lc, h.setup, h.clk, h.vol, h.res, h.inbuf⟩

theorem BlockFrame.refl (s : State) : BlockFrame s s := by constructor <;> rfl

/-- Everything a step can do to the fields that commands and the host write. -/
theorem step_effect {s t : State} (h : step s = .next t) : StepEffect s t := by
  cases hs : s.env.schedule with
  | nil =>
    obtain rfl : s = t := by simpa [step, hs] using h
    exact .quiet (.refl s)
  | cons e es =>
    have head : s.env.schedule.head? = some e := by rw [hs]; rfl
    have command {w : Word} (cmd : NextWritesCmd s w) (h : runCommand w s.taken = .next t) : StepEffect s t := by
      obtain ⟨c, ht⟩ | ⟨i, u, hd, hu, ht⟩ := runCommand_next h
      · exact .failed w c cmd ht
      · exact .succeeded w i u cmd hd hu ht
    rw [step_of_schedule_cons hs] at h
    cases e with
    | hostWrite o w =>
      obtain ⟨rfl, h⟩ | rfl := hostWrite_next h
      · exact command (.inl head) h
      · exact .quiet (BlockFrame.refl s.taken).of_taken
    | commandStale w =>
      obtain h | ⟨_, _, _, -, -, -, -, ht⟩ := runCommandStale_next h
      · exact command (.inr head) h
      · exact .failed w _ (.inr head) ht
    | hostWriteByte o v =>
      obtain ⟨j, -, ht⟩ := hostWriteByte_next h
      exact .byteWrite o v j head ht
    | platformReset =>
      obtain rfl : _ = t := by simpa [perform, platformReset] using h
      exact .reset (by simp [nextIsReset, hs]) rfl
    | hostRead o =>
      obtain ⟨v, rfl⟩ := hostRead_next h
      exact .quiet (by constructor <;> rfl)
    | hostReadByte o =>
      obtain rfl := hostReadByte_next h
      exact .quiet (by constructor <;> rfl)
    | platformClaim ok =>
      obtain rfl : _ = t := by simpa [perform, platformClaim] using h
      exact .quiet (by constructor <;> rfl)
    | dmaRead => exact .quiet (dmaRead_frame h).of_taken
    | dmaDone => exact .quiet (dmaDone_frame h).of_taken
    | irqStep => exact .quiet (irqBody_frame (irqStep_next h).2).of_taken
    | ctx2Fill => exact .quiet (fillBody_frame (ctx2Fill_next h).2).of_taken
    | ctx2Arm => exact .quiet (ctx2Arm_frame h).of_taken
    | irqStepStale => exact .quiet (irqBody_frame (irqStepStale_next h).2.2).of_taken
    | ctx2FillStale => exact .quiet (fillBody_frame (ctx2FillStale_next h).2.2).of_taken

/-! ## Who writes what -/

/-- Settles O51: only the effect of SET_VOLUME, and a reset, write the multipliers. -/
theorem volumeWrittenOnlyBySetVolume : Obligations.VolumeWrittenOnlyBySetVolume := by
  unfold Obligations.VolumeWrittenOnlyBySetVolume
  intro s t h
  cases step_effect h with
  | failed _ _ _ ht => subst ht; exact ⟨rfl, fun hv => absurd rfl hv⟩
  | succeeded w i u cmd dec effect ht =>
    subst ht
    refine ⟨effect.cfg_eq, fun hv => .inr ?_⟩
    by_contra hn
    refine hv (effect.vol_eq fun a ch hi => hn ⟨a, ch, ?_⟩)
    exact hi ▸ nextCommand_of_writesCmd cmd dec
  | byteWrite _ _ _ _ ht => subst ht; exact ⟨rfl, fun hv => absurd rfl hv⟩
  | reset head hc => exact ⟨hc, fun _ => .inl head⟩
  | quiet f => exact ⟨f.cfg, fun hv => absurd f.vol hv⟩

/-- Settles O53: CONFIGURE and CONFIGURE_PINS succeed only in `IDLE`, and of the effects only INITIALIZE's and SHUTDOWN's
change the lifecycle. -/
theorem sessionKeepsConfiguration : Obligations.SessionKeepsConfiguration := by
  unfold Obligations.SessionKeepsConfiguration
  intro s t h noReset
  have unchanged (hl : t.lc = s.lc) (hu : t.setup = s.setup) :
      (s.lc = .running → t.setup = s.setup) ∧
      (s.lc = .idle → t.lc = .running → ∃ r, nextCommand s = some (.initializeAt r) ∧ t.res = ⟨1, .noError⟩) ∧
      (s.lc = .running → t.lc = .idle → nextCommand s = some .shutdown) := by
    refine ⟨fun _ => hu, fun hs ht => ?_, fun hs ht => ?_⟩ <;> simp [hl, hs] at ht
  cases step_effect h with
  | failed _ _ _ ht => subst ht; exact unchanged rfl rfl
  | succeeded w i u cmd dec effect ht =>
    subst ht
    refine ⟨effect.setup_eq, fun hs hu => ?_, fun hs hu => ?_⟩
    · obtain ⟨r, rfl⟩ := effect.initializeAt_of_enters hs hu
      exact ⟨r, nextCommand_of_writesCmd cmd dec, rfl⟩
    · obtain rfl := effect.shutdown_of_leaves hs hu
      exact nextCommand_of_writesCmd cmd dec
  | byteWrite _ _ _ _ ht => subst ht; exact unchanged rfl rfl
  | reset head => simp [head] at noReset
  | quiet f => exact unchanged f.lc f.setup

/-- Settles O56: a failed and a successful command are writes to `CMD`, and no effect of a command writes `INBUF`. -/
theorem resultAndInputWriters : Obligations.ResultAndInputWriters := by
  unfold Obligations.ResultAndInputWriters
  intro s t h noReset
  cases step_effect h with
  | failed w c cmd ht => exact ⟨fun _ => ⟨w, cmd⟩, fun hi => absurd (by rw [ht]; rfl) hi⟩
  | succeeded w i u cmd dec effect ht => exact ⟨fun _ => ⟨w, cmd⟩, fun hi => absurd (by rw [ht]; exact effect.inbuf_eq) hi⟩
  | byteWrite o v j head ht => exact ⟨fun hr => absurd (by rw [ht]; rfl) hr, fun _ => ⟨o, v, head⟩⟩
  | reset head => simp [head] at noReset
  | quiet f => exact ⟨fun hr => absurd f.res hr, fun hi => absurd f.inbuf hi⟩

end Sys2Proof.Machine
end

section
/-! PROOFS. Reset (10_state.md R54), the register map and the byte writes of `INBUF` (R52). -/

namespace Sys2Proof.Machine

/-! ## Reset -/

/-- Settles O46: `State.resetWith` names every value. -/
theorem resetValues : Obligations.ResetValues := by
  unfold Obligations.ResetValues
  intro s
  have counts : ∀ b ∈ (State.resetWith s.cfg).ring.slots, b.count = 0 := fun b hb => by
    rw [List.eq_of_mem_replicate hb]
  exact ⟨_, rfl, rfl, rfl, rfl, rfl, rfl, rfl, rfl, List.length_replicate, counts, rfl, rfl, rfl, rfl, rfl, rfl, rfl,
    rfl, rfl, fun d hd => List.eq_of_mem_replicate hd⟩

theorem blockOk_nil (cap : Nat) : BlockOk cap ⟨[], 0⟩ := ⟨Nat.le_refl 0, Nat.zero_le cap⟩

theorem resetWith_ringOk {p : Params} (h : p.WF) : RingOk (State.resetWith p) := by
  have empty : ∀ b ∈ (State.resetWith p).ring.slots, b = ⟨[], 0⟩ := fun b hb => List.eq_of_mem_replicate hb
  have hn : 0 < p.n := Nat.lt_of_lt_of_le (by decide) h.n_min
  refine ⟨⟨List.length_replicate, Nat.zero_le _, hn, hn, (Nat.zero_mod _).symm⟩, fun b hb => ?_, fun b hb => ?_,
    fun hs => by cases hs⟩
  · rw [empty b hb]; exact blockOk_nil _
  · rw [empty b hb]; rfl

theorem resetWith_clockOk (p : Params) : ClockOk (State.resetWith p) where
  rate_legal := .inl rfl
  family := rfl
  session_rate := nofun
  session_div := nofun
  session_integer := nofun
  session_mclk_off := nofun
  session_mclk_on := nofun
  session_target := nofun
  session_detached := nofun
  sys_platform := fun _ => rfl

theorem resetWith_sequencerOk (p : Params) : SequencerOk (State.resetWith p) where
  pend_irq := nofun
  irq_progress := nofun
  busy_running := nofun
  irq_source := nofun
  ctx2_source := nofun
  pos_le := nofun
  scr0_ok := blockOk_nil _
  scr1_ok := blockOk_nil _

theorem resetWith_idleOk (p : Params) : IdleOk (State.resetWith p) where
  occ := fun _ => ⟨rfl, rfl, rfl⟩
  counts := fun _ b hb => by rw [List.eq_of_mem_replicate hb]
  loop := fun _ => ⟨rfl, rfl, rfl, rfl⟩

theorem resetWith_hostOk {p : Params} (h : p.WF) : HostOk (State.resetWith p) where
  inbuf_wf := .nil
  inbuf_window := nofun
  mulL_entry := List.mem_of_getElem? h.volTab_unity
  mulR_entry := List.mem_of_getElem? h.volTab_unity
  session_pins := nofun

theorem resetWith_inv {p : Params} (h : p.WF) : (State.resetWith p).Inv :=
  ⟨h, resetWith_ringOk h, resetWith_clockOk p, resetWith_sequencerOk p, resetWith_idleOk p, resetWith_hostOk h⟩

theorem resetWith_traceOk (p : Params) : TraceOk (State.resetWith p) := ⟨rfl, rfl, rfl⟩

/-- Settles O47, from the parts of the invariant at reset; binding P1 is a legal one. -/
theorem resetMeetsInvariants : Obligations.ResetMeetsInvariants :=
  ⟨fun p h => ⟨resetWith_inv h, resetWith_traceOk p⟩, resetWith_inv Params.p1_wf⟩

/-! ## The host port -/

theorem inbufIndex_of_lt {p : Params} {j : Nat} (h : j < 8 * p.pairsMax) : inbufIndex p (0x1000 + j) = some j := by
  simp [inbufIndex, h]

/-- Settles O59, by read after write of `INBUF`. -/
theorem inputByteWrite : Obligations.InputByteWrite := by
  unfold Obligations.InputByteWrite
  intro s j v hj
  have written : perform (.hostWriteByte (0x1000 + j) v) s = .next { s with inbuf := Memory.write s.inbuf j v } := by
    simp only [perform, hostWriteByte, inbufIndex_of_lt hj]
  exact ⟨_, written, Memory.read_write_same s.inbuf j v, fun k hk => Memory.read_write_other s.inbuf v hk, rfl⟩

theorem bitsAt_getLsbD {len : Nat} (v : BitVec len) {lo k : Nat} (hk : k < 32) :
    (bitsAt v lo).getLsbD k = (decide (lo ≤ k) && v.getLsbD (k - lo)) := by
  by_cases h : lo ≤ k
  · simp [bitsAt, hk, h, show ¬ k < lo by omega]
  · simp [bitsAt, h, show k < lo by omega]

theorem bitAt_getLsbD (b : Bool) {lo k : Nat} (hk : k < 32) :
    (bitAt b lo).getLsbD k = (decide (k = lo) && b) := by
  have only : (lo ≤ k ∧ k - lo = 0) ↔ k = lo := by omega
  simp [bitAt, bitsAt_getLsbD _ hk, BitVec.getLsbD_ofBool, ← only, ← Bool.and_assoc]

theorem bitsAt_toNat {len : Nat} (v : BitVec len) {lo : Nat} (h : lo + len ≤ 32) :
    (bitsAt v lo).toNat = 2 ^ lo * v.toNat := by
  have fits : 2 ^ lo * v.toNat < 2 ^ 32 := calc
    2 ^ lo * v.toNat < 2 ^ lo * 2 ^ len := Nat.mul_lt_mul_of_pos_left v.isLt (Nat.two_pow_pos lo)
    _ = 2 ^ (lo + len) := (Nat.pow_add 2 lo len).symm
    _ ≤ 2 ^ 32 := Nat.pow_le_pow_right (by decide) h
  have narrow : v.toNat < 2 ^ 32 := Nat.lt_of_le_of_lt (Nat.le_mul_of_pos_left _ (Nat.two_pow_pos lo)) fits
  rw [bitsAt, BitVec.toNat_shiftLeft, BitVec.toNat_setWidth, Nat.mod_eq_of_lt narrow, Nat.shiftLeft_eq, Nat.mul_comm,
    Nat.mod_eq_of_lt fits]

/-- The word `w` has the value `x`, which takes the bits below `hi`. -/
structure Packs (w : Word) (hi x : Nat) : Prop where
  toNat_eq : w.toNat = x
  lt : x < 2 ^ hi

theorem Packs.first {len : Nat} (v : BitVec len) (h : len ≤ 32) : Packs (bitsAt v 0) len v.toNat :=
  ⟨by rw [bitsAt_toNat v (by omega), Nat.pow_zero, Nat.one_mul], v.isLt⟩

/-- A field that starts above the bits of `w` adds to its value. -/
theorem Packs.or {w : Word} {lo x len : Nat} (p : Packs w lo x) (v : BitVec len) (h : lo + len ≤ 32) :
    Packs (w ||| bitsAt v lo) (lo + len) (x + 2 ^ lo * v.toNat) where
  toNat_eq := by
    rw [BitVec.toNat_or, bitsAt_toNat v h, p.toNat_eq, Nat.or_comm, ← Nat.two_pow_add_eq_or_of_lt p.lt, Nat.add_comm]
  lt := calc
    x + 2 ^ lo * v.toNat < 2 ^ lo * (v.toNat + 1) := by rw [Nat.mul_succ, Nat.add_comm]; exact Nat.add_lt_add_left p.lt _
    _ ≤ 2 ^ lo * 2 ^ len := Nat.mul_le_mul_left _ v.isLt
    _ = 2 ^ (lo + len) := (Nat.pow_add 2 lo len).symm

theorem Packs.orBit {w : Word} {lo x : Nat} (p : Packs w lo x) (b : Bool) (h : lo + 1 ≤ 32) :
    Packs (w ||| bitAt b lo) (lo + 1) (x + 2 ^ lo * b.toNat) := by
  rw [← BitVec.toNat_ofBool]
  exact p.or (BitVec.ofBool b) h

/-- `STATUS` bit by bit, the four bits of `ERR` last (10_state.md R52). -/
theorem status_getLsbD (s : State) {k : Nat} (hk : k < 32) : s.status.getLsbD k =
    ([s.lc.bit, s.play.mute, s.clk.is48k, s.dma.busy, s.dma.pend, s.ctx.ph.bit, s.ctx.cur, s.clk.periDet, s.play.ind,
      s.play.hsel.bit, s.full, s.empty, s.res.err.code.getLsbD 0,
      s.res.err.code.getLsbD 1, s.res.err.code.getLsbD 2, s.res.err.code.getLsbD 3].getD k false) := by
  simp only [State.status, BitVec.getLsbD_or, bitAt_getLsbD _ hk, bitsAt_getLsbD _ hk]
  interval_cases k <;> simp

/-- Settles O57: each field starts above the bits of those before it, so that they add up. -/
theorem registersPackFields : Obligations.RegistersPackFields := by
  unfold Obligations.RegistersPackFields
  refine ⟨Reg.ofOffset_eq_some, fun s => ⟨fun k hk => status_getLsbD s hk, ?cfg, ?pins, ?clkDiv, ?mclkDiv, ?ring, ?descSrc,
    rfl, rfl, rfl, ?sysSrc, rfl, rfl, rfl, rfl⟩⟩
  case cfg =>
    exact (((Packs.first s.setup.fmt.code (by decide)).or s.setup.jmode.code (by decide)).orBit s.setup.strat.bit
      (by decide)).toNat_eq
  case pins =>
    exact ((((Packs.first s.setup.pinData (by decide)).or s.setup.pinClkBase (by decide)).or s.setup.pinMclk
      (by decide)).orBit s.setup.mclkEn (by decide)).toNat_eq
  case clkDiv =>
    rw [State.regRead, BitVec.or_comm]
    exact ((Packs.first s.clk.divFrac (by decide)).or s.clk.divInt (by decide)).toNat_eq
  case mclkDiv =>
    rw [State.regRead, BitVec.or_comm]
    exact ((Packs.first s.clk.mdivFrac (by decide)).or s.clk.mdivInt (by decide)).toNat_eq
  case ring =>
    exact (((Packs.first s.ring.enq (by decide)).or s.ring.deq (by decide)).or s.ring.occ (by decide)).toNat_eq
  case descSrc =>
    rw [State.regRead, BitVec.or_comm]
    exact ((Packs.first s.dma.idx (by decide)).or s.dma.kind.code (by decide)).toNat_eq
  case sysSrc => exact (Packs.first s.clk.sysSrc.code (by decide)).toNat_eq

end Sys2Proof.Machine
end

section
/-! PROOFS. From the invariant no step reads a datum never written since reset (10_state.md R38). -/

namespace Sys2Proof.Machine

/-- The invariant says nothing of the schedule. -/
theorem State.Inv.withSchedule {s : State} (h : s.Inv) (es : List Event) : (s.withSchedule es).Inv :=
  ⟨h.cfg, { h.ring with }, { h.clk with }, { h.seq with }, { h.idle with }, { h.host with }⟩

/-! ## The datums a transfer reads were written -/

theorem SequencerOk.scr_ok {s : State} (h : SequencerOk s) (c : Bool) : BlockOk (scrWords s.cfg) (s.ctx.scr c) := by
  cases c
  · exact h.scr0_ok
  · exact h.scr1_ok

theorem scrIndex_ne_zero (c : Bool) : decide (scrIndex c ≠ 0) = c := by
  cases c <;> rfl

/-- A transfer in flight finds each of its datums written, whatever its source (43_sequencer_irq.md R227). -/
theorem armedDatum_of_busy {s : State} (h : SequencerOk s) (busy : s.dma.busy = true) {j : Nat}
    (hj : j < s.dma.count.toNat) : ∃ d, armedDatum s j = some d := by
  cases hs : s.setup.strat with
  | irq =>
    obtain ⟨hk, -, hc⟩ | ⟨hk, -, hc⟩ := h.irq_source busy hs
    · exact ⟨0, by simp [armedDatum, hk, muteBlock, ← hc, hj]⟩
    · exact ⟨_, by simp only [armedDatum, hk]; exact List.getElem?_eq_getElem (Nat.lt_of_lt_of_le hj hc)⟩
  | ctx2 =>
    obtain ⟨hk, hi, hc⟩ := h.ctx2_source busy hs
    have written : j < (s.ctx.scr (!s.ctx.cur)).data.length :=
      Nat.lt_of_lt_of_le (hc ▸ hj) (h.scr_ok (!s.ctx.cur)).count_le
    exact ⟨_, by simp only [armedDatum, hk, hi, scrIndex_ne_zero]; exact List.getElem?_eq_getElem written⟩

theorem armedDatums_of_busy {s : State} (h : SequencerOk s) (busy : s.dma.busy = true) {j k : Nat}
    (hk : j + k ≤ s.dma.count.toNat) : ∃ ds, armedDatums s j k = some ds := by
  induction k generalizing j with
  | zero => exact ⟨[], rfl⟩
  | succ k ih =>
    obtain ⟨d, hd⟩ := armedDatum_of_busy h busy (j := j) (by omega)
    obtain ⟨ds, hds⟩ := ih (j := j + 1) (by omega)
    exact ⟨d :: ds, by simp [armedDatums, hd, hds]⟩

/-- The slot at `DEQ` can be read up to its `COUNT` (40_ring_buffer.md R134). -/
theorem readFirst_of_ringOk {s : State} (h : RingOk s) : ∃ block, (s.ring.slot s.ring.deq.toNat).readFirst
    (s.ring.slot s.ring.deq.toNat).count.toNat = some block := by
  have inside : s.ring.deq.toNat < s.ring.slots.length := h.cursors.slots_length ▸ h.cursors.deq_lt
  exact ⟨_, SampleBlock.readFirst_eq_some.2 ⟨(h.slots_ok _ (s.ring.slot_mem _ inside)).count_le, rfl⟩⟩

/-! ## The steps that read datums complete -/

theorem dmaRead_of_enabled {s : State} (h : SequencerOk s) (he : dmaReadEnabled s = true) :
    ∃ t, dmaRead s = .next t := by
  obtain ⟨busy, left⟩ := dmaReadEnabled_eq.1 he
  obtain ⟨d, hd⟩ := armedDatum_of_busy h busy left
  exact ⟨s.deliver [d], by simp [dmaRead, he, hd]⟩

theorem dmaDone_completes {s : State} (h : SequencerOk s) : ∃ t, dmaDone s = .next t := by
  by_cases hb : s.lc = .running ∧ s.dma.busy = true
  · have := h.pos_le hb.2
    obtain ⟨ds, hds⟩ := armedDatums_of_busy h hb.2 (j := s.env.pos) (k := s.dma.count.toNat - s.env.pos) (by omega)
    exact ⟨transferComplete (s.deliver ds), by simp [dmaDone, hb, hds]⟩
  · exact ⟨s, by simp [dmaDone, hb]⟩

theorem fillFrom_completes {s : State} (h : RingOk s) (v : Verdict) : ∃ t, fillFrom v s = .next t := by
  cases v with
  | muted => exact ⟨_, rfl⟩
  | live =>
    unfold fillFrom
    simp only
    split
    · exact ⟨_, rfl⟩
    · rename_i hd
      obtain ⟨-, rfl, rfl, rfl⟩ := ringDequeue_eq_some.1 hd
      obtain ⟨block, hb⟩ := readFirst_of_ringOk h
      exact ⟨_, by rw [hb]⟩

theorem fillBody_completes {s : State} (h : RingOk s) (occ : BitVec 8) : ∃ t, fillBody occ s = .next t := by
  obtain ⟨v, p, es, hh, -⟩ := hyst_eq occ s
  simp only [fillBody, hh]
  exact fillFrom_completes (s := { s with play := p, trace := s.trace ++ es }) { h with } v

/-! ## Where a command can stop -/

theorem execConfigurePins_completes (d c m : BitVec 6) (en : Bool) (s : State) :
    ∃ t, execConfigurePins d c m en s = .next t := by
  unfold execConfigurePins
  split <;> exact ⟨_, rfl⟩

theorem execConfigure_completes (f : BitVec 3) (j : JitterMode) (st : Strategy) (s : State) :
    ∃ t, execConfigure f j st s = .next t := by
  unfold execConfigure
  repeat' split
  all_goals exact ⟨_, rfl⟩

theorem execInitialize_completes (r : BitVec 24) (s : State) : ∃ t, execInitialize r s = .next t := by
  unfold execInitialize
  repeat' split
  all_goals exact ⟨_, rfl⟩

theorem execChangeRate_completes (r : BitVec 24) (s : State) : ∃ t, execChangeRate r s = .next t := by
  unfold execChangeRate
  repeat' split
  all_goals exact ⟨_, rfl⟩

theorem execSetVolume_completes (a : BitVec 16) (ch : BitVec 2) (s : State) : ∃ t, execSetVolume a ch s = .next t := by
  unfold execSetVolume
  split <;> exact ⟨_, rfl⟩

/-- ENQUEUE answers, is refused for its length, or stops at an input byte never written (20_memory.md R75,
70_reset_and_hazards.md R356). -/
theorem execEnqueue_outcome (n : BitVec 22) (d : BitDepth) (s : State) :
    (∃ t, execEnqueue n d s = .next t) ∨ execEnqueue n d s = .refused (.malformedEnqueue n) ∨
      execEnqueue n d s = .fault .inbufUnwritten := by
  unfold execEnqueue
  split
  · exact .inl ⟨_, rfl⟩
  split
  · exact .inl ⟨_, rfl⟩
  split
  · exact .inr (.inl rfl)
  split
  · exact .inl ⟨_, rfl⟩
  split
  · exact .inr (.inr rfl)
  split <;> exact .inl ⟨_, rfl⟩

/-! ## No stop at an unwritten datum -/

/-- The outcome `o` is no stop at a datum never written. -/
def ReadsWritten (o : Out) : Prop := ∀ kind idx, o ≠ .fault (.datumUnwritten kind idx)

theorem ReadsWritten.of_next {o : Out} (h : ∃ t, o = .next t) : ReadsWritten o := by
  obtain ⟨t, rfl⟩ := h
  exact nofun

/-- No command reads a slot or a scratch area. -/
theorem exec_readsWritten (i : Instr) (s : State) : ReadsWritten (exec i s) := by
  cases i with
  | configurePins d c m en => exact .of_next (execConfigurePins_completes d c m en s)
  | configure f j st => exact .of_next (execConfigure_completes f j st s)
  | initializeAt r => exact .of_next (execInitialize_completes r s)
  | changeRate r => exact .of_next (execChangeRate_completes r s)
  | enqueue n d =>
    obtain h | h | h := execEnqueue_outcome n d s
    · exact .of_next h
    · exact fun _ _ => by simp [exec, h]
    · exact fun _ _ => by simp [exec, h]
  | occupancy => exact .of_next ⟨_, rfl⟩
  | setVolume a ch => exact .of_next (execSetVolume_completes a ch s)
  | setHandler h => exact .of_next ⟨_, rfl⟩
  | shutdown => exact .of_next ⟨_, rfl⟩

theorem runCommand_readsWritten (w : Word) (s : State) : ReadsWritten (runCommand w s) := by
  unfold runCommand
  split
  · exact exec_readsWritten _ s
  · exact .of_next ⟨_, rfl⟩

theorem runCommandStale_readsWritten (w : Word) (s : State) : ReadsWritten (runCommandStale w s) := by
  unfold runCommandStale
  split
  · split <;> exact .of_next ⟨_, rfl⟩
  · exact runCommand_readsWritten w s

/-- A sequencer step that is not enabled stops, but not at a datum. -/
theorem ReadsWritten.of_enabled {c : Prop} [Decidable c] {e : Event} {o : Out} (h : ∃ t, o = .next t) :
    ReadsWritten (if c then .fault (.stepNotEnabled e) else o) := by
  split
  · exact nofun
  · exact .of_next h

/-- From the invariant no event stops at a datum never written. -/
theorem perform_readsWritten (e : Event) {s : State} (h : s.Inv) : ReadsWritten (perform e s) := by
  cases e with
  | hostWrite o w =>
    simp only [perform, hostWrite]
    split
    · exact runCommand_readsWritten w s
    · exact .of_next ⟨s, rfl⟩
    · exact nofun
  | hostWriteByte o v =>
    simp only [perform, hostWriteByte]
    split <;> exact nofun
  | hostRead o =>
    simp only [perform, hostRead]
    split <;> exact nofun
  | hostReadByte o =>
    simp only [perform, hostReadByte]
    split <;> exact nofun
  | dmaRead =>
    cases he : dmaReadEnabled s with
    | false => exact fun _ _ => by simp [perform, dmaRead, he]
    | true => exact .of_next (dmaRead_of_enabled h.seq he)
  | dmaDone => exact .of_next (dmaDone_completes h.seq)
  | irqStep => exact .of_enabled ⟨_, rfl⟩
  | irqStepStale => exact .of_enabled ⟨_, rfl⟩
  | ctx2Fill => exact .of_enabled (fillBody_completes h.ring _)
  | ctx2FillStale => exact .of_enabled (fillBody_completes h.ring _)
  | ctx2Arm => exact .of_enabled ⟨_, rfl⟩
  | commandStale w => exact runCommandStale_readsWritten w s
  | platformClaim ok => exact .of_next ⟨_, rfl⟩
  | platformReset => exact .of_next ⟨_, rfl⟩

/-- Settles O50: in an invariant state every datum of the transfer in flight and of the slot at `DEQ` was written. -/
theorem noStepReadsUnwrittenDatum : Obligations.NoStepReadsUnwrittenDatum := by
  unfold Obligations.NoStepReadsUnwrittenDatum
  intro s kind idx h
  unfold step
  split
  · exact nofun
  · exact perform_readsWritten _ (h.withSchedule _) kind idx

end Sys2Proof.Machine
end

section
/-! PROOFS. The memory model (20_memory.md): which ENQUEUE is refused (R75), what an access of the register map does
(R79), and what one step runs (R84). -/

namespace Sys2Proof.Machine

/-! ## Refusals -/

/-- A length is malformed in one of three ways; a whole number of pairs that is no pair at all is the length 0. -/
theorem lengthOk_eq_false {p : Params} {bits n : Nat} : lengthOk p bits n = false ↔
    n = 0 ∨ ¬ pairBytes bits ∣ n ∨ p.pairsMax < n / pairBytes bits := by
  have zero (whole : pairBytes bits ∣ n) : n / pairBytes bits = 0 ↔ n = 0 :=
    ⟨Nat.eq_zero_of_dvd_of_div_eq_zero whole, fun h => by rw [h, Nat.zero_div]⟩
  rw [lengthOk, decide_eq_false_iff_not, ← Nat.dvd_iff_mod_eq_zero]
  by_cases whole : pairBytes bits ∣ n
  · simp only [whole, not_true_eq_false, true_and, false_or, ← zero whole]
    generalize n / pairBytes bits = pairs
    omega
  · simp [whole]

/-- ENQUEUE is refused exactly for a malformed length, once the lifecycle and the depth have passed (20_memory.md R75). -/
theorem execEnqueue_eq_refused {n : BitVec 22} {d : BitDepth} {s : State} {q : Refusal} :
    execEnqueue n d s = .refused q ↔ s.lc = .running ∧
      (∃ bits, bitsOf d = some bits ∧ lengthOk s.cfg bits n.toNat = false) ∧ q = .malformedEnqueue n := by
  constructor
  · intro h
    unfold execEnqueue at h
    split at h
    · cases h
    rename_i running
    split at h
    · cases h
    rename_i bits depth
    split at h
    · rename_i malformed
      cases h
      exact ⟨by simpa using running, ⟨bits, depth, malformed⟩, rfl⟩
    split at h
    · cases h
    split at h
    · cases h
    split at h <;> cases h
  · rintro ⟨running, ⟨bits, depth, malformed⟩, rfl⟩
    simp [execEnqueue, running, depth, malformed]

/-- Every command but ENQUEUE answers a next state. -/
theorem exec_completes {i : Instr} (other : ∀ n d, i ≠ .enqueue n d) (s : State) : ∃ t, exec i s = .next t := by
  cases i with
  | configurePins d c m en => exact execConfigurePins_completes d c m en s
  | configure f j st => exact execConfigure_completes f j st s
  | initializeAt r => exact execInitialize_completes r s
  | changeRate r => exact execChangeRate_completes r s
  | enqueue n d => exact absurd rfl (other n d)
  | occupancy => exact ⟨_, rfl⟩
  | setVolume a ch => exact execSetVolume_completes a ch s
  | setHandler h => exact ⟨_, rfl⟩
  | shutdown => exact ⟨_, rfl⟩

theorem enqueue_of_exec_refused {i : Instr} {s : State} {q : Refusal} (h : exec i s = .refused q) :
    ∃ n d, i = .enqueue n d := by
  by_contra other
  obtain ⟨t, ht⟩ := exec_completes (fun n d hi => other ⟨n, d, hi⟩) s
  simp [ht] at h

/-- Settles O22: no command but ENQUEUE can be refused, and ENQUEUE is for its length alone. -/
theorem malformedEnqueueRefused : Obligations.MalformedEnqueueRefused := by
  unfold Obligations.MalformedEnqueueRefused
  refine ⟨fun n d bits s running depth => ?_, fun i s q h => ?_⟩
  · calc
      _ ↔ lengthOk s.cfg bits n.toNat = false := lengthOk_eq_false.symm
      _ ↔ execEnqueue n d s = .refused (.malformedEnqueue n) := by simp [execEnqueue_eq_refused, running, depth]
  · obtain ⟨n, d, rfl⟩ := enqueue_of_exec_refused h
    obtain ⟨running, ⟨bits, depth, -⟩, hq⟩ := execEnqueue_eq_refused.1 h
    exact ⟨n, d, bits, rfl, depth, running, hq⟩

/-! ## Accesses of the register map -/

theorem runCommand_of_decode {w : Word} {i : Instr} (h : decode w = .ok i) (s : State) : runCommand w s = exec i s := by
  simp [runCommand, h]

theorem hostRead_of_reg {o : Nat} {r : Reg} (h : Reg.ofOffset o = some r) (s : State) :
    hostRead o s = .next (s.answer (s.regRead r)) := by
  simp [hostRead, h]

theorem hostWrite_of_cmd {o : Nat} (h : Reg.ofOffset o = some .cmd) (v : Word) (s : State) :
    hostWrite o v s = runCommand v s := by
  simp [hostWrite, h]

theorem hostWrite_of_readOnly {o : Nat} {r : Reg} (h : Reg.ofOffset o = some r) (hr : r ≠ .cmd) (v : Word) (s : State) :
    hostWrite o v s = .next s := by
  unfold hostWrite
  split <;> simp_all

/-- No register shows what the host last read. -/
@[simp] theorem State.regRead_answer (s : State) (v : Word) (q : Reg) : (s.answer v).regRead q = s.regRead q := by
  cases q <;> rfl

/-- Settles O58: a read writes the host's read data alone, and a register other than `CMD` ignores writes. -/
theorem registerAccessesHaveNoSideEffect : Obligations.RegisterAccessesHaveNoSideEffect := by
  unfold Obligations.RegisterAccessesHaveNoSideEffect
  intro s o r mapped
  refine ⟨⟨s.answer (s.regRead r), hostRead_of_reg mapped s, rfl, s.regRead_answer (s.regRead r), rfl⟩,
    fun other v => hostWrite_of_readOnly mapped other v s, ?_⟩
  rintro rfl v
  exact hostWrite_of_cmd mapped v s

/-! ## One step -/

/-- Settles O6: the step performs the entry it takes off the schedule, and offset 0 is `CMD`. -/
theorem stepRunsDecodedCommand : Obligations.StepRunsDecodedCommand := by
  unfold Obligations.StepRunsDecodedCommand
  have performs (s : State) (e : Event) (es : List Event) (h : s.env.schedule = e :: es) :
      step s = perform e (s.withSchedule es) := by
    rw [step_of_schedule_cons h, State.taken, h, List.tail_cons]
  refine ⟨fun s w es i hd h => ?_, performs, fun s h => by simp [step, h]⟩
  calc
    step s = perform (.hostWrite 0 w) (s.withSchedule es) := performs s _ es h
    _ = runCommand w (s.withSchedule es) := hostWrite_of_cmd (o := 0) rfl w _
    _ = exec i (s.withSchedule es) := runCommand_of_decode hd _

end Sys2Proof.Machine
end

section
/-! PROOFS. The command word (30_encoding.md): the fields of a word, the rows of the opcode map, what the decoder answers
(R100 to R103), and that decoder, encoder and opcode map agree. -/

namespace Sys2Proof

/-! ## Fields taken and placed -/

theorem field_getLsbD (w : Word) (lo len k : Nat) :
    (field w lo len).getLsbD k = (decide (k < len) && w.getLsbD (lo + k)) := by
  simp [field]

theorem place_getLsbD {len : Nat} (v : BitVec len) {lo k : Nat} (hk : k < 32) :
    (place v lo).getLsbD k = (decide (lo ≤ k) && v.getLsbD (k - lo)) :=
  Machine.bitsAt_getLsbD v hk

@[simp] theorem field_or (v w : Word) (lo len : Nat) : field (v ||| w) lo len = field v lo len ||| field w lo len :=
  BitVec.extractLsb'_or

@[simp] theorem field_ofNat (n lo len : Nat) (h : lo + len ≤ 32) :
    field (BitVec.ofNat 32 n) lo len = BitVec.ofNat len (n >>> lo) := by
  apply BitVec.eq_of_getLsbD_eq
  intro k hk
  rw [field_getLsbD, BitVec.getLsbD_ofNat, BitVec.getLsbD_ofNat, Nat.testBit_shiftRight]
  simp [hk, show lo + k < 32 by omega]

@[simp] theorem field_place_same {len lo : Nat} (v : BitVec len) (h : lo + len ≤ 32) : field (place v lo) lo len = v := by
  apply BitVec.eq_of_getLsbD_eq
  intro k hk
  rw [field_getLsbD, place_getLsbD v (by omega)]
  simp [hk]

/-- A placed value does not show in the bits below it. -/
@[simp] theorem field_place_below {len lo lo' len' : Nat} (v : BitVec len) (h : lo' + len' ≤ lo) (hw : lo ≤ 32) :
    field (place v lo) lo' len' = 0#len' := by
  apply BitVec.eq_of_getLsbD_eq
  intro k hk
  rw [field_getLsbD, place_getLsbD v (by omega)]
  simp [show ¬ lo ≤ lo' + k by omega]

/-- A placed value does not show in the bits above it. -/
@[simp] theorem field_place_above {len lo lo' len' : Nat} (v : BitVec len) (h : lo + len ≤ lo') (hw : lo' + len' ≤ 32) :
    field (place v lo) lo' len' = 0#len' := by
  apply BitVec.eq_of_getLsbD_eq
  intro k hk
  rw [field_getLsbD, place_getLsbD v (by omega)]
  simp [BitVec.getLsbD_of_ge v (lo' + k - lo) (by omega)]

@[simp] theorem place_zero (len lo : Nat) : place 0#len lo = 0#32 := by
  simp [place]

theorem ofBool_getLsbD (w : Word) (lo : Nat) : BitVec.ofBool (w.getLsbD lo) = field w lo 1 := by
  apply BitVec.eq_of_getLsbD_eq
  intro k hk
  obtain rfl : k = 0 := by omega
  rw [field_getLsbD]
  simp

theorem getLsbD_eq_field (w : Word) (k : Nat) : w.getLsbD k = (field w k 1).getLsbD 0 := by
  simp [← ofBool_getLsbD]

theorem place_field_getLsbD (w : Word) (lo len : Nat) {k : Nat} (hk : k < 32) :
    (place (field w lo len) lo).getLsbD k = (decide (lo ≤ k ∧ k < lo + len) && w.getLsbD k) := by
  rw [place_getLsbD _ hk, field_getLsbD]
  by_cases h : lo ≤ k
  · simp [h, show k - lo < len ↔ k < lo + len by omega]
  · simp [h]

/-- Two adjacent fields put back are the one field they make up. -/
theorem place_field_append (w : Word) (lo a b : Nat) :
    place (field w (lo + a) b) (lo + a) ||| place (field w lo a) lo = place (field w lo (a + b)) lo := by
  apply BitVec.eq_of_getLsbD_eq
  intro k hk
  simp only [BitVec.getLsbD_or, place_field_getLsbD w _ _ hk, ← Bool.and_or_distrib_right, ← Bool.decide_or]
  congr 2
  apply propext
  omega

theorem place_field_whole (w : Word) : place (field w 0 32) 0 = w := by
  apply BitVec.eq_of_getLsbD_eq
  intro k hk
  rw [place_field_getLsbD w 0 32 hk]
  simp [show k < 0 + 32 from hk]

/-! ## Rows of the opcode map -/

/-- The word stands in the row of the opcode `op` whose operands are the bits below `lo` (R102). -/
structure InRow (w : Word) (op : BitVec 8) (lo : Nat) : Prop where
  opcode : field w 24 8 = op
  zero : field w lo (24 - lo) = 0#(24 - lo)

/-- A row whose operands fill the payload constrains the opcode alone. -/
theorem InRow.of_opcode {w : Word} {op : BitVec 8} (h : field w 24 8 = op) : InRow w op 24 :=
  ⟨h, BitVec.of_length_zero⟩

/-- The row's mask selects the opcode and the must-be-zero field. -/
theorem and_mask_eq (w : Word) {lo : Nat} (hlo : lo ≤ 24) : w &&& (BitVec.allOnes 32 <<< lo) =
    place (field w 24 8) 24 ||| place (field w lo (24 - lo)) lo := by
  have append := place_field_append w lo (24 - lo) 8
  rw [Nat.add_sub_cancel' hlo] at append
  rw [append]
  apply BitVec.eq_of_getLsbD_eq
  intro k hk
  rw [place_field_getLsbD _ _ _ hk]
  simp only [BitVec.getLsbD_and, BitVec.getLsbD_shiftLeft, BitVec.getLsbD_allOnes]
  by_cases h : lo ≤ k
  · simp [h, hk, Nat.not_lt.2 h, show k - lo < 32 by omega, show k < lo + (24 - lo + 8) by omega]
  · simp [h, Nat.lt_of_not_le h]

/-- "A word `w` is the command iff `w & mask = match`" (R102), the mask read as fields. -/
theorem inRow_iff {w : Word} {op : BitVec 8} {lo : Nat} (hlo : lo ≤ 24) :
    InRow w op lo ↔ w &&& (BitVec.allOnes 32 <<< lo) = place op 24 := by
  rw [and_mask_eq w hlo]
  constructor
  · rintro ⟨opcode, zero⟩
    rw [opcode, zero, place_zero, BitVec.or_zero]
  · intro h
    have opcode := congrArg (field · 24 8) h
    have zero := congrArg (field · lo (24 - lo)) h
    simp only [field_or] at opcode zero
    rw [field_place_same _ (by decide), field_place_same _ (by decide), field_place_above _ (by omega) (by decide),
      BitVec.or_zero] at opcode
    rw [field_place_same _ (by omega), field_place_below _ (by omega) (by decide),
      field_place_below _ (by omega) (by decide), BitVec.zero_or] at zero
    exact ⟨opcode, zero⟩

/-- A word of a row is its opcode and its operands. -/
theorem InRow.word_eq {w : Word} {op : BitVec 8} {lo : Nat} (h : InRow w op lo) (hlo : lo ≤ 24) :
    w = place op 24 ||| place (field w 0 lo) 0 := by
  have payload := place_field_append w 0 lo (24 - lo)
  rw [Nat.zero_add, Nat.add_sub_cancel' hlo, h.zero, place_zero, BitVec.zero_or] at payload
  calc
    w = place (field w 24 8) 24 ||| place (field w 0 24) 0 := by
      rw [place_field_append w 0 24 8, place_field_whole]
    _ = place op 24 ||| place (field w 0 lo) 0 := by rw [h.opcode, payload]

theorem InRow.eq_opcode {w : Word} {op : BitVec 8} (h : InRow w op 0) : w = place op 24 := by
  have empty : field w 0 0 = 0#0 := BitVec.of_length_zero
  calc
    w = place op 24 ||| place (field w 0 0) 0 := h.word_eq (Nat.zero_le 24)
    _ = place op 24 := by rw [empty, place_zero, BitVec.or_zero]

/-! ## Field codes -/

@[simp] theorem JitterMode.ofCode_code (j : JitterMode) : JitterMode.ofCode j.code = j := by cases j <;> rfl
@[simp] theorem JitterMode.code_ofCode (c : BitVec 2) : (JitterMode.ofCode c).code = c := by revert c; decide

@[simp] theorem Strategy.ofBit_bit (st : Strategy) : Strategy.ofBit st.bit = st := by cases st <;> rfl
@[simp] theorem Strategy.bit_ofBit (b : Bool) : (Strategy.ofBit b).bit = b := by cases b <;> rfl

@[simp] theorem Handler.ofBit_bit (h : Handler) : Handler.ofBit h.bit = h := by cases h <;> rfl
@[simp] theorem Handler.bit_ofBit (b : Bool) : (Handler.ofBit b).bit = b := by cases b <;> rfl

@[simp] theorem BitDepth.ofCode_code (d : BitDepth) : BitDepth.ofCode d.code = d := by cases d <;> rfl
@[simp] theorem BitDepth.code_ofCode (c : BitVec 2) : (BitDepth.ofCode c).code = c := by revert c; decide

/-! ## The decoder -/

/-- What the decoder answers: per row of the opcode map the command with its operands, under the row's field constraint
(R101 to R103). -/
inductive Decodes (w : Word) : Instr → Prop
  | configurePins (row : InRow w 0x01 19) :
      Decodes w (.configurePins (field w 0 6) (field w 6 6) (field w 12 6) (w.getLsbD 18))
  | configure (row : InRow w 0x02 6) (named : (field w 0 3).toNat ≤ 4) :
      Decodes w (.configure (field w 0 3) (JitterMode.ofCode (field w 3 2)) (Strategy.ofBit (w.getLsbD 5)))
  | initializeAt (row : InRow w 0x03 24) : Decodes w (.initializeAt (field w 0 24))
  | changeRate (row : InRow w 0x04 24) : Decodes w (.changeRate (field w 0 24))
  | enqueue (row : InRow w 0x05 24) : Decodes w (.enqueue (field w 0 22) (BitDepth.ofCode (field w 22 2)))
  | occupancy (row : InRow w 0x06 0) : Decodes w .occupancy
  | setVolume (row : InRow w 0x07 18) (named : (field w 16 2).toNat ≤ 2) :
      Decodes w (.setVolume (field w 0 16) (field w 16 2))
  | setHandler (row : InRow w 0x08 1) : Decodes w (.setHandler (Handler.ofBit (w.getLsbD 0)))
  | shutdown (row : InRow w 0x09 0) : Decodes w .shutdown

theorem whenZero_eq_ok {len : Nat} {z : BitVec len} {a : Except DecodeError Instr} {i : Instr} :
    whenZero z a = .ok i ↔ z = 0 ∧ a = .ok i := by
  unfold whenZero
  split <;> simp_all

/-- The form of the two field constraints of R102. -/
theorem constrained_eq_ok {c : Prop} [Decidable c] {e : DecodeError} {i j : Instr} :
    (if c then Except.ok j else .error e) = .ok i ↔ c ∧ j = i := by
  split <;> simp_all

theorem decode_eq_ok {w : Word} {i : Instr} : decode w = .ok i ↔ Decodes w i := by
  constructor
  · intro h
    unfold decode at h
    split at h <;> rename_i op
    · obtain ⟨zero, ⟨⟩⟩ := whenZero_eq_ok.1 h
      exact .configurePins ⟨BitVec.eq_of_toNat_eq op, zero⟩
    · obtain ⟨zero, h⟩ := whenZero_eq_ok.1 h
      obtain ⟨named, rfl⟩ := constrained_eq_ok.1 h
      exact .configure ⟨BitVec.eq_of_toNat_eq op, zero⟩ named
    · cases h
      exact .initializeAt (.of_opcode (BitVec.eq_of_toNat_eq op))
    · cases h
      exact .changeRate (.of_opcode (BitVec.eq_of_toNat_eq op))
    · cases h
      exact .enqueue (.of_opcode (BitVec.eq_of_toNat_eq op))
    · obtain ⟨zero, ⟨⟩⟩ := whenZero_eq_ok.1 h
      exact .occupancy ⟨BitVec.eq_of_toNat_eq op, zero⟩
    · obtain ⟨zero, h⟩ := whenZero_eq_ok.1 h
      obtain ⟨named, rfl⟩ := constrained_eq_ok.1 h
      exact .setVolume ⟨BitVec.eq_of_toNat_eq op, zero⟩ named
    · obtain ⟨zero, ⟨⟩⟩ := whenZero_eq_ok.1 h
      exact .setHandler ⟨BitVec.eq_of_toNat_eq op, zero⟩
    · obtain ⟨zero, ⟨⟩⟩ := whenZero_eq_ok.1 h
      exact .shutdown ⟨BitVec.eq_of_toNat_eq op, zero⟩
    · cases h
  · intro h
    unfold decode
    cases h with
    | configurePins row | occupancy row | setHandler row | shutdown row =>
      rw [row.opcode]
      exact whenZero_eq_ok.2 ⟨row.zero, rfl⟩
    | configure row named | setVolume row named =>
      rw [row.opcode]
      exact whenZero_eq_ok.2 ⟨row.zero, constrained_eq_ok.2 ⟨named, rfl⟩⟩
    | initializeAt row | changeRate row | enqueue row =>
      rw [row.opcode]
      rfl

/-! ## Decoder and encoder -/

/-- The word of a command has its row's fixed bits (R102). -/
theorem encode_matchesRow (i : Instr) : encode i &&& i.rowMask = i.rowMatch := by
  cases i with
  | configurePins d c m en => exact Laws.MatchesRow.configurePins d c m en
  | configure f j st => exact Laws.MatchesRow.configure f j st
  | initializeAt r => exact Laws.MatchesRow.initializeAt r
  | changeRate r => exact Laws.MatchesRow.changeRate r
  | enqueue n d => exact Laws.MatchesRow.enqueue n d
  | occupancy => exact Laws.MatchesRow.occupancy
  | setVolume a ch => exact Laws.MatchesRow.setVolume a ch
  | setHandler h => exact Laws.MatchesRow.setHandler h
  | shutdown => exact Laws.MatchesRow.shutdown

/-- Under the row's constraint the word of a command stands in its row with its operands in their fields. -/
theorem decodes_encode {i : Instr} (h : i.wellFormed = true) : Decodes (encode i) i := by
  have matched := encode_matchesRow i
  cases i with
  | configurePins d c m en =>
    have decoded := Decodes.configurePins ((inRow_iff (by decide)).2 matched)
    rw [getLsbD_eq_field] at decoded
    simpa [encode] using decoded
  | configure f j st =>
    have decoded := Decodes.configure ((inRow_iff (by decide)).2 matched)
    rw [getLsbD_eq_field] at decoded
    simpa [encode, of_decide_eq_true h] using decoded
  | initializeAt r => simpa [encode] using Decodes.initializeAt ((inRow_iff (by decide)).2 matched)
  | changeRate r => simpa [encode] using Decodes.changeRate ((inRow_iff (by decide)).2 matched)
  | enqueue n d => simpa [encode] using Decodes.enqueue ((inRow_iff (by decide)).2 matched)
  | occupancy => exact .occupancy ((inRow_iff (by decide)).2 matched)
  | setVolume a ch =>
    simpa [encode, of_decide_eq_true h] using Decodes.setVolume ((inRow_iff (by decide)).2 matched)
  | setHandler hs =>
    have decoded := Decodes.setHandler ((inRow_iff (by decide)).2 matched)
    rw [getLsbD_eq_field] at decoded
    simpa [encode] using decoded
  | shutdown => exact .shutdown ((inRow_iff (by decide)).2 matched)

theorem Decodes.wellFormed {w : Word} {i : Instr} (h : Decodes w i) : i.wellFormed = true := by
  cases h with
  | configure _ named | setVolume _ named => exact decide_eq_true named
  | _ => rfl

/-- The operands, put back at their places, fill the bits below the must-be-zero field. -/
theorem Decodes.encode_eq {w : Word} {i : Instr} (h : Decodes w i) : encode i = w := by
  cases h with
  | configurePins row =>
    rw [encode, ofBool_getLsbD, BitVec.or_assoc, BitVec.or_assoc, BitVec.or_assoc, place_field_append w 0 6 6,
      place_field_append w 0 12 6, place_field_append w 0 18 1]
    exact (row.word_eq (by decide)).symm
  | configure row =>
    rw [encode, Strategy.bit_ofBit, JitterMode.code_ofCode, ofBool_getLsbD, BitVec.or_assoc, BitVec.or_assoc,
      place_field_append w 0 3 2, place_field_append w 0 5 1]
    exact (row.word_eq (by decide)).symm
  | enqueue row =>
    rw [encode, BitDepth.code_ofCode, BitVec.or_assoc, place_field_append w 0 22 2]
    exact (row.word_eq (by decide)).symm
  | setVolume row =>
    rw [encode, BitVec.or_assoc, place_field_append w 0 16 2]
    exact (row.word_eq (by decide)).symm
  | setHandler row =>
    rw [encode, Handler.bit_ofBit, ofBool_getLsbD]
    exact (row.word_eq (by decide)).symm
  | initializeAt row | changeRate row => exact (row.word_eq (by decide)).symm
  | occupancy row | shutdown row => exact row.eq_opcode.symm

/-- Settles O1: the word of a command has the row's fixed bits, and each operand is read back from where it was placed. -/
theorem decodeOfEncodedCommand : Obligations.DecodeOfEncodedCommand := by
  unfold Obligations.DecodeOfEncodedCommand
  exact fun i h => decode_eq_ok.2 (decodes_encode h)

/-- Settles O2: opcode, must-be-zero field and operands cover the word, so putting them back gives it again. -/
theorem encodeOfDecodedWord : Obligations.EncodeOfDecodedWord := by
  unfold Obligations.EncodeOfDecodedWord
  intro w i h
  have decoded := decode_eq_ok.1 h
  exact ⟨decoded.wellFormed, decoded.encode_eq⟩

/-- Settles O4, by running the decoder on the words. -/
theorem specWordsDecode : Obligations.SpecWordsDecode := by
  unfold Obligations.SpecWordsDecode
  decide

/-! ## Decoder and opcode map -/

/-- The rows of the opcode map: the opcode, and the bit below which the operands stand. -/
def opcodeRows : List (BitVec 8 × Nat) :=
  [(0x01, 19), (0x02, 6), (0x03, 24), (0x04, 24), (0x05, 24), (0x06, 0), (0x07, 18), (0x08, 1), (0x09, 0)]

theorem opcodeMap_eq : opcodeMap = opcodeRows.map fun r => (place r.1 24, BitVec.allOnes 32 <<< r.2) := by
  decide

theorem exists_mem_opcodeMap_iff {w : Word} :
    (∃ row ∈ opcodeMap, w &&& row.2 = row.1) ↔ ∃ op lo, (op, lo) ∈ opcodeRows ∧ InRow w op lo := by
  have below : ∀ r ∈ opcodeRows, r.2 ≤ 24 := by decide
  rw [opcodeMap_eq]
  constructor
  · rintro ⟨_, mem, h⟩
    obtain ⟨⟨op, lo⟩, hr, rfl⟩ := List.mem_map.1 mem
    exact ⟨op, lo, hr, (inRow_iff (below _ hr)).2 h⟩
  · rintro ⟨op, lo, hr, h⟩
    exact ⟨_, List.mem_map_of_mem hr, (inRow_iff (below _ hr)).1 h⟩

theorem and_opcode_iff {w : Word} {op : BitVec 8} : w &&& 0xFF000000 = place op 24 ↔ field w 24 8 = op :=
  ⟨fun h => ((inRow_iff (Nat.le_refl 24)).2 h).opcode, fun h => (inRow_iff (Nat.le_refl 24)).1 (.of_opcode h)⟩

theorem and_seven_toNat (w : Word) : (w &&& 7).toNat = (field w 0 3).toNat := by
  simp [field, Nat.and_two_pow_sub_one_eq_mod w.toNat 3]

theorem shiftRight_and_three_toNat (w : Word) : ((w >>> 16) &&& 3).toNat = (field w 16 2).toNat := by
  simp [field, Nat.and_two_pow_sub_one_eq_mod _ 2]

/-- The words that are commands, by their fields. -/
theorem commandWord_iff {w : Word} : Machine.CommandWord w ↔ (∃ op lo, (op, lo) ∈ opcodeRows ∧ InRow w op lo) ∧
    (field w 24 8 = 0x02 → (field w 0 3).toNat ≤ 4) ∧ (field w 24 8 = 0x07 → (field w 16 2).toNat ≤ 2) := by
  rw [← exists_mem_opcodeMap_iff, ← and_opcode_iff, ← and_opcode_iff, ← and_seven_toNat, ← shiftRight_and_three_toNat]
  rfl

theorem Decodes.inRow {w : Word} {i : Instr} (h : Decodes w i) : ∃ op lo, (op, lo) ∈ opcodeRows ∧ InRow w op lo := by
  cases h with
  | configure row | setVolume row | _ row =>
    refine ⟨_, _, ?_, row⟩
    decide

theorem Decodes.format_le {w : Word} {i : Instr} (h : Decodes w i) (op : field w 24 8 = 0x02) :
    (field w 0 3).toNat ≤ 4 := by
  cases h with
  | configure _ named => exact named
  | setVolume row | _ row => exact absurd (row.opcode.symm.trans op) (by decide)

theorem Decodes.channel_le {w : Word} {i : Instr} (h : Decodes w i) (op : field w 24 8 = 0x07) :
    (field w 16 2).toNat ≤ 2 := by
  cases h with
  | setVolume _ named => exact named
  | configure row | _ row => exact absurd (row.opcode.symm.trans op) (by decide)

theorem exists_decodes_iff {w : Word} : (∃ i, Decodes w i) ↔ Machine.CommandWord w := by
  rw [commandWord_iff]
  constructor
  · rintro ⟨i, h⟩
    exact ⟨h.inRow, h.format_le, h.channel_le⟩
  · rintro ⟨⟨op, lo, mem, row⟩, format, channel⟩
    simp only [opcodeRows, List.mem_cons, List.not_mem_nil, or_false, Prod.mk.injEq] at mem
    obtain ⟨rfl, rfl⟩ | ⟨rfl, rfl⟩ | ⟨rfl, rfl⟩ | ⟨rfl, rfl⟩ | ⟨rfl, rfl⟩ | ⟨rfl, rfl⟩ | ⟨rfl, rfl⟩ | ⟨rfl, rfl⟩ |
      ⟨rfl, rfl⟩ := mem
    · exact ⟨_, .configurePins row⟩
    · exact ⟨_, .configure row (format row.opcode)⟩
    · exact ⟨_, .initializeAt row⟩
    · exact ⟨_, .changeRate row⟩
    · exact ⟨_, .enqueue row⟩
    · exact ⟨_, .occupancy row⟩
    · exact ⟨_, .setVolume row (channel row.opcode)⟩
    · exact ⟨_, .setHandler row⟩
    · exact ⟨_, .shutdown row⟩

/-- Settles O3: a word that decodes is the word of its command, which has the row's fixed bits. -/
theorem wordIsCommandIffItMatchesRow : Obligations.WordIsCommandIffItMatchesRow := by
  unfold Obligations.WordIsCommandIffItMatchesRow
  intro w
  simp only [decode_eq_ok]
  exact ⟨exists_decodes_iff, fun i h => h.encode_eq ▸ encode_matchesRow i⟩

end Sys2Proof
end

section
/-! PROOFS. How a word written to `CMD` ends (30_encoding.md R103, R104). -/

namespace Sys2Proof.Machine

theorem runCommand_of_reserved {w : Word} (h : ¬ CommandWord w) (s : State) :
    runCommand w s = .next (s.finish 0 .illegalCommand) := by
  cases decoded : decode w with
  | ok i => exact absurd (exists_decodes_iff.1 ⟨i, decode_eq_ok.1 decoded⟩) h
  | error e => simp [runCommand, decoded, raise]

/-- Settles O5: a reserved word does not decode, and offset 0 is `CMD`. -/
theorem reservedWordRaisesIllegalCommand : Obligations.ReservedWordRaisesIllegalCommand := by
  unfold Obligations.ReservedWordRaisesIllegalCommand
  intro s w reserved
  have raised := runCommand_of_reserved reserved s
  exact ⟨raised, (hostWrite_of_cmd (o := 0) rfl w s).trans raised⟩

/-- No command raises the class 0: a command that ends with `ERR = 0` returns its value. -/
theorem exec_result_of_noError {i : Instr} {s t : State} (h : exec i s = .next t) (ok : t.res.err = .noError) :
    t.res.result = commandValue i s := by
  cases i with
  | configurePins d c m en => obtain rfl | ⟨-, rfl⟩ := execConfigurePins_next h <;> [cases ok; rfl]
  | configure f j st => obtain rfl | ⟨_, -, -, rfl⟩ := execConfigure_next h <;> [cases ok; rfl]
  | initializeAt r =>
    obtain ⟨rfl, -⟩ | ⟨rfl, -⟩ | ⟨_, -, -, -, -, -, rfl⟩ := execInitialize_next h <;> [cases ok; cases ok; rfl]
  | changeRate r =>
    obtain ⟨rfl, -⟩ | ⟨rfl, -⟩ | ⟨_, -, -, -, rfl⟩ := execChangeRate_next h <;> [cases ok; cases ok; rfl]
  | enqueue n d =>
    obtain ⟨rfl, -⟩ | ⟨rfl, -⟩ | ⟨rfl, -⟩ | ⟨_, _, _, -, -, -, -, -, rfl⟩ := execEnqueue_next h <;>
      [cases ok; cases ok; cases ok; rfl]
  | occupancy =>
    rw [complete_eq_next.1 h, commandValue, BitVec.ofNat_toNat]
    rfl
  | setVolume a ch => obtain ⟨rfl, -⟩ | ⟨-, rfl⟩ := execSetVolume_next h <;> [cases ok; rfl]
  | setHandler hs =>
    rw [complete_eq_next.1 h]
    rfl
  | shutdown => obtain ⟨-, rfl⟩ | ⟨-, rfl⟩ := execShutdown_next h <;> rfl

theorem exec_ends {i : Instr} {s t : State} (h : exec i s = .next t) :
    t.res = ⟨commandValue i s, .noError⟩ ∨ ∃ c, c ≠ .noError ∧ t = s.finish 0 c := by
  obtain ⟨c, rfl⟩ | ⟨u, -, rfl⟩ := exec_next h
  · by_cases hc : c = .noError
    · subst hc
      exact .inl (congrArg (ResultState.mk · .noError) (exec_result_of_noError h rfl))
    · exact .inr ⟨c, hc, rfl⟩
  · exact .inl rfl

/-- Settles O12: a word that decodes ends as its command does, and a reserved word raises `IllegalCommand`. -/
theorem commandEndsByWritingResultAndErr : Obligations.CommandEndsByWritingResultAndErr := by
  unfold Obligations.CommandEndsByWritingResultAndErr
  intro w s t h
  cases decoded : decode w with
  | ok i =>
    rw [runCommand_of_decode decoded] at h
    exact (exec_ends h).imp_left fun ht => ⟨i, rfl, ht⟩
  | error e =>
    simp only [runCommand, decoded] at h
    exact .inr ⟨.illegalCommand, nofun, raise_eq_next.1 h⟩

end Sys2Proof.Machine
end

section
/-! PROOFS. The ring (40_ring_buffer.md): its primitives keep the cursors (R131) and are those of a bounded queue (R137), and
OCCUPANCY shows the counter (R136). -/

namespace Sys2Proof.Machine

/-! ## The primitives keep the cursors (40_ring_buffer.md R131) -/

theorem RingCursors.enqueue {n : Nat} {r r' : Ring} {block : List Word} (h : RingCursors n r) (width : n ≤ 255)
    (he : ringEnqueue n block r = some r') : RingCursors n r' := by
  obtain ⟨notFull, rfl⟩ := ringEnqueue_eq_some.1 he
  obtain ⟨hs, ho, hq, hd, hc⟩ := h
  have occ : (r.occ + 1).toNat = r.occ.toNat + 1 := occ_succ_toNat (by omega)
  have enq : (advance n r.enq).toNat = (r.enq.toNat + 1) % n := advance_toNat r.enq (by omega) width
  refine ⟨by simp [hs], by simp only [occ]; omega, ?_, hd, ?_⟩
  · simp only [enq]; exact Nat.mod_lt _ (by omega)
  · simp only [enq, occ, hc, Nat.mod_add_mod, Nat.add_assoc]

theorem RingCursors.dequeue {n : Nat} {r r' : Ring} {i : BitVec 8} {c : Word} (h : RingCursors n r) (width : n ≤ 255)
    (hd : ringDequeue n r = some (i, c, r')) : RingCursors n r' := by
  obtain ⟨notEmpty, -, -, rfl⟩ := ringDequeue_eq_some.1 hd
  obtain ⟨hs, ho, hq, hd, hc⟩ := h
  have occ : (r.occ - 1).toNat = r.occ.toNat - 1 := occ_pred_toNat notEmpty
  have deq : (advance n r.deq).toNat = (r.deq.toNat + 1) % n := advance_toNat r.deq (by omega) width
  refine ⟨hs, by simp only [occ]; omega, hq, ?_, ?_⟩
  · simp only [deq]; exact Nat.mod_lt _ (by omega)
  · simp only [deq, occ, hc, Nat.mod_add_mod]; congr 1; omega

theorem RingCursors.clear {n : Nat} {r : Ring} (h : RingCursors n r) : RingCursors n r.clear := by
  have := h.enq_lt
  exact ⟨by simp [h.slots_length], by simp, by simp; omega, by simp; omega, by simp⟩

/-! ## The primitives as operations of a queue (40_ring_buffer.md R132, R134, R137) -/

/-- A block whose length fits `COUNT` is read back from the slot it is stored in. -/
theorem SampleBlock.counted_store (b : SampleBlock) {block : List Word} (fits : block.length < 2 ^ 32) :
    (b.store block).counted = (block, block.length) := by
  have count : (BitVec.ofNat 32 block.length).toNat = block.length := by simp; omega
  simp only [counted, contents, store_count, count]
  simp [store]

/-- Two places of a ring that are less than a round apart are different slots. -/
theorem add_mod_ne_of_lt {n d k m : Nat} (h : k < m) (hm : m < n) : (d + k) % n ≠ (d + m) % n := by
  intro same
  have : k ≡ m [MOD n] := Nat.ModEq.add_left_cancel' d same
  exact absurd (Nat.ModEq.eq_of_lt_of_lt this (h.trans hm) hm) h.ne

/-- An enqueue writes the slot behind the newest block, so it appends to the queue. -/
theorem Ring.queue_enqueue {n : Nat} {r r' : Ring} {block : List Word} (h : RingCursors n r) (width : n ≤ 255)
    (fits : block.length < 2 ^ 32) (he : ringEnqueue n block r = some r') :
    r'.queue n = r.queue n ++ [(block, block.length)] := by
  obtain ⟨notFull, rfl⟩ := ringEnqueue_eq_some.1 he
  obtain ⟨hs, ho, hq, hd, hc⟩ := h
  have occ : (r.occ + 1).toNat = r.occ.toNat + 1 := occ_succ_toNat (by omega)
  have slot (k : Nat) := r.slot_set r.enq.toNat k ((r.slot r.enq.toNat).store block) (hs ▸ hq) (r.occ + 1)
    (advance n r.enq) r.deq
  simp only [Ring.queue, occ, List.range_succ, List.map_append, List.map_cons, List.map_nil, slot]
  congr 1
  · refine List.map_congr_left fun k hk => ?_
    have older : (r.deq.toNat + k) % n ≠ r.enq.toNat := hc ▸ add_mod_ne_of_lt (List.mem_range.1 hk) (by omega)
    rw [if_neg older]
  · rw [if_pos hc.symm, SampleBlock.counted_store _ fits]

/-- A dequeue takes the slot at `DEQ`, the head of the queue. -/
theorem Ring.queue_dequeue {n : Nat} {r r' : Ring} {i : BitVec 8} {c : Word} (h : RingCursors n r) (width : n ≤ 255)
    (hd : ringDequeue n r = some (i, c, r')) :
    r.queue n = ((r.slot i.toNat).data.take c.toNat, c.toNat) :: r'.queue n := by
  obtain ⟨notEmpty, rfl, rfl, rfl⟩ := ringDequeue_eq_some.1 hd
  have inside := h.deq_lt
  have occ : r.occ.toNat = (r.occ - 1).toNat + 1 := by rw [occ_pred_toNat notEmpty]; omega
  have deq : (advance n r.deq).toNat = (r.deq.toNat + 1) % n := advance_toNat r.deq (by omega) width
  simp only [Ring.queue, deq, Nat.mod_add_mod]
  rw [occ, List.range_succ_eq_map, List.map_cons, List.map_map, Nat.add_zero, Nat.mod_eq_of_lt inside]
  refine congrArg₂ List.cons rfl (List.map_congr_left fun k _ => ?_)
  simp only [Function.comp_apply, Ring.slot, Nat.succ_eq_add_one, Nat.add_assoc, Nat.add_comm 1 k]

/-! ## Sequences of calls -/

/-- The ring is within its bounds, and what was stored is what came back followed by what is still queued. -/
structure RingHistory.Fifo (n : Nat) (h : RingHistory) : Prop where
  cursors : RingCursors n h.ring
  order : h.stored = h.returned ++ h.ring.queue n

theorem RingHistory.Fifo.call {n : Nat} {h : RingHistory} {c : RingCall} (hf : h.Fifo n) (width : n ≤ 255)
    (fits : ∀ block, c = .enqueue block → block.length < 2 ^ 32) : (h.call n c).Fifo n := by
  cases c with
  | enqueue block =>
    simp only [RingHistory.call]
    split
    · exact hf
    · rename_i r he
      refine ⟨hf.cursors.enqueue width he, ?_⟩
      simp only [Ring.queue_enqueue hf.cursors width (fits block rfl) he, hf.order, List.append_assoc]
  | dequeue =>
    simp only [RingHistory.call]
    split
    · exact hf
    · rename_i i c r hd
      refine ⟨hf.cursors.dequeue width hd, ?_⟩
      simp only [hf.order, Ring.queue_dequeue hf.cursors width hd, List.append_assoc, List.singleton_append]

theorem RingHistory.Fifo.calls {n : Nat} {h : RingHistory} {cs : List RingCall} (hf : h.Fifo n) (width : n ≤ 255)
    (fits : ∀ block, RingCall.enqueue block ∈ cs → block.length < 2 ^ 32) : (h.calls n cs).Fifo n := by
  induction cs generalizing h with
  | nil => exact hf
  | cons c cs ih =>
    exact ih (hf.call width fun block hc => fits block (hc ▸ List.mem_cons_self))
      fun block hb => fits block (List.mem_cons_of_mem c hb)

theorem RingHistory.fifo_of_empty {n : Nat} {r : Ring} (slots : r.slots.length = n) (empty : r.occ = 0)
    (enq : r.enq.toNat < n) (deq : r.deq = r.enq) : (RingHistory.mk r [] []).Fifo n where
  cursors := ⟨slots, by simp [empty], enq, deq ▸ enq, by simp [empty, deq, Nat.mod_eq_of_lt enq]⟩
  order := by simp [Ring.queue, empty]

/-- Settles O35: an empty ring is first-in first-out, and each call keeps it so. -/
theorem ringIsFifoQueue : Obligations.RingIsFifoQueue := by
  unfold Obligations.RingIsFifoQueue
  intro n r cs _ width slots empty enq deq fits
  obtain ⟨cursors, order⟩ := (RingHistory.fifo_of_empty slots empty enq deq).calls width fits
  exact ⟨cursors, order, fun _ => ringEnqueue_eq_none, ringDequeue_eq_none⟩

/-! ## OCCUPANCY -/

/-- Settles O31: zero extension keeps the number (40_ring_buffer.md R136). -/
theorem occupancyReturnsCounter : Obligations.OccupancyReturnsCounter := by
  unfold Obligations.OccupancyReturnsCounter
  intro s
  show complete (s.ring.occ.setWidth 32) s = _
  rw [BitVec.ofNat_toNat, complete]

end Sys2Proof.Machine
end

section
/-! PROOFS. What each entry of the schedule can do when it answers a next state, said once (20_memory.md R84), and from it who
writes the ring's cursors (40_ring_buffer.md R138). -/

namespace Sys2Proof.Machine

/-- An entry of the schedule that writes the word `w` to `CMD`, read exactly or stale. -/
def Event.WritesCmd (e : Event) (w : Word) : Prop := e = .hostWrite 0 w ∨ e = .commandStale w

/-- An entry of the schedule that lets the consumer take a block: `irq_step` or `ctx2_fill`, read exactly or stale. -/
def Event.Consumes (e : Event) : Prop := e ∈ [Event.irqStep, .irqStepStale, .ctx2Fill, .ctx2FillStale]

/-- The ring with its oldest block taken (R134). -/
def State.dequeued (s : State) : State :=
  { s with ring := { s.ring with deq := advance s.cfg.n s.ring.deq, occ := s.ring.occ - 1 } }

/-- The state `hyst` leaves: the play state and the trace written (43_sequencer_irq.md R222). -/
def State.judged (s : State) (p : PlayState) (es : List OutEvent) : State := { s with play := p, trace := s.trace ++ es }

/-- The slot at `DEQ` armed, as `irq_step` does it (43_sequencer_irq.md R220). -/
def armOldest (s : State) : State := arm .slot s.ring.deq (s.ring.slot s.ring.deq.toNat).count s.dequeued

/-- `SCR[CUR]` armed, and the loop on to the other area (44_sequencer_second_context.md R254). -/
def armScratch (s : State) : State :=
  { arm .scratch (scrIndex s.ctx.cur) (s.ctx.scr s.ctx.cur).count s with
    ctx := { s.ctx with cur := !s.ctx.cur, ph := .fill } }

/-- What an entry of the schedule can do when it answers a next state, with the conditions it does so under. -/
inductive Performs (s : State) : Event → State → Prop
  | failed {e : Event} {w : Word} (c : ErrorClass) (cmd : e.WritesCmd w) : Performs s e (s.finish 0 c)
  | succeeded {e : Event} {w : Word} {i : Instr} {u : State} (cmd : e.WritesCmd w) (dec : decode w = .ok i)
      (effect : Effect s i u) : Performs s e (u.finish (commandValue i s) .noError)
  | ignoredWrite (o : Nat) (w : Word) : Performs s (.hostWrite o w) s
  | byteWrite (o : Nat) (v : Byte) (j : Nat) (mapped : inbufIndex s.cfg o = some j) :
      Performs s (.hostWriteByte o v) { s with inbuf := Memory.write s.inbuf j v }
  | read (o : Nat) (v : Word) : Performs s (.hostRead o) (s.answer v)
  | byteRead (o : Nat) : Performs s (.hostReadByte o) (s.answer 0)
  | claim (ok : Bool) : Performs s (.platformClaim ok) { s with env := { s.env with hwClaimOk := ok } }
  | reset : Performs s .platformReset { State.resetWith s.cfg with env :=
      { (State.resetWith s.cfg).env with schedule := s.env.schedule, hwClaimOk := s.env.hwClaimOk } }
  | delivered (d : Word) (enabled : dmaReadEnabled s = true) : Performs s .dmaRead (s.deliver [d])
  | ignoredDone : Performs s .dmaDone s
  | transferred (ds : List Word) (running : s.lc = .running) (busy : s.dma.busy = true) :
      Performs s .dmaDone (transferComplete (s.deliver ds))
  | armedMute {e : Event} (p : PlayState) (es : List OutEvent) (consumes : e.Consumes) (enabled : irqEnabled s = true) :
      Performs s e (armMuteBlock ((clearPend s).judged p es))
  | armedOldest {e : Event} (p : PlayState) (es : List OutEvent) (consumes : e.Consumes) (enabled : irqEnabled s = true)
      (occupied : s.ring.occ.toNat ≠ 0) : Performs s e (armOldest ((clearPend s).judged p es))
  | filledMute {e : Event} (p : PlayState) (es : List OutEvent) (consumes : e.Consumes) (enabled : fillEnabled s = true) :
      Performs s e (fillScratch (muteBlock s.cfg) (s.judged p es))
  | filledOldest {e : Event} (p : PlayState) (es : List OutEvent) (block : List Word) (consumes : e.Consumes)
      (enabled : fillEnabled s = true) (occupied : s.ring.occ.toNat ≠ 0)
      (oldest : (s.ring.slot s.ring.deq.toNat).readFirst (s.ring.slot s.ring.deq.toNat).count.toNat = some block) :
      Performs s e (fillScratch block (s.judged p es).dequeued)
  | armedScratch (enabled : armEnabled s = true) : Performs s .ctx2Arm (armScratch s)

theorem runCommand_performs {e : Event} {w : Word} {s t : State} (cmd : e.WritesCmd w) (h : runCommand w s = .next t) :
    Performs s e t := by
  obtain ⟨c, rfl⟩ | ⟨i, u, hd, hu, rfl⟩ := runCommand_next h
  · exact .failed c cmd
  · exact .succeeded cmd hd hu

theorem irqBody_performs {e : Event} {occ : BitVec 8} {s t : State} (consumes : e.Consumes)
    (enabled : irqEnabled s = true) (h : irqBody occ s = .next t) : Performs s e t := by
  obtain ⟨v, p, es, hh, -⟩ := hyst_eq occ (clearPend s)
  simp only [irqBody, hh, Host.Outcome.next.injEq] at h
  subst h
  obtain ⟨ht, -⟩ | ⟨-, occupied, ht⟩ := irqArm_cases v ((clearPend s).judged p es)
  · exact ht ▸ .armedMute p es consumes enabled
  · exact ht ▸ .armedOldest p es consumes enabled occupied

theorem fillBody_performs {e : Event} {occ : BitVec 8} {s t : State} (consumes : e.Consumes)
    (enabled : fillEnabled s = true) (h : fillBody occ s = .next t) : Performs s e t := by
  obtain ⟨v, p, es, hh, -⟩ := hyst_eq occ s
  simp only [fillBody, hh] at h
  obtain ⟨rfl, -⟩ | ⟨-, occupied, block, oldest, rfl⟩ := fillFrom_next h
  · exact .filledMute p es consumes enabled
  · exact .filledOldest p es block consumes enabled occupied oldest

theorem perform_next {e : Event} {s t : State} (h : perform e s = .next t) : Performs s e t := by
  cases e with
  | hostWrite o w =>
    obtain ⟨rfl, h⟩ | rfl := hostWrite_next h
    · exact runCommand_performs (.inl rfl) h
    · exact .ignoredWrite o w
  | commandStale w =>
    obtain h | ⟨_, _, _, -, -, -, -, rfl⟩ := runCommandStale_next h
    · exact runCommand_performs (.inr rfl) h
    · exact .failed _ (.inr rfl)
  | hostWriteByte o v =>
    obtain ⟨j, mapped, rfl⟩ := hostWriteByte_next h
    exact .byteWrite o v j mapped
  | hostRead o =>
    obtain ⟨v, rfl⟩ := hostRead_next h
    exact .read o v
  | hostReadByte o => exact hostReadByte_next h ▸ .byteRead o
  | platformClaim ok =>
    cases h
    exact .claim ok
  | platformReset =>
    cases h
    exact .reset
  | dmaRead =>
    obtain ⟨enabled, d, -, rfl⟩ := dmaRead_next h
    exact .delivered d enabled
  | dmaDone =>
    obtain ⟨rfl, -⟩ | ⟨running, busy, ds, -, rfl⟩ := dmaDone_next h
    · exact .ignoredDone
    · exact .transferred ds running busy
  | irqStep =>
    obtain ⟨enabled, h⟩ := irqStep_next h
    exact irqBody_performs (by simp [Event.Consumes]) enabled h
  | irqStepStale =>
    obtain ⟨enabled, -, h⟩ := irqStepStale_next h
    exact irqBody_performs (by simp [Event.Consumes]) enabled h
  | ctx2Fill =>
    obtain ⟨enabled, h⟩ := ctx2Fill_next h
    exact fillBody_performs (by simp [Event.Consumes]) enabled h
  | ctx2FillStale =>
    obtain ⟨enabled, -, h⟩ := ctx2FillStale_next h
    exact fillBody_performs (by simp [Event.Consumes]) enabled h
  | ctx2Arm =>
    obtain ⟨enabled, rfl⟩ := ctx2Arm_next h
    exact .armedScratch enabled

/-- A step waits, with nothing scheduled, or does what the schedule's first entry can do. -/
theorem step_performs {s t : State} (h : step s = .next t) :
    t = s ∨ ∃ e, s.env.schedule.head? = some e ∧ Performs s.taken e t := by
  cases hs : s.env.schedule with
  | nil => exact .inl (by simpa [step, hs, eq_comm] using h)
  | cons e es => exact .inr ⟨e, rfl, perform_next (step_of_schedule_cons hs ▸ h)⟩

/-! ## Who writes the ring's cursors -/

section
variable {s u : State} {i : Instr} (e : Effect s i u) (notInit : ∀ r, i ≠ .initializeAt r) (notShutdown : i ≠ .shutdown)
include e notInit notShutdown

/-- Of the commands that do not clear the ring only ENQUEUE writes it. -/
theorem Effect.ring_eq (notEnqueue : ∀ n d, i ≠ .enqueue n d) : u.ring = s.ring := by
  cases e with
  | initializeAt r => exact absurd rfl (notInit r)
  | shutdownIdle | shutdownRunning => exact absurd rfl notShutdown
  | enqueue n d => exact absurd rfl (notEnqueue n d)
  | changeRate => simp [clockCommit_eq]
  | _ => rfl

/-- No command that does not clear the ring writes `DEQ`. -/
theorem Effect.deq_eq : u.ring.deq = s.ring.deq := by
  by_cases enqueues : ∃ n d, i = .enqueue n d
  · obtain ⟨n, d, rfl⟩ := enqueues
    cases e with
    | enqueue _ _ _ _ r _ _ _ _ stored =>
      obtain ⟨-, rfl⟩ := ringEnqueue_eq_some.1 stored
      rfl
  · rw [e.ring_eq notInit notShutdown fun n d hi => enqueues ⟨n, d, hi⟩]

end

/-- Everything a step can do to the ring but clear it: nothing, what a command does, or what the consumer's steps do, which
never write `ENQ`. -/
theorem Performs.ring_cases {s t : State} {e : Event} (h : Performs s e t) (noReset : e ≠ .platformReset) :
    t.ring = s.ring ∨ (∃ w i u, e.WritesCmd w ∧ decode w = .ok i ∧ Effect s i u ∧ t.ring = u.ring) ∨
      (e.Consumes ∧ t.ring.enq = s.ring.enq) := by
  cases h with
  | succeeded cmd dec effect => exact .inr (.inl ⟨_, _, _, cmd, dec, effect, rfl⟩)
  | reset => exact absurd rfl noReset
  | armedMute p es consumes | armedOldest p es consumes | filledMute p es consumes =>
    exact .inr (.inr ⟨consumes, rfl⟩)
  | filledOldest p es block consumes => exact .inr (.inr ⟨consumes, rfl⟩)
  | _ => exact .inl rfl

/-- A step that clears no ring leaves it alone, or runs an ENQUEUE, which keeps `DEQ`, or is the consumer's, which keeps `ENQ`. -/
theorem step_ring_cases {s t : State} (h : step s = .next t) (noReset : nextIsReset s = false)
    (notShutdown : nextCommand s ≠ some .shutdown) (notInit : ∀ r, nextCommand s ≠ some (.initializeAt r)) :
    t.ring = s.ring ∨ ((∃ n d, nextCommand s = some (.enqueue n d)) ∧ t.ring.deq = s.ring.deq) ∨
      ∃ e, e.Consumes ∧ s.env.schedule.head? = some e ∧ t.ring.enq = s.ring.enq := by
  obtain rfl | ⟨e, head, performs⟩ := step_performs h
  · exact .inl rfl
  have eNoReset : e ≠ .platformReset := by
    rintro rfl
    obtain ⟨es, hs⟩ := List.head?_eq_some_iff.1 head
    simp [nextIsReset, hs] at noReset
  obtain hr | ⟨w, i, u, cmd, dec, effect, hr⟩ | ⟨consumes, hq⟩ := performs.ring_cases eNoReset
  · exact .inl hr
  · have next : nextCommand s = some i :=
      nextCommand_of_writesCmd (by simpa [NextWritesCmd, Event.WritesCmd, head] using cmd) dec
    have iNotInit (r) : i ≠ .initializeAt r := fun hi => notInit r (hi ▸ next)
    have iNotShutdown : i ≠ .shutdown := fun hi => notShutdown (hi ▸ next)
    by_cases enqueues : ∃ n d, i = .enqueue n d
    · obtain ⟨n, d, rfl⟩ := enqueues
      exact .inr (.inl ⟨⟨n, d, next⟩, hr ▸ effect.deq_eq iNotInit iNotShutdown⟩)
    · exact .inl (hr ▸ effect.ring_eq iNotInit iNotShutdown fun n d hi => enqueues ⟨n, d, hi⟩)
  · exact .inr (.inr ⟨e, consumes, head, hq⟩)

/-- Settles O54: each of the three kinds of step writes the cursors its context owns. -/
theorem cursorsWrittenByTheirContext : Obligations.CursorsWrittenByTheirContext := by
  unfold Obligations.CursorsWrittenByTheirContext
  intro s t h noReset notShutdown notInit
  obtain hr | ⟨enqueue, deq⟩ | ⟨e, consumes, head, enq⟩ := step_ring_cases h noReset notShutdown notInit
  · simp [hr]
  · exact ⟨fun _ => enqueue, fun hd => absurd deq hd, fun _ => .inl enqueue⟩
  · exact ⟨fun hn => absurd enq hn, fun _ => ⟨e, consumes, head⟩, fun _ => .inr ⟨e, consumes, head⟩⟩

end Sys2Proof.Machine
end

section
/-! PROOFS. Block lengths: what ENQUEUE packs and what a fill expands fits a slot and a scratch area (10_state.md R38, R46,
41_packer_volume.md R158 to R163). -/

namespace Sys2Proof.Machine

/-- The datums one sample pair is packed to (41_packer_volume.md R159 to R161). -/
def pairWidth : Policy → Nat
  | .standard | .exdf => 2
  | .dualMono => 4

theorem packPair_length (pol : Policy) (pair : Word × Word) : (packPair pol pair).length = pairWidth pol := by
  cases pol <;> rfl

theorem pack_length (pol : Policy) (ps : List (Word × Word)) : (pack pol ps).length = ps.length * pairWidth pol := by
  simp [pack, List.length_flatMap, packPair_length]

theorem pairWidth_le (pol : Policy) : pairWidth pol ≤ 4 := by cases pol <;> decide

theorem two_dvd_pairWidth (pol : Policy) : 2 ∣ pairWidth pol := by cases pol <;> decide

theorem unpair_length (block : List Word) : (unpair block).length = block.length / 2 := by
  induction block using unpair.induct with
  | case1 l r rest ih => simp only [unpair, List.length_cons, ih]; omega
  | case2 block other =>
    match block, other with
    | [], _ => rfl
    | [_], _ => simp [unpair]
    | l :: r :: rest, other => exact absurd rfl (other l r rest)

/-- Expansion at most doubles a block (R162). -/
theorem expand_length_le (pol : Policy) (block : List Word) : (expand pol block).length ≤ 2 * block.length := by
  cases pol <;> simp only [expand, pack_length, unpair_length, pairWidth] <;> omega

theorem scaledPairs_length (bits : Nat) (v : VolumeState) (bytes : List Byte) :
    (scaledPairs bits v bytes).length = bytes.length / pairBytes bits := by
  simp [scaledPairs]

/-- A block fits a slot of the ring: its size, whole pairs, and under `CTX2` the `STANDARD` layout (10_state.md R38, R158). -/
structure FitsSlot (s : State) (block : List Word) : Prop where
  length_le : block.length ≤ 4 * s.cfg.pairsMax
  even : 2 ∣ block.length
  standard : s.setup.strat = .ctx2 → block.length ≤ 2 * s.cfg.pairsMax

/-- The block of a well-formed length fits a slot (20_memory.md R75). -/
theorem enqueueBlock_fitsSlot {s : State} {bits n : Nat} {bytes : List Byte} (hn : bytes.length = n)
    (ok : lengthOk s.cfg bits n = true) : FitsSlot s (enqueueBlock bits bytes s) := by
  obtain ⟨-, -, pairs⟩ := of_decide_eq_true ok
  have len : (enqueueBlock bits bytes s).length = n / pairBytes bits * pairWidth (enqueuePolicy s) := by
    rw [enqueueBlock, pack_length, scaledPairs_length, hn]
  refine ⟨?_, ?_, fun strat => ?_⟩
  · rw [len, Nat.mul_comm]; exact Nat.mul_le_mul (pairWidth_le (enqueuePolicy s)) pairs
  · exact len ▸ Dvd.dvd.mul_left (two_dvd_pairWidth (enqueuePolicy s)) _
  · have standard : enqueuePolicy s = .standard := by simp [enqueuePolicy, strat]
    rw [len, standard, Nat.mul_comm]
    exact Nat.mul_le_mul_left 2 pairs

/-- `COUNT` never exceeds the length stored. -/
theorem SampleBlock.store_count_le (b : SampleBlock) (block : List Word) :
    (b.store block).count.toNat ≤ block.length := by
  simp only [store_count, BitVec.toNat_ofNat]; exact Nat.mod_le _ _

theorem BlockOk.store {cap : Nat} {b : SampleBlock} (h : BlockOk cap b) {block : List Word} (fits : block.length ≤ cap) :
    BlockOk cap (b.store block) where
  count_le := (b.store_count_le block).trans (by rw [SampleBlock.store_length]; exact Nat.le_max_left _ _)
  data_le := by rw [SampleBlock.store_length]; exact Nat.max_le.2 ⟨fits, h.data_le⟩

theorem BlockOk.clear {cap : Nat} {b : SampleBlock} (h : BlockOk cap b) : BlockOk cap b.clear :=
  ⟨Nat.zero_le _, h.data_le⟩

/-- An expanded block of at most half a scratch area fits one (10_state.md R46). -/
theorem expand_fitsScratch {p : Params} {block : List Word} (pol : Policy)
    (h : block.length ≤ max (2 * p.pairsMax) p.muteLen) : (expand pol block).length ≤ scrWords p :=
  (expand_length_le pol block).trans (Nat.mul_le_mul_left 2 h)

end Sys2Proof.Machine
end

section
/-! PROOFS. The ring's part of the state invariant under the ring's operations (10_state.md R38, 40_ring_buffer.md R131). -/

namespace Sys2Proof.Machine

section
variable {s : State} (h : RingOk s)
include h

/-- Enqueueing a block that fits keeps the ring (40_ring_buffer.md R132). -/
theorem RingOk.enqueue (width : s.cfg.n ≤ 255) {block : List Word} {r : Ring} (fits : FitsSlot s block)
    (stored : ringEnqueue s.cfg.n block s.ring = some r) : RingOk { s with ring := r } := by
  have cursors := h.cursors.enqueue width stored
  obtain ⟨-, rfl⟩ := ringEnqueue_eq_some.1 stored
  have written : s.ring.slot s.ring.enq.toNat ∈ s.ring.slots :=
    s.ring.slot_mem _ (h.cursors.slots_length ▸ h.cursors.enq_lt)
  have count := (s.ring.slot s.ring.enq.toNat).store_count_le block
  refine ⟨cursors, fun b hb => ?_, fun b hb => ?_, fun strat b hb => ?_⟩ <;>
    obtain hb | rfl := List.mem_or_eq_of_mem_set hb
  · exact h.slots_ok b hb
  · exact (h.slots_ok _ written).store fits.length_le
  · exact h.slots_even b hb
  · have := fits.even
    simp only [SampleBlock.store_count, BitVec.toNat_ofNat]; omega
  · exact h.slots_standard strat b hb
  · exact count.trans (fits.standard strat)

theorem RingOk.dequeued (width : s.cfg.n ≤ 255) (occupied : s.ring.occ.toNat ≠ 0) : RingOk s.dequeued :=
  { h with cursors := h.cursors.dequeue width (ringDequeue_eq_some.2 ⟨occupied, rfl, rfl, rfl⟩) }

theorem RingOk.clear : RingOk { s with ring := s.ring.clear } := by
  refine ⟨h.cursors.clear, fun b hb => ?_, fun b hb => ?_, fun _ b hb => ?_⟩ <;>
    obtain ⟨b, old, rfl⟩ := List.mem_map.1 hb
  · exact (h.slots_ok b old).clear
  · rfl
  · exact Nat.zero_le _

/-- The slot at `DEQ` is one of the ring's. -/
theorem RingOk.oldest_mem : s.ring.slot s.ring.deq.toNat ∈ s.ring.slots :=
  s.ring.slot_mem _ (h.cursors.slots_length ▸ h.cursors.deq_lt)

end

end Sys2Proof.Machine
end

section
/-! PROOFS. The clock's part of the state invariant: what a plan holds, and that committing one keeps the clock state legal and
on target (42_clock_configurator.md R186, R191 to R194). -/

namespace Sys2Proof.Machine

theorem checkedDivide_int_pos {num den : Nat} {b : Bool} {d : BitVec 16 × BitVec 8}
    (h : checkedDivide num den b = some d) : 1 ≤ d.1.toNat := by
  obtain ⟨pos, -, int, -⟩ := checkedDivide_eq_some.1 h
  exact int ▸ pos

theorem checkedDivide_frac_zero {num den : Nat} {d : BitVec 16 × BitVec 8}
    (h : checkedDivide num den false = some d) : d.2 = 0 := by
  obtain ⟨-, -, -, frac⟩ := checkedDivide_eq_some.1 h
  exact BitVec.eq_of_toNat_eq frac

/-- A system clock target is a PLL or an external clock (42_clock_configurator.md R182). -/
theorem target_ne_platform {p : Params} {m : JitterMode} {f : Family} {t : SysSource × Word} (h : target p m f = some t) :
    t.1 ≠ .platform := by
  cases m <;> cases h <;> nofun

/-- The system clock a plan runs on: the target where the family counts as crossed, else the clock as it is (R186). -/
theorem planSystem_cases (rate : Word) (first : Bool) (s : State) :
    (∃ t, target s.cfg s.setup.jmode (fam rate.toNat) = some t ∧ planSystem rate first s = (true, t)) ∨
    ((crossing rate first s = true → target s.cfg s.setup.jmode (fam rate.toNat) = none) ∧
      planSystem rate first s = (false, s.clk.sysSrc, s.clk.sysHz)) := by
  unfold planSystem
  split
  · cases ht : target s.cfg s.setup.jmode (fam rate.toNat) with
    | none => exact .inr ⟨fun _ => rfl, rfl⟩
    | some t => exact .inl ⟨t, rfl, rfl⟩
  · rename_i hc; exact .inr ⟨fun crossed => absurd crossed hc, rfl⟩

/-- Without a crossing the new rate is of the family recorded (R191). -/
theorem fam_eq_of_not_crossing {rate : Word} {first : Bool} {s : State} (h : ClockOk s)
    (hc : crossing rate first s = false) : first = false ∧ fam rate.toNat = fam s.clk.rate.toNat := by
  obtain ⟨notFirst, same⟩ := Bool.or_eq_false_iff.1 hc
  refine ⟨notFirst, ?_⟩
  rw [h.family] at same
  cases hn : fam rate.toNat <;> cases ho : fam s.clk.rate.toNat <;> simp_all

/-- The plan a commit carries out, in its parts: the system clock it leaves is the planned one, and both dividers are legal. -/
structure Planned (s : State) (rate : Word) (first : Bool) (p : ClockPlan) : Prop where
  rate_eq : p.rate = rate
  fam_eq : p.fam = fam rate.toNat
  system : committedSystem p s = (planSystem rate first s).2
  div_pos : 1 ≤ p.div.1.toNat
  div_integer : s.setup.jmode ≠ .default → p.div.2 = 0
  mdiv_off : s.setup.mclkEn = false → p.mdiv = (0, 0)
  mdiv_pos : s.setup.mclkEn = true → 1 ≤ p.mdiv.1.toNat
  mdiv_integer : s.setup.jmode ≠ .default → p.mdiv.2 = 0

theorem planned_of_clockPlan {s : State} {rate : Word} {first : Bool} {p : ClockPlan}
    (h : clockPlan rate first s = some p) : Planned s rate first p := by
  obtain ⟨d, m, hd, hm, rfl⟩ := clockPlan_eq_some.1 h
  refine ⟨rfl, rfl, ?system, checkedDivide_int_pos hd, fun hj => ?divInteger, fun off => ?off, fun on => ?on,
    fun hj => ?mdivInteger⟩
  case system =>
    obtain ⟨t, -, hp⟩ | ⟨-, hp⟩ := planSystem_cases rate first s <;> rw [hp] <;> rfl
  case divInteger =>
    rw [decide_eq_false hj] at hd
    exact checkedDivide_frac_zero hd
  case off => simpa [planMclk, off, eq_comm] using hm
  case on =>
    rw [planMclk, if_pos on] at hm
    exact checkedDivide_int_pos hm
  case mdivInteger =>
    rw [planMclk, decide_eq_false hj] at hm
    split at hm
    · exact checkedDivide_frac_zero hm
    · cases hm; rfl

/-- A plan made for a session's first rate, or in a session that is on target, is on target (R191). -/
theorem planSystem_on_target {s : State} {rate : Word} {first : Bool} (h : ClockOk s)
    (session : first = true ∨ s.lc = .running) {t : SysSource × Word}
    (ht : target s.cfg s.setup.jmode (fam rate.toNat) = some t) : (planSystem rate first s).2 = t := by
  obtain ⟨t', ht', hp⟩ | ⟨hc, hp⟩ := planSystem_cases rate first s
  · rw [hp]; exact Option.some.inj (ht'.symm.trans ht)
  · have notCrossed : crossing rate first s = false := by
      cases crossed : crossing rate first s with
      | false => rfl
      | true => cases ht.symm.trans (hc crossed)
    obtain ⟨notFirst, sameFam⟩ := fam_eq_of_not_crossing h notCrossed
    have running : s.lc = .running := session.resolve_left (by simp [notFirst])
    obtain ⟨src, hz⟩ := h.session_target running t (sameFam ▸ ht)
    rw [hp, src, hz]

theorem planSystem_platform {s : State} {rate : Word} {first : Bool} (h : ClockOk s)
    (hp : (planSystem rate first s).2.1 = .platform) : (planSystem rate first s).2.2 = s.cfg.fSys0 := by
  obtain ⟨t, ht, hs⟩ | ⟨-, hs⟩ := planSystem_cases rate first s <;> rw [hs] at hp ⊢
  · exact absurd hp (target_ne_platform ht)
  · exact h.sys_platform hp

/-- The first commit of a session in a PLL mode finds the peripheral clock detached or detaches it (R185). -/
theorem detached_of_first {s : State} (hj : s.setup.jmode = .lj ∨ s.setup.jmode = .ljoc) :
    (s.clk.periDet || detaches true s) = true := by
  cases hd : s.clk.periDet <;> simp [detaches, hd, hj]

/-- Committing a plan for a legal rate keeps the clock state, and leaves one a session can run on (R186, R191 to R194). -/
theorem ClockOk.commit {s : State} {rate : Word} {first : Bool} {p : ClockPlan} (h : ClockOk s)
    (legal : rateLegal rate.toNat = true) (plan : clockPlan rate first s = some p)
    (session : first = true ∨ s.lc = .running) (l : Lifecycle) : ClockOk { clockCommit p first s with lc := l } := by
  obtain ⟨rfl, hfam, system, divPos, divInteger, mdivOff, mdivPos, mdivInteger⟩ := planned_of_clockPlan plan
  rw [clockCommit_eq, system]
  exact {
    rate_legal := .inr legal
    family := by simp only [hfam]
    session_rate := fun _ zero => by
      have zero : p.rate = 0 := zero
      rw [zero] at legal
      cases legal
    session_div := fun _ => divPos
    session_integer := fun _ hj => ⟨divInteger hj, mdivInteger hj⟩
    session_mclk_off := fun _ off => Prod.mk.inj (mdivOff off)
    session_mclk_on := fun _ on => mdivPos on
    session_target := fun _ t ht => Prod.mk.inj (planSystem_on_target h session ht)
    session_detached := fun _ hj => by
      obtain rfl | running := session
      · exact detached_of_first hj
      · rw [h.session_detached running hj, Bool.true_or]
    sys_platform := planSystem_platform h }

end Sys2Proof.Machine
end

section
/-! PROOFS. The sequencer's part of the state invariant: at most one transfer in flight, from a source that is valid and not
being filled (43_sequencer_irq.md R226, 44_sequencer_second_context.md R253, 60_exceptions.md R312). -/

namespace Sys2Proof.Machine

/-- Both scratch areas hold what was written to them (10_state.md R46). -/
abbrev ScratchOk (s : State) : Prop := ∀ c, BlockOk (scrWords s.cfg) (s.ctx.scr c)

theorem ScratchOk.clear {s : State} (h : ScratchOk s) : ScratchOk { s with ctx := s.ctx.clear } := fun c => by
  cases c
  · exact (h false).clear
  · exact (h true).clear

/-- With no transfer in flight only the interrupt can be pending, and that exactly in an `IRQ` session (60_exceptions.md R312). -/
theorem SequencerOk.of_not_busy {s : State} (scr : ScratchOk s) (busy : s.dma.busy = false)
    (pend : s.dma.pend = true ↔ s.lc = .running ∧ s.setup.strat = .irq) : SequencerOk s where
  pend_irq := pend.1
  irq_progress := fun running strat => by rw [busy, pend.2 ⟨running, strat⟩]; rfl
  busy_running := fun hb => by simp [busy] at hb
  irq_source := fun hb => by simp [busy] at hb
  ctx2_source := fun hb => by simp [busy] at hb
  pos_le := fun hb => by simp [busy] at hb
  scr0_ok := scr false
  scr1_ok := scr true

/-- In `IDLE` no transfer is in flight. -/
theorem SequencerOk.not_busy_of_idle {s : State} (h : SequencerOk s) (idle : s.lc = .idle) : s.dma.busy = false := by
  cases busy : s.dma.busy with
  | false => rfl
  | true => cases idle.symm.trans (h.busy_running busy)

/-- Under `CTX2` no interrupt is pending. -/
theorem SequencerOk.not_pend_of_ctx2 {s : State} (h : SequencerOk s) (strat : s.setup.strat = .ctx2) :
    s.dma.pend = false := by
  cases pend : s.dma.pend with
  | false => rfl
  | true => cases strat.symm.trans (h.pend_irq pend).2

/-- The transfer an `IRQ` session arms: the mute block or a slot (43_sequencer_irq.md R226). -/
theorem SequencerOk.of_irq_armed {s : State} (scr : ScratchOk s) (running : s.lc = .running)
    (strat : s.setup.strat = .irq) (pend : s.dma.pend = false) {kind : SourceKind} {idx : BitVec 8} {cnt : Word}
    (source : (kind = .muteBlock ∧ idx = 0 ∧ cnt.toNat = s.cfg.muteLen) ∨
      (kind = .slot ∧ idx.toNat < s.cfg.n ∧ cnt.toNat ≤ (s.ring.slot idx.toNat).data.length)) :
    SequencerOk (arm kind idx cnt s) where
  pend_irq := fun hp => by simp [pend] at hp
  irq_progress := fun _ _ => by simp [pend]
  busy_running := fun _ => running
  irq_source := fun _ _ => source
  ctx2_source := fun _ hs => by simp [strat] at hs
  pos_le := fun _ => Nat.zero_le _
  scr0_ok := scr false
  scr1_ok := scr true

theorem armMuteBlock_sequencerOk {s : State} (cfg : s.cfg.WF) (scr : ScratchOk s) (running : s.lc = .running)
    (strat : s.setup.strat = .irq) (pend : s.dma.pend = false) : SequencerOk (armMuteBlock s) := by
  have := cfg.mute_width
  exact .of_irq_armed scr running strat pend (.inl ⟨rfl, rfl, by simp; omega⟩)

theorem armOldest_sequencerOk {s : State} (ring : RingOk s) (scr : ScratchOk s) (running : s.lc = .running)
    (strat : s.setup.strat = .irq) (pend : s.dma.pend = false) : SequencerOk (armOldest s) :=
  .of_irq_armed (s := s.dequeued) scr running strat pend
    (.inr ⟨rfl, ring.cursors.deq_lt, (ring.slots_ok _ ring.oldest_mem).count_le⟩)

theorem armScratch_sequencerOk {s : State} (scr : ScratchOk s) (running : s.lc = .running)
    (strat : s.setup.strat = .ctx2) (pend : s.dma.pend = false) : SequencerOk (armScratch s) where
  pend_irq := fun hp => by simp [armScratch, pend] at hp
  irq_progress := fun _ hs => by simp [armScratch, strat] at hs
  busy_running := fun _ => running
  irq_source := fun _ hs => by simp [armScratch, strat] at hs
  ctx2_source := fun _ _ => by simp [armScratch]
  pos_le := fun _ => Nat.zero_le _
  scr0_ok := scr false
  scr1_ok := scr true

/-- An enqueue keeps the datums of the slot a transfer may be reading (40_ring_buffer.md R132). -/
theorem SequencerOk.enqueue {s : State} (h : SequencerOk s) (cursors : RingCursors s.cfg.n s.ring) {block : List Word}
    {r : Ring} (stored : ringEnqueue s.cfg.n block s.ring = some r) : SequencerOk { s with ring := r } := by
  obtain ⟨-, rfl⟩ := ringEnqueue_eq_some.1 stored
  refine { h with irq_source := fun busy strat => ?_ }
  obtain source | ⟨hk, hi, hc⟩ := h.irq_source busy strat
  · exact .inl source
  · refine .inr ⟨hk, hi, hc.trans ?_⟩
    rw [Ring.slot_set _ _ _ _ (cursors.slots_length ▸ cursors.enq_lt)]
    split
    · rename_i same
      rw [same, SampleBlock.store_length]
      exact Nat.le_max_right _ _
    · exact Nat.le_refl _

/-- Under `CTX2` no transfer reads the ring. -/
theorem SequencerOk.dequeued {s : State} (h : SequencerOk s) (strat : s.setup.strat = .ctx2) : SequencerOk s.dequeued :=
  { h with irq_source := fun _ hs => by cases strat.symm.trans hs }

/-- A fill writes `SCR[CUR]`, and a transfer in flight reads the other area (44_sequencer_second_context.md R253). -/
theorem SequencerOk.fillScratch {s : State} (h : SequencerOk s) {block : List Word} (strat : s.setup.strat = .ctx2)
    (fits : block.length ≤ max (2 * s.cfg.pairsMax) s.cfg.muteLen) : SequencerOk (fillScratch block s) := by
  have scr : ScratchOk (Machine.fillScratch block s) := fun c => by
    simp only [fillScratch_ctx, fillScratch_cfg, ContextState.scr_with_ph, ContextState.scr_setScr]
    split
    · exact (h.scr_ok _).store (expand_fitsScratch _ fits)
    · exact h.scr_ok c
  exact { h with
    irq_source := fun _ hs => by simp [strat] at hs
    ctx2_source := fun busy hs => by
      simpa [ContextState.scr_setScr] using h.ctx2_source busy hs
    scr0_ok := scr false
    scr1_ok := scr true }

end Sys2Proof.Machine
end

section
/-! PROOFS. Every step of every agent keeps the state invariant: every effect of a command does, and everything else an entry of
the schedule can do. -/

namespace Sys2Proof.Machine

/-! ## Parts of the invariant -/

/-- In `IDLE` the clock state owes nothing to a session, whatever the configuration. -/
theorem ClockOk.of_idle {s t : State} (h : ClockOk s) (idle : t.lc = .idle) (clk : t.clk = s.clk) (cfg : t.cfg = s.cfg) :
    ClockOk t := by
  constructor
  case rate_legal => exact clk ▸ h.rate_legal
  case family => exact clk ▸ h.family
  case sys_platform => exact clk ▸ cfg ▸ h.sys_platform
  all_goals exact fun running => by cases idle.symm.trans running

theorem IdleOk.of_running {s : State} (running : s.lc = .running) : IdleOk s := by
  constructor <;> exact fun idle => by cases running.symm.trans idle

/-- A 24-bit rate as a register value is the same number. -/
theorem toNat_setWidth_rate (r : BitVec 24) : (r.setWidth 32).toNat = r.toNat :=
  BitVec.toNat_setWidth_of_le (by decide)

/-- INITIALIZE and SHUTDOWN leave an empty ring and the loop at its start (45_volume_lifecycle.md R276, R279). -/
theorem IdleOk.of_cleared {s t : State} (ring : t.ring = s.ring.clear) (ctx : t.ctx = s.ctx.clear) : IdleOk t where
  occ := fun _ => by simp [ring]
  counts := fun _ b hb => by
    rw [ring] at hb
    obtain ⟨b, -, rfl⟩ := List.mem_map.1 hb
    rfl
  loop := fun _ => by simp [ctx, ContextState.clear]

/-- A clamped attenuation selects an entry of `VOLTAB` (45_volume_lifecycle.md R270). -/
theorem volTabAt_mem {p : Params} (wf : p.WF) (att : BitVec 16) : volTabAt p (attenuationIndex att) ∈ p.volTab := by
  have inside : attenuationIndex att < p.volTab.length := by rw [wf.volTab_length, attenuationIndex]; omega
  rw [volTabAt, List.getElem?_eq_getElem inside]
  exact List.getElem_mem inside

theorem inbufIndex_lt {p : Params} {o j : Nat} (h : inbufIndex p o = some j) : j < 8 * p.pairsMax := by
  unfold inbufIndex at h
  split at h
  · have := Option.some.inj h
    omega
  · cases h

/-! ## The invariant under the commands -/

section
variable {s : State} (h : s.Inv)
include h

/-- The invariant says nothing of the play state, `RESULT` and `ERR`, the trace, and the environment but for the engine's
place in the transfer. -/
theorem State.Inv.frame (play : PlayState) (res : ResultState) (trace : List OutEvent) (env : Environment)
    (pos : env.pos = s.env.pos) : State.Inv { s with play := play, res := res, trace := trace, env := env } where
  cfg := h.cfg
  ring := { h.ring with }
  clk := { h.clk with }
  seq := { h.seq with pos_le := fun busy => pos ▸ h.seq.pos_le busy }
  idle := { h.idle with }
  host := { h.host with }

theorem State.Inv.finish (v : Word) (c : ErrorClass) : (s.finish v c).Inv := h.frame s.play ⟨v, c⟩ s.trace s.env rfl

theorem State.Inv.judged (p : PlayState) (es : List OutEvent) : (s.judged p es).Inv :=
  h.frame p s.res (s.trace ++ es) s.env rfl

/-- In `IDLE` the configuration is free: every `COUNT` is 0 and no transfer is in flight. -/
theorem State.Inv.setup_of_idle (idle : s.lc = .idle) (x : Setup) : State.Inv { s with setup := x } where
  cfg := h.cfg
  ring := { h.ring with slots_standard := fun _ b hb => by simp [h.idle.counts idle b hb] }
  clk := h.clk.of_idle idle rfl rfl
  seq := .of_not_busy h.seq.scr_ok (h.seq.not_busy_of_idle idle)
    ⟨fun pend => by simp [(h.seq.pend_irq pend).1] at idle, fun hr => by simp [idle] at hr⟩
  idle := { h.idle with }
  host := { h.host with session_pins := fun running => by simp [idle] at running }

theorem State.Inv.endSession : (endSession s).Inv := by
  rw [endSession_eq]
  exact {
    cfg := h.cfg
    ring := { h.ring.clear with }
    clk := h.clk.of_idle rfl rfl rfl
    seq := .of_not_busy (ScratchOk.clear h.seq.scr_ok) rfl (by simp)
    idle := .of_cleared rfl rfl
    host := { h.host with session_pins := nofun } }

theorem startSession_sequencerOk : SequencerOk (startSession s) := by
  have scr : ScratchOk { s with ctx := s.ctx.clear } := ScratchOk.clear h.seq.scr_ok
  unfold startSession
  simp only
  split
  · rename_i strat
    exact armMuteBlock_sequencerOk h.cfg scr rfl strat rfl
  · rename_i strat
    have strat : s.setup.strat = .ctx2 := strat
    exact .of_not_busy scr rfl (by simp [strat])

/-- A session started on a committed plan. -/
theorem State.Inv.startSession {rate : Word} {p : ClockPlan} (legal : rateLegal rate.toNat = true)
    (pins : pinsOk s.cfg s.setup = true) (plan : clockPlan rate true s = some p) :
    (startSession (clockCommit p true s)).Inv := by
  have clk := h.clk.commit legal plan (.inl rfl) .running
  have seq := startSession_sequencerOk h
  rw [clockCommit_eq] at clk ⊢
  rw [startSession_eq] at seq ⊢
  exact {
    cfg := h.cfg
    ring := { h.ring.clear with }
    clk := { clk with }
    seq := { seq with }
    idle := .of_cleared rfl rfl
    host := { h.host with session_pins := fun _ => pins } }

theorem State.Inv.changeRate {rate : Word} {p : ClockPlan} (legal : rateLegal rate.toNat = true)
    (running : s.lc = .running) (plan : clockPlan rate false s = some p) : (clockCommit p false s).Inv := by
  have clk := h.clk.commit legal plan (.inr running) s.lc
  rw [clockCommit_eq] at clk ⊢
  exact ⟨h.cfg, { h.ring with }, { clk with }, { h.seq with }, { h.idle with }, { h.host with }⟩

theorem State.Inv.enqueue {block : List Word} {r : Ring} (running : s.lc = .running) (fits : FitsSlot s block)
    (stored : ringEnqueue s.cfg.n block s.ring = some r) : State.Inv { s with ring := r } where
  cfg := h.cfg
  ring := h.ring.enqueue h.cfg.n_width fits stored
  clk := { h.clk with }
  seq := h.seq.enqueue h.ring.cursors stored
  idle := .of_running running
  host := { h.host with }

theorem State.Inv.setMultipliers {m : Word} (ch : BitVec 2) (entry : m ∈ s.cfg.volTab) :
    State.Inv { s with vol := setMultipliers ch m s.vol } where
  cfg := h.cfg
  ring := { h.ring with }
  clk := { h.clk with }
  seq := { h.seq with }
  idle := { h.idle with }
  host := { h.host with
    mulL_entry := by simp only [Machine.setMultipliers]; split <;> [exact entry; exact h.host.mulL_entry]
    mulR_entry := by simp only [Machine.setMultipliers]; split <;> [exact entry; exact h.host.mulR_entry] }

theorem Effect.inv {i : Instr} {u : State} (effect : Effect s i u) : u.Inv := by
  cases effect with
  | configurePins d c m en idle => exact h.setup_of_idle idle _
  | configure f j st fmt named idle => exact h.setup_of_idle idle _
  | initializeAt r p idle legal pins plan claim =>
    exact h.startSession (by rwa [toNat_setWidth_rate]) pins plan
  | changeRate r p running legal plan => exact h.changeRate (by rwa [toNat_setWidth_rate]) running plan
  | enqueue n d bits bytes r running depth length input stored =>
    have read := (Memory.readRange_eq_some.1 input).1
    exact h.enqueue running (enqueueBlock_fitsSlot read length) stored
  | occupancy => exact h
  | setVolume a ch named => exact h.setMultipliers ch (volTabAt_mem h.cfg a)
  | setHandler hs => exact h.frame _ s.res s.trace s.env rfl
  | shutdownIdle idle => exact h
  | shutdownRunning running => exact h.endSession

/-! ## The invariant under the other steps -/

theorem State.Inv.byteWrite {o j : Nat} (v : Byte) (mapped : inbufIndex s.cfg o = some j) :
    State.Inv { s with inbuf := Memory.write s.inbuf j v } where
  cfg := h.cfg
  ring := { h.ring with }
  clk := { h.clk with }
  seq := { h.seq with }
  idle := { h.idle with }
  host := { h.host with
    inbuf_wf := Memory.write_wf j v h.host.inbuf_wf
    inbuf_window := fun c hc => by
      obtain rfl | old := Memory.mem_write hc
      · exact inbufIndex_lt mapped
      · exact h.host.inbuf_window c old }

theorem State.Inv.deliver {ds : List Word} (left : s.dma.busy = true → s.env.pos + ds.length ≤ s.dma.count.toNat) :
    (s.deliver ds).Inv :=
  ⟨h.cfg, { h.ring with }, { h.clk with }, { h.seq with pos_le := left }, { h.idle with }, { h.host with }⟩

/-- A step of the sequencer writes neither the clock nor the host's fields, so its ring and its transfer decide. -/
theorem State.Inv.of_blockFrame {t : State} (frame : BlockFrame s t) (running : s.lc = .running) (ring : RingOk t)
    (seq : SequencerOk t) : t.Inv := by
  obtain ⟨cfg, lc, setup, clk, vol, -, inbuf⟩ := frame
  obtain ⟨_, _, _, _, _, _, _, _, _, _, _, _, _⟩ := t
  cases cfg; cases lc; cases setup; cases clk; cases vol; cases inbuf
  exact ⟨h.cfg, ring, { h.clk with }, seq, .of_running running, { h.host with }⟩

/-- The interrupt's entry: no transfer is in flight, and under `IRQ` it is pending (60_exceptions.md R311). -/
theorem State.Inv.transferred (ds : List Word) (running : s.lc = .running) : (transferComplete (s.deliver ds)).Inv where
  cfg := h.cfg
  ring := { h.ring with }
  clk := { h.clk with }
  seq := .of_not_busy h.seq.scr_ok rfl ⟨fun pend => ⟨running, by
    obtain pend | strat := Bool.or_eq_true_iff.1 pend
    · exact (h.seq.pend_irq pend).2
    · exact of_decide_eq_true strat⟩, fun ⟨_, strat⟩ => by
    have strat : s.setup.strat = .irq := strat
    simp [strat]⟩
  idle := { h.idle with }
  host := { h.host with }

end

theorem Performs.inv {s t : State} {e : Event} (h : s.Inv) (performs : Performs s e t) : t.Inv := by
  cases performs with
  | failed c cmd => exact h.finish 0 c
  | succeeded cmd dec effect => exact (Effect.inv h effect).finish _ _
  | ignoredWrite | ignoredDone => exact h
  | byteWrite o v j mapped => exact h.byteWrite v mapped
  | read | byteRead | claim => exact h.frame s.play s.res s.trace _ rfl
  | reset =>
    exact (resetWith_inv h.cfg).frame _ _ _ _ rfl
  | delivered d enabled => exact h.deliver fun _ => (dmaReadEnabled_eq.1 enabled).2
  | transferred ds running => exact h.transferred ds running
  | armedMute p es consumes enabled =>
    obtain ⟨running, strat, -⟩ := irqEnabled_eq.1 enabled
    have seq : SequencerOk (armMuteBlock ((clearPend s).judged p es)) :=
      armMuteBlock_sequencerOk h.cfg h.seq.scr_ok running strat rfl
    exact h.of_blockFrame (by constructor <;> rfl) running { h.ring with } seq
  | armedOldest p es consumes enabled occupied =>
    obtain ⟨running, strat, -⟩ := irqEnabled_eq.1 enabled
    have ring := h.ring.dequeued h.cfg.n_width occupied
    have seq : SequencerOk (armOldest ((clearPend s).judged p es)) :=
      armOldest_sequencerOk { h.ring with } h.seq.scr_ok running strat rfl
    exact h.of_blockFrame (by constructor <;> rfl) running { ring with } seq
  | filledMute p es consumes enabled =>
    obtain ⟨running, strat, -⟩ := fillEnabled_eq.1 enabled
    have fits : (muteBlock s.cfg).length ≤ max (2 * s.cfg.pairsMax) s.cfg.muteLen := by simp [muteBlock]
    have seq := (h.judged p es).seq.fillScratch strat fits
    exact h.of_blockFrame (by constructor <;> rfl) running { h.ring with } seq
  | filledOldest p es block consumes enabled occupied oldest =>
    obtain ⟨running, strat, -⟩ := fillEnabled_eq.1 enabled
    have ring := h.ring.dequeued h.cfg.n_width occupied
    have fits : block.length ≤ max (2 * s.cfg.pairsMax) s.cfg.muteLen := by
      obtain ⟨-, rfl⟩ := SampleBlock.readFirst_eq_some.1 oldest
      have count := h.ring.slots_standard strat _ h.ring.oldest_mem
      exact (List.length_take_le _ _).trans (count.trans (Nat.le_max_left _ _))
    have seq := (h.judged p es).seq.dequeued strat |>.fillScratch strat fits
    exact h.of_blockFrame (by constructor <;> rfl) running { ring with } seq
  | armedScratch enabled =>
    obtain ⟨running, strat, -, -⟩ := armEnabled_eq.1 enabled
    have seq := armScratch_sequencerOk h.seq.scr_ok running strat (h.seq.not_pend_of_ctx2 strat)
    exact h.of_blockFrame (by constructor <;> rfl) running { h.ring with } seq

/-- Settles O48: a step waits or performs an entry of the schedule, and everything an entry can do keeps the invariant. -/
theorem stepKeepsInvariant : Obligations.StepKeepsInvariant := by
  unfold Obligations.StepKeepsInvariant
  intro s t h hstep
  obtain rfl | ⟨e, -, performs⟩ := step_performs hstep
  · exact h
  · exact performs.inv (h.withSchedule _)

end Sys2Proof.Machine
end

section
/-! PROOFS. The arithmetic of the data path: the volume product (41_packer_volume.md R154, R155), saturating negation (R156),
and bit-interleaving (R157). -/

namespace Sys2Proof.Machine

/-! ## The volume product -/

/-- A multiplier up to unity leaves the floored product between 0 and the sample (41_packer_volume.md R154). -/
theorem asr_mul_between (v : Int) {m : Nat} (unity : m ≤ 2 ^ 29) :
    min v 0 ≤ asr (v * m) 29 ∧ asr (v * m) 29 ≤ max v 0 := by
  have unity : (m : Int) ≤ 2 ^ 29 := by exact_mod_cast unity
  unfold asr
  obtain nonneg | neg := Int.le_total 0 v
  · have low : 0 ≤ v * m := mul_nonneg nonneg (Int.natCast_nonneg m)
    have high : v * m ≤ v * 2 ^ 29 := mul_le_mul_of_nonneg_left unity nonneg
    omega
  · have low : v * 2 ^ 29 ≤ v * m := mul_le_mul_of_nonpos_left unity neg
    have high : v * m ≤ 0 := mul_nonpos_of_nonpos_of_nonneg neg (Int.natCast_nonneg m)
    omega

/-- Up to unity the truncation to 32 bits changes nothing (R154). -/
theorem scale_toInt (v : Word) {m : Word} (unity : m.toNat ≤ 2 ^ 29) :
    (scale v m).toInt = asr (v.toInt * m.toNat) 29 := by
  obtain ⟨low, high⟩ := asr_mul_between v.toInt unity
  have least := v.le_toInt
  have greatest := v.toInt_lt
  exact BitVec.toInt_ofInt_eq_self (by decide) (by omega) (by omega)

/-- Settles O24: the scaled value is the floored quotient, which the division's own bounds characterise. -/
theorem scaleIsFlooredProduct : Obligations.ScaleIsFlooredProduct := by
  unfold Obligations.ScaleIsFlooredProduct
  intro v m unity
  obtain ⟨low, high⟩ := asr_mul_between v.toInt unity
  rw [scale_toInt v unity]
  exact ⟨Int.ediv_mul_le _ (by decide), Int.lt_ediv_add_one_mul_self _ (by decide), by omega⟩

theorem scale_unity (v : Word) : scale v unityGain = v := by
  have : asr (v.toInt * unityGain.toNat) 29 = v.toInt := Int.mul_ediv_cancel v.toInt (by decide : (2 : Int) ^ 29 ≠ 0)
  rw [scale, this, BitVec.ofInt_toInt]

theorem scale_zero_multiplier (v : Word) : scale v 0 = 0 := by simp [scale, asr]

theorem scale_zero_sample (m : Word) : scale 0 m = 0 := by simp [scale, asr]

/-- A louder multiplier gives no smaller value of a sample that is not negative (R155). -/
theorem scale_mono {v m₁ m₂ : Word} (nonneg : 0 ≤ v.toInt) (le : m₁.toNat ≤ m₂.toNat) (unity : m₂.toNat ≤ 2 ^ 29) :
    (scale v m₁).toInt ≤ (scale v m₂).toInt := by
  rw [scale_toInt v (le.trans unity), scale_toInt v unity]
  exact Int.ediv_le_ediv (by decide) (mul_le_mul_of_nonneg_left (Int.ofNat_le.2 le) nonneg)

/-- Settles O25: the general cases, and the rule's numeric cases by evaluation. -/
theorem scaleCornerCases : Obligations.ScaleCornerCases := by
  unfold Obligations.ScaleCornerCases
  exact ⟨scale_unity, scale_zero_multiplier, scale_zero_sample, fun _ _ _ => scale_mono, by decide⟩

/-! ## Saturating negation -/

theorem negsat_int32Min : negsat int32Min = int32Max := by decide

theorem negsat_of_ne {x : Word} (h : x ≠ int32Min) : negsat x = -x := by simp [negsat, h]

theorem toInt_eq_min_iff (x : Word) : x.toInt = -2 ^ 31 ↔ x = int32Min := by
  rw [← BitVec.toInt_inj]; exact Iff.rfl

/-- Settles O26: the least value is the one word that negation does not move within the range, and it is negated to no word
but itself. -/
theorem negsatSaturates : Obligations.NegsatSaturates := by
  unfold Obligations.NegsatSaturates
  intro x
  by_cases least : x = int32Min
  · subst least
    decide
  · have kept : -x ≠ int32Min := fun h => least (BitVec.neg_eq_intMin.1 h)
    rw [if_neg (mt (toInt_eq_min_iff x).1 least), negsat_of_ne least, negsat_of_ne kept, neg_neg]
    exact ⟨BitVec.toInt_neg_of_ne_intMin least, (if_neg least).symm⟩

/-! ## Bit-interleaving -/

theorem interleaveNat_succ_div_two (k l r : Nat) :
    interleaveNat (k + 1) l r / 2 = l % 2 + 2 * interleaveNat k (l / 2) (r / 2) := by
  simp only [interleaveNat]; omega

theorem interleaveNat_succ_div_four (k l r : Nat) :
    interleaveNat (k + 1) l r / 2 / 2 = interleaveNat k (l / 2) (r / 2) := by
  simp only [interleaveNat]; omega

theorem testBit_interleaveNat_even {k i : Nat} (l r : Nat) (h : i < k) :
    (interleaveNat k l r).testBit (2 * i) = r.testBit i := by
  induction k generalizing l r i with
  | zero => omega
  | succ k ih =>
    cases i with
    | zero =>
      have : interleaveNat (k + 1) l r % 2 = r % 2 := by simp only [interleaveNat]; omega
      simp [Nat.testBit_zero, this]
    | succ i =>
      rw [Nat.mul_succ, Nat.testBit_add_one, Nat.testBit_add_one, interleaveNat_succ_div_four, ih _ _ (by omega),
        Nat.testBit_add_one]

theorem testBit_interleaveNat_odd {k i : Nat} (l r : Nat) (h : i < k) :
    (interleaveNat k l r).testBit (2 * i + 1) = l.testBit i := by
  induction k generalizing l r i with
  | zero => omega
  | succ k ih =>
    rw [Nat.testBit_add_one]
    cases i with
    | zero =>
      have : interleaveNat (k + 1) l r / 2 % 2 = l % 2 := by rw [interleaveNat_succ_div_two]; omega
      simp [Nat.testBit_zero, this]
    | succ i =>
      rw [Nat.mul_succ, Nat.testBit_add_one, interleaveNat_succ_div_four, ih _ _ (by omega), Nat.testBit_add_one]

theorem evenBits_succ_div_two (k w : Nat) : evenBits (k + 1) w / 2 = evenBits k (w / 4) := by
  simp only [evenBits]; omega

theorem testBit_evenBits {k i : Nat} (w : Nat) (h : i < k) : (evenBits k w).testBit i = w.testBit (2 * i) := by
  induction k generalizing w i with
  | zero => omega
  | succ k ih =>
    cases i with
    | zero => simp [Nat.testBit_zero, evenBits]
    | succ i =>
      rw [Nat.testBit_add_one, evenBits_succ_div_two, ih _ (by omega), Nat.mul_succ, Nat.testBit_add_one,
        Nat.testBit_add_one, Nat.div_div_eq_div_mul]

theorem getLsbD_interleave_odd (l r : Word) {i : Nat} (h : i < 32) :
    (interleave l r).getLsbD (2 * i + 1) = l.getLsbD i := by
  have : 2 * i + 1 < 64 := by omega
  simp only [interleave, BitVec.getLsbD_ofNat, this, decide_true, Bool.true_and, testBit_interleaveNat_odd _ _ h,
    BitVec.testBit_toNat]

theorem getLsbD_interleave_even (l r : Word) {i : Nat} (h : i < 32) :
    (interleave l r).getLsbD (2 * i) = r.getLsbD i := by
  have : 2 * i < 64 := by omega
  simp only [interleave, BitVec.getLsbD_ofNat, this, decide_true, Bool.true_and, testBit_interleaveNat_even _ _ h,
    BitVec.testBit_toNat]

theorem getLsbD_hi (w : BitVec 64) {i : Nat} (h : i < 32) : (hi w).getLsbD i = w.getLsbD (32 + i) := by
  simp [hi, h]

theorem getLsbD_lo (w : BitVec 64) {i : Nat} (h : i < 32) : (lo w).getLsbD i = w.getLsbD i := by
  simp [lo, h]

theorem getLsbD_deinterleave_left (w : BitVec 64) {i : Nat} (h : i < 32) :
    (deinterleave w).1.getLsbD i = w.getLsbD (2 * i + 1) := by
  simp only [deinterleave, BitVec.getLsbD_ofNat, h, decide_true, Bool.true_and, testBit_evenBits _ h,
    Nat.testBit_div_two, BitVec.testBit_toNat]

theorem getLsbD_deinterleave_right (w : BitVec 64) {i : Nat} (h : i < 32) :
    (deinterleave w).2.getLsbD i = w.getLsbD (2 * i) := by
  simp only [deinterleave, BitVec.getLsbD_ofNat, h, decide_true, Bool.true_and, testBit_evenBits _ h,
    BitVec.testBit_toNat]

theorem deinterleave_interleave (l r : Word) : deinterleave (interleave l r) = (l, r) := by
  refine Prod.ext (BitVec.eq_of_getLsbD_eq fun i h => ?_) (BitVec.eq_of_getLsbD_eq fun i h => ?_)
  · rw [getLsbD_deinterleave_left _ h, getLsbD_interleave_odd l r h]
  · rw [getLsbD_deinterleave_right _ h, getLsbD_interleave_even l r h]

/-- Settles O27: each bit of a half is a bit of the 64-bit value, and those are placed by the recursion. -/
theorem interleavePlacesBits : Obligations.InterleavePlacesBits := by
  unfold Obligations.InterleavePlacesBits
  intro l r
  refine ⟨fun i h => ⟨getLsbD_interleave_odd l r h, getLsbD_interleave_even l r h⟩, fun i h => ⟨?_, ?_, ?_, ?_⟩,
    deinterleave_interleave l r⟩
  · rw [getLsbD_hi _ (by omega), ← getLsbD_interleave_odd l r (by omega)]; congr 1; omega
  · rw [getLsbD_hi _ (by omega), ← getLsbD_interleave_even l r (by omega)]; congr 1; omega
  · rw [getLsbD_lo _ (by omega), getLsbD_interleave_odd l r (by omega)]
  · rw [getLsbD_lo _ (by omega), getLsbD_interleave_even l r (by omega)]

end Sys2Proof.Machine
end

section
/-! PROOFS. The packing policies (41_packer_volume.md R158 to R163): where a pair's datums stand in a block, and that expanding
a `STANDARD` block packs its pairs. -/

namespace Sys2Proof.Machine

/-- The datums of pair `p` stand together, `p` pairs' widths into the block (41_packer_volume.md R159 to R161). -/
theorem pack_getElem? {pol : Policy} {ps : List (Word × Word)} {p : Nat} {pair : Word × Word} (at_p : ps[p]? = some pair)
    {j : Nat} (inside : j < pairWidth pol) : (pack pol ps)[pairWidth pol * p + j]? = (packPair pol pair)[j]? := by
  induction ps generalizing p with
  | nil => simp at at_p
  | cons q ps ih =>
    have split : pack pol (q :: ps) = packPair pol q ++ pack pol ps := rfl
    have width := packPair_length pol q
    rw [split]
    cases p with
    | zero =>
      obtain rfl : q = pair := by simpa using at_p
      rw [Nat.mul_zero, Nat.zero_add, List.getElem?_append_left (width ▸ inside)]
    | succ p =>
      have beyond : pairWidth pol * (p + 1) + j - (packPair pol q).length = pairWidth pol * p + j := by
        rw [width, Nat.mul_succ]; omega
      rw [List.getElem?_append_right (by rw [width, Nat.mul_succ]; omega), beyond, ih (by simpa using at_p)]

/-- Settles O60: each policy's datums of one pair, at the place of that pair. -/
theorem packPlacesDatums : Obligations.PackPlacesDatums := by
  unfold Obligations.PackPlacesDatums
  intro ps p l r at_p
  have datum (pol : Policy) (j : Nat) (inside : j < pairWidth pol) := pack_getElem? at_p inside
  refine ⟨⟨?_, datum .standard 0 (by decide), datum .standard 1 (by decide)⟩,
    ⟨?_, datum .exdf 0 (by decide), datum .exdf 1 (by decide)⟩,
    ⟨?_, datum .dualMono 0 (by decide), datum .dualMono 1 (by decide), datum .dualMono 2 (by decide),
      datum .dualMono 3 (by decide)⟩⟩ <;>
    rw [pack_length, Nat.mul_comm] <;> rfl

/-- The pairs of a `STANDARD` block are those it was packed from (R162). -/
theorem unpair_pack_standard (ps : List (Word × Word)) : unpair (pack .standard ps) = ps := by
  induction ps with
  | nil => rfl
  | cons pair ps ih => exact congrArg (List.cons pair) ih

theorem expand_pack_standard (pol : Policy) (ps : List (Word × Word)) : expand pol (pack .standard ps) = pack pol ps := by
  cases pol with
  | standard => rfl
  | exdf => rw [expand, unpair_pack_standard]
  | dualMono => rw [expand, unpair_pack_standard]

theorem pairWidth_eq (pol : Policy) : pairWidth pol = if pol = .dualMono then 4 else 2 := by cases pol <;> rfl

/-- Settles O28: expansion recovers the pairs and packs them. -/
theorem expandAfterStandardPack : Obligations.ExpandAfterStandardPack := by
  unfold Obligations.ExpandAfterStandardPack
  exact fun pol ps => ⟨expand_pack_standard pol ps, by rw [pack_length, pairWidth_eq, Nat.mul_comm]⟩

end Sys2Proof.Machine
end

section
/-! PROOFS. Input samples: the bytes of a sample (20_memory.md R73, 41_packer_volume.md R151) and its left-justification (R152). -/

namespace Sys2Proof.Machine

/-! ## Bytes to a sample -/

/-- Bytes as a number are the library's digits in base 256. -/
theorem leValue_eq_ofDigits (bs : List Byte) : leValue bs = Nat.ofDigits 256 (bs.map BitVec.toNat) := by
  induction bs with
  | nil => rfl
  | cons b bs ih => simp [leValue, Nat.ofDigits_cons, ih]

theorem leValue_lt (bs : List Byte) : leValue bs < 2 ^ (8 * bs.length) := by
  have byte : ∀ x ∈ bs.map BitVec.toNat, x < 256 := by
    intro x hx
    obtain ⟨b, -, rfl⟩ := List.mem_map.1 hx
    exact b.isLt
  have := Nat.ofDigits_lt_base_pow_length (by decide) byte
  rwa [← leValue_eq_ofDigits, List.length_map, show 256 = 2 ^ 8 from rfl, ← Nat.pow_mul] at this

/-- Byte `j` weighs `2^(8j)` (20_memory.md R73). -/
theorem leValue_eq_sum (bs : List Byte) :
    leValue bs = ((List.range bs.length).map fun j => (bs.getD j 0).toNat * 2 ^ (8 * j)).sum := by
  induction bs with
  | nil => rfl
  | cons b bs ih =>
    have next (j : Nat) : 256 * ((bs.getD j 0).toNat * 2 ^ (8 * j)) = ((b :: bs).getD (j + 1) 0).toNat * 2 ^ (8 * (j + 1)) := by
      rw [List.getD_cons_succ, Nat.mul_succ, Nat.pow_add]; ring
    rw [leValue, ih, ← List.sum_map_mul_left, List.length_cons, List.range_succ_eq_map, List.map_cons, List.sum_cons,
      List.map_map]
    exact congrArg₂ Nat.add (by simp) (congrArg List.sum (List.map_congr_left fun j _ => next j))

/-- The bytes of sample `k`, as they stand in the input (41_packer_volume.md R151). -/
theorem leValue_slice {bytes : List Byte} {i b : Nat} (inside : i + b ≤ bytes.length) :
    leValue ((bytes.drop i).take b) = ((List.range b).map fun j => (bytes.getD (i + j) 0).toNat * 2 ^ (8 * j)).sum := by
  have length : ((bytes.drop i).take b).length = b := by simp; omega
  rw [leValue_eq_sum, length]
  refine congrArg List.sum (List.map_congr_left fun j hj => ?_)
  simp [List.getD_eq_getElem?_getD, List.getElem?_take_of_lt (List.mem_range.1 hj)]

/-- Sign extension of a number that fits the width is its two's complement reading (00_scope.md R14). -/
theorem sext_eq {n v : Nat} (pos : 1 ≤ n) (fits : v < 2 ^ n) :
    sext n v = if v < 2 ^ (n - 1) then (v : Int) else (v : Int) - 2 ^ n := by
  have half : 2 ^ n = 2 * 2 ^ (n - 1) := by rw [← Nat.pow_succ', Nat.succ_eq_add_one, Nat.sub_add_cancel pos]
  have sign : 2 * v < 2 ^ n ↔ v < 2 ^ (n - 1) := by omega
  simp [sext, BitVec.toInt_eq_toNat_cond, Nat.mod_eq_of_lt fits, sign]

/-- Settles O29: the slice's sum fits the width, and the sample is its two's complement reading. -/
theorem sampleReadsLittleEndian : Obligations.SampleReadsLittleEndian := by
  unfold Obligations.SampleReadsLittleEndian
  intro bytes k b pos _ inside
  have length : ((bytes.drop (k * b)).take b).length = b := by rw [Nat.succ_mul] at inside; simp; omega
  have fits := leValue_lt ((bytes.drop (k * b)).take b)
  rw [length] at fits
  refine ⟨?_, BitVec.le_toInt _, BitVec.toInt_lt⟩
  rw [← leValue_slice (by rwa [Nat.succ_mul] at inside), sample, sext_eq (by omega) fits]

/-! ## Left-justification -/

theorem justify_eq_shiftLeft (v : Int) (bits : Nat) : justify v bits = BitVec.ofInt 32 v <<< (32 - bits) := by
  have power : BitVec.ofInt 32 (2 ^ (32 - bits)) = BitVec.twoPow 32 (32 - bits) := by
    rw [show (2 : Int) ^ (32 - bits) = (2 ^ (32 - bits) : Nat) by push_cast; rfl, BitVec.ofInt_natCast]
    exact BitVec.eq_of_toNat_eq (by simp)
  rw [justify, BitVec.ofInt_mul, power, BitVec.shiftLeft_eq_mul_twoPow]

/-- Settles O30: a sample of `bits` bits times `2^(32 - bits)` fits 32 bits, and a shift leaves zeros below. -/
theorem justifyShiftsLeft : Obligations.JustifyShiftsLeft := by
  unfold Obligations.JustifyShiftsLeft
  intro v bits depth low high
  constructor
  · have fits : -2 ^ 31 ≤ v * 2 ^ (32 - bits) ∧ v * 2 ^ (32 - bits) < 2 ^ 31 := by
      obtain rfl | rfl | rfl := depth <;> norm_num at low high ⊢ <;> omega
    exact BitVec.toInt_ofInt_eq_self (by decide) fits.1 fits.2
  · intro i below
    simp [justify_eq_shiftLeft, BitVec.getLsbD_shiftLeft, below]

end Sys2Proof.Machine
end

section
/-! PROOFS. ENQUEUE (41_packer_volume.md R150): the ring a successful enqueue leaves, datum by datum (40_ring_buffer.md R132),
and the block the command stores. -/

namespace Sys2Proof.Machine

/-! ## The ring after an enqueue -/

section
variable {n : Nat} {block : List Word} {r r' : Ring} (inside : r.enq.toNat < r.slots.length)
  (he : ringEnqueue n block r = some r')
include inside he

/-- An enqueue stores the block in the slot at `ENQ` and leaves every other slot alone (40_ring_buffer.md R132). -/
theorem slot_of_ringEnqueue (k : Nat) :
    r'.slot k = if k = r.enq.toNat then (r.slot k).store block else r.slot k := by
  obtain ⟨-, rfl⟩ := ringEnqueue_eq_some.1 he
  rw [Ring.slot_set _ _ _ _ inside]
  split <;> simp_all

theorem datum_of_ringEnqueue (k j : Nat) :
    r'.datum k j = if k = r.enq.toNat ∧ j < block.length then block[j]? else r.datum k j := by
  rw [Ring.datum, slot_of_ringEnqueue inside he]
  by_cases target : k = r.enq.toNat
  · simp [target, SampleBlock.store_datum, Ring.datum]
  · simp [target, Ring.datum]

end

/-! ## The command -/

theorem execEnqueue_of_ringEnqueue {n : BitVec 22} {d : BitDepth} {bits : Nat} {bytes : List Byte} {s : State} {r : Ring}
    (running : s.lc = .running) (depth : bitsOf d = some bits) (ok : lengthOk s.cfg bits n.toNat = true)
    (input : Memory.readRange s.inbuf 0 n.toNat = some bytes)
    (he : ringEnqueue s.cfg.n (enqueueBlock bits bytes s) s.ring = some r) :
    execEnqueue n d s = complete 1 { s with ring := r } := by
  have notFull := (ringEnqueue_eq_some.1 he).1
  simp [execEnqueue, running, depth, ok, notFull, input, he]

theorem enqueuePolicy_eq (s : State) :
    enqueuePolicy s = if s.setup.strat = .irq then perFormat s.cfg.policy s.setup.fmt else .standard := by
  cases h : s.setup.strat <;> simp [enqueuePolicy, formatPolicy, h]

/-- Settles O21: below capacity the ring takes the block, and the rest of the state is as it was. -/
theorem enqueueStoresScaledPackedBlock : Obligations.EnqueueStoresScaledPackedBlock := by
  unfold Obligations.EnqueueStoresScaledPackedBlock
  intro n d bits bytes s running depth ok width cursors free input policy block
  have stored : enqueueBlock bits bytes s = block := by
    obtain ⟨length, -⟩ := Memory.readRange_eq_some.1 input
    rw [enqueueBlock, enqueuePolicy_eq, scaledPairs, length]
    rfl
  have inside : s.ring.enq.toNat < s.ring.slots.length := cursors.slots_length ▸ cursors.enq_lt
  obtain ⟨r, he⟩ : ∃ r, ringEnqueue s.cfg.n block s.ring = some r := ⟨_, ringEnqueue_eq_some.2 ⟨free.ne, rfl⟩⟩
  have slot := slot_of_ringEnqueue inside he
  have datum := datum_of_ringEnqueue inside he
  refine ⟨_, execEnqueue_of_ringEnqueue running depth ok input (stored ▸ he), rfl, fun j hj => ?_, ?_,
    fun k j other => ?_, fun k other => ?_, ?_⟩
  · exact (datum _ j).trans (if_pos ⟨rfl, hj⟩)
  · exact congrArg SampleBlock.count ((slot _).trans (if_pos rfl))
  · exact (datum k j).trans (if_neg (by omega))
  · exact congrArg SampleBlock.count ((slot k).trans (if_neg other))
  · obtain ⟨-, rfl⟩ := ringEnqueue_eq_some.1 he
    exact ⟨occ_succ_toNat (by omega), advance_toNat _ (by omega) width, rfl, rfl⟩

end Sys2Proof.Machine
end

section
/-! PROOFS. The Clock Configurator (42_clock_configurator.md): what `divide` and `clock_plan` compute (R183, R186 to R188), what
CHANGE_RATE does to the clock (R190, R195), and who writes the clock state (R180). -/

namespace Sys2Proof.Machine

/-! ## Dividers -/

/-- Both parts together are the quotient in units of 1/256 (42_clock_configurator.md R183). -/
theorem divide_fractional (num den : Nat) :
    (divide num den true).1 * 256 + (divide num den true).2 = num * 256 / den :=
  Nat.div_add_mod' _ _

theorem divide_integer (num den : Nat) : divide num den false = (num / den, 0) :=
  Prod.ext (by rw [divide_int, Nat.div_div_eq_div_mul, Nat.mul_div_mul_right _ _ (by decide)]) rfl

/-- Settles O19: either quotient is a floor of natural numbers. -/
theorem divideRoundsDown : Obligations.DivideRoundsDown := by
  unfold Obligations.DivideRoundsDown
  intro num den pos
  have below (n : Nat) : n / den * den ≤ n := Nat.div_mul_le_self n den
  have above (n : Nat) : n < (n / den + 1) * den := Nat.mul_comm den _ ▸ Nat.lt_mul_div_succ n pos
  rw [divide_fractional, divide_integer]
  exact ⟨⟨divide_frac_lt num den true, below _, above _⟩, rfl, below num, above num⟩

/-! ## What a plan computes -/

theorem crossing_eq_true {rate : Word} {first : Bool} {s : State} : crossing rate first s = true ↔
    first = true ∨ decide (fam rate.toNat = Family.f48k) ≠ s.clk.is48k := by
  rw [crossing, Bool.or_eq_true, bne_iff_ne]

theorem target_eq_none {p : Params} {m : JitterMode} {f : Family} : target p m f = none ↔ m = .default := by
  cases m <;> simp [target]

/-- The system clock a plan re-targets to, where it re-targets one (R182, R186). -/
def planTarget (rate : Word) (first : Bool) (s : State) : Option (SysSource × Word) :=
  if first = true ∨ decide (fam rate.toNat = Family.f48k) ≠ s.clk.is48k then
    target s.cfg s.setup.jmode (fam rate.toNat)
  else none

theorem planTarget_not_first (rate : Word) (s : State) : planTarget rate false s =
    if decide (fam rate.toNat = Family.f48k) = s.clk.is48k then none
    else target s.cfg s.setup.jmode (fam rate.toNat) := by
  simp [planTarget]

/-- A plan runs on the clock it re-targets to, else on the present one (R186). -/
theorem planSystem_eq (rate : Word) (first : Bool) (s : State) : planSystem rate first s =
    ((planTarget rate first s).isSome, (planTarget rate first s).getD (s.clk.sysSrc, s.clk.sysHz)) := by
  simp only [planSystem, planTarget, crossing_eq_true]
  split
  · cases target s.cfg s.setup.jmode (fam rate.toNat) <;> rfl
  · rfl

theorem planMclk_eq_none {sys : Word} {f : Family} {s : State} : planMclk sys f s = none ↔ s.setup.mclkEn = true ∧
    checkedDivide sys.toNat (mclkTarget f) (decide (s.setup.jmode = .default)) = none := by
  cases h : s.setup.mclkEn <;> simp [planMclk, h]

/-- Settles O20: a plan is its system clock and its dividers, each in range. -/
theorem planDividesSystemClock : Obligations.PlanDividesSystemClock := by
  unfold Obligations.PlanDividesSystemClock
  intro rate first s f wanted sys d m
  have system : planSystem rate first s = (wanted.isSome, wanted.getD (s.clk.sysSrc, s.clk.sysHz)) :=
    planSystem_eq rate first s
  constructor
  · rw [clockPlan_eq_none, planMclk_eq_none, checkedDivide_eq_none, checkedDivide_eq_none, system]
  · intro p plan
    obtain ⟨div, mdiv, hdiv, hmdiv, rfl⟩ := clockPlan_eq_some.1 plan
    rw [system] at hdiv hmdiv ⊢
    obtain ⟨-, -, divInt, divFrac⟩ := checkedDivide_eq_some.1 hdiv
    refine ⟨rfl, rfl, rfl, rfl, fun retargets => ?_, divInt, divFrac, fun on => ?_, (planned_of_clockPlan plan).mdiv_off⟩
    · obtain ⟨t, ht⟩ := Option.isSome_iff_exists.1 retargets
      simp [ht]
    · rw [planMclk, if_pos on] at hmdiv
      obtain ⟨-, -, mdivInt, mdivFrac⟩ := checkedDivide_eq_some.1 hmdiv
      exact ⟨mdivInt, mdivFrac⟩

/-! ## CHANGE_RATE -/

/-- The events of a rate change, in their order (R186). -/
def retuneEvents (rate : Word) (p : ClockPlan) (s : State) : List OutEvent :=
  ((planTarget rate false s).toList.map fun x => .sysClkRetarget x.1 x.2) ++ [.setDivider p.div.1 p.div.2] ++
    (if s.setup.mclkEn then [.setMclkDivider p.mdiv.1 p.mdiv.2] else [])

/-- The state a rate change leaves, before `RESULT` and `ERR` are written (R190). -/
def retuned (rate : Word) (p : ClockPlan) (s : State) : State :=
  let system := (planTarget rate false s).getD (s.clk.sysSrc, s.clk.sysHz)
  { s with
    clk := ⟨rate, decide (fam rate.toNat = Family.f48k), p.div.1, p.div.2, p.mdiv.1, p.mdiv.2, system.2, system.1,
      s.clk.periDet⟩
    trace := s.trace ++ retuneEvents rate p s }

section
variable {rate : Word} {p : ClockPlan} {s : State} (plan : clockPlan rate false s = some p)
include plan

theorem commitEvents_of_plan : commitEvents p false s = retuneEvents rate p s := by
  obtain ⟨d, m, -, -, rfl⟩ := clockPlan_eq_some.1 plan
  rw [planSystem_eq, commitEvents, retuneEvents]
  cases planTarget rate false s <;> rfl

theorem clockCommit_of_plan : clockCommit p false s = retuned rate p s := by
  obtain ⟨hrate, hfam, system, -⟩ := planned_of_clockPlan plan
  rw [clockCommit_eq, hrate, hfam, system, planSystem_eq, commitEvents_of_plan plan, retuned]
  simp [detaches]

end

theorem execChangeRate_of_plan {r : BitVec 24} {p : ClockPlan} {s : State} (running : s.lc = .running)
    (legal : rateLegal r.toNat = true) (plan : clockPlan (r.setWidth 32) false s = some p) :
    execChangeRate r s = .next ((retuned (r.setWidth 32) p s).finish 1 .noError) := by
  simp [execChangeRate, running, legal, plan, complete, clockCommit_of_plan plan]

/-- Settles O17: the commit writes the clock state and the trace alone. -/
theorem changeRateRetunes : Obligations.ChangeRateRetunes := by
  unfold Obligations.ChangeRateRetunes
  intro r p s running legal plan wanted
  have system : planTarget (r.setWidth 32) false s = wanted := by rw [planTarget_not_first, toNat_setWidth_rate]
  refine ⟨_, execChangeRate_of_plan running legal plan, rfl, rfl, ?_, rfl, rfl, ?_, rfl, ?_, rfl⟩
  · simp only [State.finish_clk, retuned, toNat_setWidth_rate]
  · simp only [State.finish_clk, retuned, system]
  · simp only [State.finish_trace, retuned, retuneEvents, system, List.append_assoc]

/-- A rate change that succeeds has a plan and carries it out (R190). -/
theorem execChangeRate_of_noError {r : BitVec 24} {s t : State} (h : execChangeRate r s = .next t)
    (ok : t.res.err = .noError) : ∃ p, t = (retuned (r.setWidth 32) p s).finish 1 .noError := by
  obtain ⟨rfl, -⟩ | ⟨rfl, -⟩ | ⟨p, -, -, plan, rfl⟩ := execChangeRate_next h
  · cases ok
  · cases ok
  · exact ⟨p, by rw [clockCommit_of_plan plan]⟩

/-- The family flag, as it agrees with the rate, differs from a new rate's exactly when the families do (R181, R191). -/
theorem flag_ne_iff {s : State} (h : ClockOk s) (f : Family) :
    decide (f = Family.f48k) ≠ s.clk.is48k ↔ f ≠ fam s.clk.rate.toNat := by
  rw [h.family]
  cases f <;> cases fam s.clk.rate.toNat <;> decide

/-- The system clock stays exactly in `DEFAULT` and within a family (R195). -/
theorem planTarget_eq_none {s : State} (h : ClockOk s) (rate : Word) :
    planTarget rate false s = none ↔ s.setup.jmode = .default ∨ fam rate.toNat = fam s.clk.rate.toNat := by
  simp only [planTarget, flag_ne_iff h, Bool.false_eq_true, false_or]
  split
  · rename_i crossed
    rw [target_eq_none, or_iff_left crossed]
  · rename_i same
    simp [not_not.1 same]

theorem sysClkRetarget_mem_retuneEvents (rate : Word) (p : ClockPlan) (s : State) :
    (∃ src hz, .sysClkRetarget src hz ∈ retuneEvents rate p s) ↔ planTarget rate false s ≠ none := by
  cases h : planTarget rate false s <;> cases s.setup.mclkEn <;> simp [retuneEvents, h]

/-- Settles O18: CHANGE_RATE re-targets exactly where its plan has a target. -/
theorem familyCrossingRetargets : Obligations.FamilyCrossingRetargets := by
  unfold Obligations.FamilyCrossingRetargets
  intro r s t running clk h ok
  obtain ⟨p, rfl⟩ := execChangeRate_of_noError h ok
  have stays := planTarget_eq_none clk (r.setWidth 32)
  rw [toNat_setWidth_rate] at stays
  have events : ((retuned (r.setWidth 32) p s).finish 1 .noError).trace.drop s.trace.length =
      retuneEvents (r.setWidth 32) p s := List.drop_left
  refine ⟨?flag, ?retarget, fun same => ?stays, List.take_left⟩
  case flag =>
    simp only [State.finish_clk, retuned, toNat_setWidth_rate]
    exact flag_ne_iff clk (fam r.toNat)
  case retarget => rw [events, sysClkRetarget_mem_retuneEvents, Ne, stays, not_or]
  case stays =>
    have noTarget := stays.2 same
    simp [retuned, retuneEvents, noTarget]

/-! ## Who writes the clock state -/

/-- Only INITIALIZE and CHANGE_RATE write the clock state (R180). -/
theorem Effect.configures_of_clk_ne {s u : State} {i : Instr} (e : Effect s i u) (changed : u.clk ≠ s.clk) :
    ∃ r, i = .initializeAt r ∨ i = .changeRate r := by
  cases e with
  | initializeAt r => exact ⟨r, .inl rfl⟩
  | changeRate r => exact ⟨r, .inr rfl⟩
  | _ => exact absurd rfl changed

/-- Settles O52: of the effects only INITIALIZE's and CHANGE_RATE's write the clock state, and every step but a command and a
reset leaves it alone. -/
theorem clockWrittenOnlyByConfigurator : Obligations.ClockWrittenOnlyByConfigurator := by
  unfold Obligations.ClockWrittenOnlyByConfigurator
  intro s t h changed
  cases step_effect h with
  | failed _ _ _ ht => exact absurd (by rw [ht]; rfl) changed
  | succeeded w i u cmd dec effect ht =>
    subst ht
    obtain ⟨r, hi⟩ := effect.configures_of_clk_ne changed
    have next := nextCommand_of_writesCmd cmd dec
    exact .inr ⟨r, hi.imp (next.trans <| congrArg some ·) (next.trans <| congrArg some ·)⟩
  | byteWrite _ _ _ _ ht => exact absurd (by rw [ht]; rfl) changed
  | reset head => exact .inl head
  | quiet f => exact absurd f.clk changed

end Sys2Proof.Machine
end

section
/-! PROOFS. The silence hysteresis in one equation (43_sequencer_irq.md R222 to R225), and `irq_step`, which arms what it answers
(R220, R226). -/

namespace Sys2Proof.Machine

/-! ## The silence hysteresis -/

/-- `MUTE` after `hyst` has read the occupancy `occ`: set on an empty ring, and kept below the threshold (R222, R223). -/
def muteAfter (n occ : Nat) (mute : Bool) : Bool := decide (occ = 0) || (mute && decide (occ < n / 4))

theorem occupied_of_live {n occ : Nat} {mute : Bool} (live : muteAfter n occ mute = false) : occ ≠ 0 := by
  rintro rfl
  cases live

/-- The play state with `MUTE` at `m`, the indicator following a change under the default handler (R222, R224). -/
def PlayState.turned (p : PlayState) (m : Bool) : PlayState := if m = p.mute then p else ⟨m, p.hsel, indAfter (!m) p⟩

/-- The notification of the change of `MUTE` from `before` to `after`, if it is one (R224). -/
def turnEvents (before after : Bool) : List OutEvent := if after = before then [] else [.notify (!after)]

@[simp] theorem PlayState.turned_mute (p : PlayState) (m : Bool) : (p.turned m).mute = m := by
  unfold turned
  split <;> simp_all

@[simp] theorem turnEvents_self (m : Bool) : turnEvents m m = [] := if_pos rfl

theorem turnEvents_of_ne {before after : Bool} (h : after ≠ before) : turnEvents before after = [.notify (!after)] := if_neg h

theorem eq_of_notify_mem_turnEvents {before after b : Bool} (h : .notify b ∈ turnEvents before after) :
    after ≠ before ∧ b = !after := by
  by_cases turned : after = before
  · simp [turned] at h
  · rw [turnEvents_of_ne turned] at h
    exact ⟨turned, by simpa using h⟩

/-- Everything `hyst` does follows from the `MUTE` it leaves. -/
theorem hyst_eq_judged (occ : BitVec 8) (s : State) : hyst occ s =
    (if muteAfter s.cfg.n occ.toNat s.play.mute then .muted else .live,
      s.judged (s.play.turned (muteAfter s.cfg.n occ.toNat s.play.mute))
        (turnEvents s.play.mute (muteAfter s.cfg.n occ.toNat s.play.mute))) := by
  obtain ⟨h0, hm, h⟩ | ⟨h0, hm, h⟩ | ⟨h0, hm, h⟩ | ⟨h0, hm, below, h⟩ | ⟨h0, hm, reached, h⟩ := hyst_cases occ s
  · simp [h, transition_eq, muteAfter, PlayState.turned, turnEvents, State.judged, h0, hm]
  · simp [h, muteAfter, PlayState.turned, turnEvents, State.judged, h0, hm]
  · simp [h, muteAfter, PlayState.turned, turnEvents, State.judged, h0, hm]
  · simp [h, muteAfter, PlayState.turned, turnEvents, State.judged, h0, hm, below]
  · simp [h, transition_eq, muteAfter, PlayState.turned, turnEvents, State.judged, h0, hm, Nat.not_lt.2 reached]

/-! ## `irq_step` -/

/-- The state `irq_step` leaves with `MUTE` at `m`: the mute block armed if set, else the oldest block (R220). -/
def irqOutcome (m : Bool) (s : State) : State :=
  let judged := (clearPend s).judged (s.play.turned m) (turnEvents s.play.mute m)
  if m then armMuteBlock judged else armOldest judged

/-- The verdict live comes with an occupied ring, so that its oldest block is armed (40_ring_buffer.md R135). -/
theorem irqArm_verdict {m : Bool} {s : State} (occupied : m = false → s.ring.occ.toNat ≠ 0) :
    irqArm (if m then .muted else .live) s = if m then armMuteBlock s else armOldest s := by
  cases m with
  | true => rfl
  | false =>
    have dequeues : ringDequeue s.cfg.n s.ring = some _ := ringDequeue_eq_some.2 ⟨occupied rfl, rfl, rfl, rfl⟩
    simp only [irqArm, Bool.false_eq_true, if_false, dequeues]
    rfl

theorem irqStep_of_enabled {s : State} (enabled : irqEnabled s = true) :
    irqStep s = .next (irqOutcome (muteAfter s.cfg.n s.ring.occ.toNat s.play.mute) s) := by
  rw [irqStep, if_neg (by simp [enabled]), irqBody, hyst_eq_judged]
  exact congrArg Host.Outcome.next (irqArm_verdict (s := (clearPend s).judged _ _) occupied_of_live)

section
variable (m : Bool) (s : State)

theorem irqOutcome_play : (irqOutcome m s).play = s.play.turned m := by cases m <;> rfl

theorem irqOutcome_mute : (irqOutcome m s).play.mute = m := by rw [irqOutcome_play, PlayState.turned_mute]

theorem irqOutcome_trace : (irqOutcome m s).trace = s.trace ++ turnEvents s.play.mute m ++
    [if m then .dmaArm .muteBlock 0 (BitVec.ofNat 32 s.cfg.muteLen)
      else .dmaArm .slot s.ring.deq (s.ring.slot s.ring.deq.toNat).count] := by
  cases m <;> rfl

theorem irqOutcome_frame : (irqOutcome m s).env = { s.env with pos := 0 } ∧ irqOutcome m s =
    { s with
      play := (irqOutcome m s).play, ring := (irqOutcome m s).ring, dma := (irqOutcome m s).dma
      trace := (irqOutcome m s).trace, env := (irqOutcome m s).env } := by
  cases m <;> exact ⟨rfl, rfl⟩

end

/-- Settles O36: the outcome follows from the `MUTE` the hysteresis leaves, and each row of R225 decides that. -/
theorem irqStepFollowsHysteresisTable : Obligations.IrqStepFollowsHysteresisTable := by
  unfold Obligations.IrqStepFollowsHysteresisTable
  intro s running strat pend width cursors occ muteArm liveArm indicator
  obtain ⟨m, decided⟩ : ∃ m, muteAfter s.cfg.n occ s.play.mute = m := ⟨_, rfl⟩
  have completes : perform .irqStep s = .next (irqOutcome m s) :=
    decided ▸ irqStep_of_enabled (irqEnabled_eq.2 ⟨running, strat, pend⟩)
  obtain ⟨env, frame⟩ := irqOutcome_frame m s
  refine ⟨_, completes, ?muted, ?live, fun hm h0 => ?_, fun hm h1 => ?_, fun hm h0 => ?_, fun hm h1 below => ?_,
    fun hm h1 reached => ?_, env, frame⟩
  case muted =>
    intro hm
    obtain rfl : m = true := irqOutcome_mute m s ▸ hm
    exact ⟨rfl, rfl⟩
  case live =>
    intro hm
    obtain rfl : m = false := irqOutcome_mute m s ▸ hm
    exact ⟨rfl, rfl, rfl, occ_pred_toNat (occupied_of_live decided),
      advance_toNat s.ring.deq (Nat.zero_lt_of_lt cursors.deq_lt) width⟩
  all_goals rw [irqOutcome_play, irqOutcome_trace, ← decided]
  · simp [muteAfter, PlayState.turned, turnEvents, hm, h0, indicator, indAfter, muteArm]
  · simp [muteAfter, turnEvents, PlayState.turned, hm, Nat.ne_of_gt h1, liveArm]
  · simp [muteAfter, turnEvents, PlayState.turned, hm, h0, muteArm]
  · simp [muteAfter, turnEvents, PlayState.turned, hm, below, muteArm]
  · simp [muteAfter, turnEvents, PlayState.turned, hm, Nat.not_lt.2 reached, Nat.ne_of_gt h1, liveArm, indicator, indAfter]

end Sys2Proof.Machine
end

section
/-! PROOFS. What a step adds to the trace, and that its notifications are the transitions of `MUTE` (43_sequencer_irq.md R222,
R224). -/

namespace Sys2Proof.Machine

/-! ## What an operation adds to the trace -/

/-- From `s` to `t` the trace grows by the notifications `notes` and then by events that are none. -/
def Emits (s t : State) (notes : List OutEvent) : Prop :=
  ∃ es, (∀ b, OutEvent.notify b ∉ es) ∧ t.trace = s.trace ++ (notes ++ es)

theorem Emits.of_trace_eq {s t : State} (h : t.trace = s.trace) : Emits s t [] := ⟨[], nofun, by simp [h]⟩

theorem Emits.trans {s t u : State} {notes : List OutEvent} (h : Emits s t notes) (h' : Emits t u []) :
    Emits s u notes := by
  obtain ⟨es, others, trace⟩ := h
  obtain ⟨es', others', trace'⟩ := h'
  exact ⟨es ++ es', by simp [others, others'], by simp [trace, trace']⟩

theorem clockCommit_emits (p : ClockPlan) (first : Bool) (s : State) : Emits s (clockCommit p first s) [] := by
  refine ⟨commitEvents p first s, fun b => ?_, by rw [clockCommit_eq]; rfl⟩
  unfold commitEvents
  split <;> split <;> split <;> simp

theorem startSession_emits (s : State) : Emits s (startSession s) [] := by
  rw [startSession_eq]
  refine ⟨_, fun b => ?_, List.append_assoc s.trace _ _⟩
  split <;> simp

theorem endSession_emits (s : State) : Emits s (endSession s) [] := by
  rw [endSession_eq]
  exact ⟨[.outputDisable, .resourcesReleased], by simp, rfl⟩

/-! ## The commands -/

section
variable {s u : State} {i : Instr} (e : Effect s i u)
include e

/-- No command notifies. -/
theorem Effect.emits : Emits s u [] := by
  cases e with
  | initializeAt r p => exact (clockCommit_emits p true s).trans (startSession_emits _)
  | changeRate r p => exact clockCommit_emits p false s
  | shutdownRunning => exact endSession_emits s
  | _ => exact .of_trace_eq rfl

/-- Only INITIALIZE writes `MUTE` (45_volume_lifecycle.md R276). -/
theorem Effect.mute_eq (notInit : ∀ r, i ≠ .initializeAt r) : u.play.mute = s.play.mute := by
  cases e with
  | initializeAt r => exact absurd rfl (notInit r)
  | changeRate => simp [clockCommit_eq]
  | shutdownRunning => simp [endSession_eq]
  | _ => rfl

end

/-! ## The other steps -/

theorem hyst_emits (occ : BitVec 8) (s : State) :
    Emits s (hyst occ s).2 (turnEvents s.play.mute (hyst occ s).2.play.mute) := by
  rw [hyst_eq_judged]
  exact ⟨[], nofun, by simp [State.judged]⟩

/-- Arming notifies nothing and leaves the play state alone (R226). -/
theorem irqArm_emits (v : Verdict) (s : State) : Emits s (irqArm v s) [] ∧ (irqArm v s).play = s.play := by
  obtain ⟨armed, -⟩ | ⟨-, -, armed⟩ := irqArm_cases v s <;> rw [armed]
  · exact ⟨⟨[.dmaArm ..], by simp, rfl⟩, rfl⟩
  · exact ⟨⟨[.dmaArm ..], by simp, rfl⟩, rfl⟩

theorem irqBody_emits {occ : BitVec 8} {s t : State} (h : irqBody occ s = .next t) :
    Emits s t (turnEvents s.play.mute t.play.mute) := by
  obtain rfl : irqArm (hyst occ (clearPend s)).1 (hyst occ (clearPend s)).2 = t := Host.Outcome.next.inj h
  obtain ⟨armed, play⟩ := irqArm_emits (hyst occ (clearPend s)).1 (hyst occ (clearPend s)).2
  rw [play]
  exact (hyst_emits occ (clearPend s)).trans armed

theorem fillBody_emits {occ : BitVec 8} {s t : State} (h : fillBody occ s = .next t) :
    Emits s t (turnEvents s.play.mute t.play.mute) := by
  have judged := hyst_emits occ s
  obtain ⟨rfl, -⟩ | ⟨-, -, block, -, rfl⟩ := fillFrom_next (v := (hyst occ s).1) (s := (hyst occ s).2) h
  · exact judged
  · exact judged

theorem Event.Consumes.body {e : Event} {s t : State} (consumes : e.Consumes) (h : perform e s = .next t) :
    ∃ occ, irqBody occ s = .next t ∨ fillBody occ s = .next t := by
  simp only [Consumes, List.mem_cons, List.not_mem_nil, or_false] at consumes
  obtain rfl | rfl | rfl | rfl := consumes
  · exact ⟨_, .inl (irqStep_next h).2⟩
  · exact ⟨_, .inl (irqStepStale_next h).2.2⟩
  · exact ⟨_, .inr (ctx2Fill_next h).2⟩
  · exact ⟨_, .inr (ctx2FillStale_next h).2.2⟩

/-- A step of no consumer and no reset notifies nothing, and changes `MUTE` by an INITIALIZE alone. -/
theorem Performs.emits {s t : State} {e : Event} (h : Performs s e t) (noReset : e ≠ .platformReset)
    (notConsumes : ¬ e.Consumes) : Emits s t [] ∧
      (t.play.mute = s.play.mute ∨ ∃ w r, e.WritesCmd w ∧ decode w = .ok (.initializeAt r)) := by
  cases h with
  | @succeeded _ w i u cmd dec effect =>
    refine ⟨effect.emits, ?_⟩
    by_cases init : ∃ r, i = .initializeAt r
    · obtain ⟨r, rfl⟩ := init
      exact .inr ⟨w, r, cmd, dec⟩
    · exact .inl (effect.mute_eq fun r hi => init ⟨r, hi⟩)
  | reset => exact absurd rfl noReset
  | armedMute _ _ consumes | armedOldest _ _ consumes | filledMute _ _ consumes | filledOldest _ _ _ consumes =>
    exact absurd consumes notConsumes
  | armedScratch => exact ⟨⟨_, by simp, rfl⟩, .inl rfl⟩
  | _ => exact ⟨.of_trace_eq rfl, .inl rfl⟩

theorem perform_emits {e : Event} {s t : State} (h : perform e s = .next t) (noReset : e ≠ .platformReset) :
    Emits s t (turnEvents s.play.mute t.play.mute) ∨
      (Emits s t [] ∧ ∃ w r, e.WritesCmd w ∧ decode w = .ok (.initializeAt r)) := by
  by_cases consumes : e.Consumes
  · obtain ⟨occ, irq | fill⟩ := consumes.body h
    · exact .inl (irqBody_emits irq)
    · exact .inl (fillBody_emits fill)
  · obtain ⟨emits, mute | init⟩ := (perform_next h).emits noReset consumes
    · exact .inl (by rwa [mute, turnEvents_self])
    · exact .inr ⟨emits, init⟩

/-- A step notifies of the change it makes to `MUTE`, or clears it in an INITIALIZE without a notification (R222, R276). -/
theorem step_emits {s t : State} (h : step s = .next t) (noReset : nextIsReset s = false) :
    Emits s t (turnEvents s.play.mute t.play.mute) ∨ (Emits s t [] ∧ ∃ r, nextCommand s = some (.initializeAt r)) := by
  cases hs : s.env.schedule with
  | nil =>
    obtain rfl : s = t := by simpa [step, hs] using h
    exact .inl (by rw [turnEvents_self]; exact .of_trace_eq rfl)
  | cons e es =>
    have eNoReset : e ≠ .platformReset := by
      rintro rfl
      simp [nextIsReset, hs] at noReset
    obtain turned | ⟨emits, w, r, cmd, dec⟩ := perform_emits (step_of_schedule_cons hs ▸ h) eNoReset
    · exact .inl turned
    · exact .inr ⟨emits, r, nextCommand_of_writesCmd (by simpa [NextWritesCmd, Event.WritesCmd, hs] using cmd) dec⟩

/-- Settles O55: what a step adds to the trace holds the notification of its transition and no other. -/
theorem notifyExactlyOnTransitions : Obligations.NotifyExactlyOnTransitions := by
  unfold Obligations.NotifyExactlyOnTransitions
  intro s t h noReset
  obtain ⟨es, others, trace⟩ | ⟨⟨es, others, trace⟩, init⟩ := step_emits h noReset <;>
    rw [trace, List.take_left, List.drop_left]
  · refine ⟨rfl, fun b hb => ?_, fun turned => .inr ?_⟩
    · exact eq_of_notify_mem_turnEvents ((List.mem_append.1 hb).resolve_right (others b))
    · rw [turnEvents_of_ne turned, List.count_append, List.count_eq_zero.2 (others _), List.count_singleton_self]
  · exact ⟨rfl, fun b hb => absurd hb (others b), fun _ => .inl init⟩

end Sys2Proof.Machine
end

section
/-! PROOFS. The DMA engine's reads: what an armed transfer delivers (43_sequencer_irq.md R227, 60_exceptions.md R311). -/

namespace Sys2Proof.Machine

theorem dmaRead_of_armedDatum {s : State} {d : Word} (enabled : dmaReadEnabled s = true)
    (datum : armedDatum s s.env.pos = some d) : dmaRead s = .next (s.deliver [d]) := by
  simp [dmaRead, enabled, datum]

/-- Settles O42: an enabled read delivers the datum at the engine's place. -/
theorem dmaReadDeliversInPlace : Obligations.DmaReadDeliversInPlace := by
  unfold Obligations.DmaReadDeliversInPlace
  intro s d busy left datum
  exact dmaRead_of_armedDatum (dmaReadEnabled_eq.2 ⟨busy, left⟩) datum

theorem dmaDone_of_armedDatums {s : State} {ds : List Word} (running : s.lc = .running) (busy : s.dma.busy = true)
    (left : armedDatums s s.env.pos (s.dma.count.toNat - s.env.pos) = some ds) :
    dmaDone s = .next (transferComplete (s.deliver ds)) := by
  simp [dmaDone, running, busy, left]

/-- The source of a transfer in flight is the mute block, a slot or the area not being filled, and each of its `DESC_COUNT`
datums was written (R226, 44_sequencer_second_context.md R253). -/
theorem SequencerOk.source {s : State} (h : SequencerOk s) (busy : s.dma.busy = true) :
    (s.dma.kind = .muteBlock ∧ s.dma.count.toNat = s.cfg.muteLen) ∨
    (s.dma.kind = .slot ∧ s.dma.count.toNat ≤ (s.ring.slot s.dma.idx.toNat).data.length) ∨
    (s.dma.kind = .scratch ∧ s.dma.idx = scrIndex (!s.ctx.cur) ∧
      s.dma.count.toNat ≤ (s.ctx.scr (!s.ctx.cur)).data.length) := by
  cases strat : s.setup.strat with
  | irq =>
    obtain ⟨kind, -, count⟩ | ⟨kind, -, count⟩ := h.irq_source busy strat
    · exact .inl ⟨kind, count⟩
    · exact .inr (.inl ⟨kind, count⟩)
  | ctx2 =>
    obtain ⟨kind, idx, count⟩ := h.ctx2_source busy strat
    exact .inr (.inr ⟨kind, idx, count ▸ (h.scr_ok _).count_le⟩)

/-- A transfer whose datums are those of the list `source` delivers a first part of it. -/
theorem armedDatums_eq_take {s : State} {source : List Word} {k : Nat} (reads : ∀ j, armedDatum s j = source[j]?)
    (inside : k ≤ source.length) : armedDatums s 0 k = some (source.take k) := by
  refine armedDatums_eq_some.2 ⟨List.length_take_of_le inside, fun j hj => ?_⟩
  rw [Nat.zero_add, reads, List.getElem?_take_of_lt hj]

/-- Settles O41: the engine reads the armed source's datums from its first one, and `dma_done` delivers those left. -/
theorem transferDeliversArmedBlock : Obligations.TransferDeliversArmedBlock := by
  unfold Obligations.TransferDeliversArmedBlock
  intro s inv busy start source
  obtain ⟨inside, reads⟩ : s.dma.count.toNat ≤ source.length ∧ ∀ j, armedDatum s j = source[j]? := by
    obtain ⟨kind, count⟩ | ⟨kind, count⟩ | ⟨kind, idx, count⟩ := inv.seq.source busy
    · simp [source, armedDatum, kind, count, muteBlock]
    · simp [source, armedDatum, kind, count, Ring.datum]
    · simpa only [source, armedDatum, kind, idx, scrIndex_ne_zero, implies_true, and_true] using count
  have left : armedDatums s s.env.pos (s.dma.count.toNat - s.env.pos) = some (source.take s.dma.count.toNat) := by
    rw [start, Nat.sub_zero, armedDatums_eq_take reads inside]
  refine ⟨inside, _, dmaDone_of_armedDatums (inv.seq.busy_running busy) busy left, rfl, ?_, rfl⟩
  simp [start, inside]

end Sys2Proof.Machine
end

section
/-! PROOFS. The second-context loop (44_sequencer_second_context.md): a fill expands the oldest block or the mute block into
`SCR[CUR]` (R251, R252, R257), which no transfer in flight reads (R253), and an arm hands that area to the DMA engine (R254). -/

namespace Sys2Proof.Machine

/-! ## The mute block -/

/-- Silent pairs pack to silence under every policy. -/
theorem pack_replicate_zero (pol : Policy) (k : Nat) :
    pack pol (List.replicate k (0, 0)) = List.replicate (k * pairWidth pol) 0 := by
  have pair : packPair pol (0, 0) = List.replicate (pairWidth pol) 0 := by cases pol <;> decide
  rw [pack, List.flatMap_replicate, pair, List.flatten_replicate_replicate]

/-- Settles O38: an even mute block is the `STANDARD` packing of silent pairs, so that expanding it packs them again. -/
theorem muteBlockExpandsToZeros : Obligations.MuteBlockExpandsToZeros := by
  unfold Obligations.MuteBlockExpandsToZeros
  intro p pol even
  have pairs : p.muteLen / 2 * 2 = p.muteLen := Nat.div_mul_cancel (Nat.dvd_of_mod_eq_zero even)
  have silent : muteBlock p = pack .standard (List.replicate (p.muteLen / 2) (0, 0)) := by
    rw [pack_replicate_zero, pairWidth, pairs, muteBlock]
  rw [silent, expand_pack_standard, pack_replicate_zero, pairWidth_eq]
  congr 1
  split <;> omega

/-! ## `MUTE` and the indicator -/

/-- The verdict is live on a ring that holds a block, and while muted one that holds a quarter of its slots (R222, R223). -/
theorem muteAfter_eq_false {n occ : Nat} {mute : Bool} :
    muteAfter n occ mute = false ↔ occ ≠ 0 ∧ (mute = false ∨ n / 4 ≤ occ) := by
  cases mute <;> simp [muteAfter]

@[simp] theorem PlayState.turned_hsel (p : PlayState) (m : Bool) : (p.turned m).hsel = p.hsel := by
  unfold turned
  split <;> rfl

theorem PlayState.turned_ind (p : PlayState) (m : Bool) :
    (p.turned m).ind = if m ≠ p.mute ∧ p.hsel = .default then !m else p.ind := by
  by_cases same : m = p.mute
  · simp [turned, same]
  · simp [turned, same, indAfter]

/-! ## `ctx2_fill` -/

/-- The block a fill expands with `MUTE` at `m`: the mute block if set, else the oldest one (R251, R252). -/
def fillSource (m : Bool) (s : State) : List Word :=
  if m then muteBlock s.cfg else (s.ring.slot s.ring.deq.toNat).contents

/-- The state `ctx2_fill` leaves with `MUTE` at `m`: the ring dequeued unless set, and `SCR[CUR]` filled (R251). -/
def fillOutcome (m : Bool) (s : State) : State :=
  let judged := s.judged (s.play.turned m) (turnEvents s.play.mute m)
  fillScratch (fillSource m s) (if m then judged else judged.dequeued)

/-- The verdict live comes with an occupied ring, whose oldest block was written (40_ring_buffer.md R134). -/
theorem fillFrom_verdict {m : Bool} {s : State} (ring : RingOk s) (occupied : m = false → s.ring.occ.toNat ≠ 0) :
    fillFrom (if m then .muted else .live) s = .next (fillScratch (fillSource m s) (if m then s else s.dequeued)) := by
  cases m with
  | true => rfl
  | false =>
    have dequeues : ringDequeue s.cfg.n s.ring = some _ := ringDequeue_eq_some.2 ⟨occupied rfl, rfl, rfl, rfl⟩
    have reads : (s.ring.slot s.ring.deq.toNat).readFirst (s.ring.slot s.ring.deq.toNat).count.toNat = some _ :=
      SampleBlock.readFirst_eq_some.2 ⟨(ring.slots_ok _ ring.oldest_mem).count_le, rfl⟩
    simp only [fillFrom, Bool.false_eq_true, if_false, dequeues, reads]
    rfl

theorem ctx2Fill_of_enabled {s : State} (ring : RingOk s) (enabled : fillEnabled s = true) :
    ctx2Fill s = .next (fillOutcome (muteAfter s.cfg.n s.ring.occ.toNat s.play.mute) s) := by
  rw [ctx2Fill, if_neg (by simp [enabled]), fillBody, hyst_eq_judged]
  exact fillFrom_verdict (s := s.judged _ _) { ring with } occupied_of_live

section
variable (m : Bool) (s : State)

theorem fillOutcome_play : (fillOutcome m s).play = s.play.turned m := by cases m <;> rfl

theorem fillOutcome_trace : (fillOutcome m s).trace = s.trace ++ turnEvents s.play.mute m := by cases m <;> rfl

theorem fillOutcome_ctx : (fillOutcome m s).ctx = (fillScratch (fillSource m s) s).ctx := by cases m <;> rfl

theorem fillOutcome_frame : fillOutcome m s =
    { s with
      play := (fillOutcome m s).play, ring := (fillOutcome m s).ring, ctx := (fillOutcome m s).ctx
      trace := (fillOutcome m s).trace } := by
  cases m <;> rfl

theorem fillOutcome_scr (c : Bool) : (fillOutcome m s).ctx.scr c =
    if c = s.ctx.cur then (s.ctx.scr c).store (expand (formatPolicy s) (fillSource m s)) else s.ctx.scr c := by
  simp only [fillOutcome_ctx, fillScratch_ctx, ContextState.scr_with_ph, ContextState.scr_setScr]
  split
  · rename_i current
    rw [current]
  · rfl

end

/-- A scratch area's length fits `COUNT` (10_state.md R46, R47). -/
theorem scrWords_lt {p : Params} (h : p.WF) : scrWords p < 2 ^ 32 := by
  have := h.pairs_width
  have := h.mute_width
  unfold scrWords
  omega

/-- What a fill expands fits half a scratch area (10_state.md R46, R158). -/
theorem fillSource_length_le {s : State} (ring : RingOk s) (strat : s.setup.strat = .ctx2) (m : Bool) :
    (fillSource m s).length ≤ max (2 * s.cfg.pairsMax) s.cfg.muteLen := by
  cases m with
  | true => simp [fillSource, muteBlock]
  | false =>
    have count := ring.slots_standard strat _ ring.oldest_mem
    exact (List.length_take_le _ _).trans (count.trans (Nat.le_max_left _ _))

/-- `SCR[CUR]` holds the expanded block behind its `COUNT`, and beyond it what it held before (10_state.md R38). -/
theorem fillOutcome_holds {s : State} (inv : s.Inv) (strat : s.setup.strat = .ctx2) (m : Bool) :
    let block := expand (formatPolicy s) (fillSource m s)
    let filled := (fillOutcome m s).ctx.scr s.ctx.cur
    filled.count.toNat = block.length ∧
      ∀ j, filled.data[j]? = if j < block.length then block[j]? else (s.ctx.scr s.ctx.cur).data[j]? := by
  intro block filled
  have stored : filled = (s.ctx.scr s.ctx.cur).store block := (fillOutcome_scr m s _).trans (if_pos rfl)
  have fits : block.length < 2 ^ 32 :=
    (expand_fitsScratch _ (fillSource_length_le inv.ring strat m)).trans_lt (scrWords_lt inv.cfg)
  rw [stored]
  exact ⟨by rw [SampleBlock.store_count, BitVec.toNat_ofNat, Nat.mod_eq_of_lt fits], SampleBlock.store_datum _ _⟩

/-- Settles O37: the outcome follows from the `MUTE` the hysteresis leaves, which is clear exactly in the live case. -/
theorem fillFormatsIntoScratch : Obligations.FillFormatsIntoScratch := by
  unfold Obligations.FillFormatsIntoScratch
  intro s inv running strat ph occ live old holds
  obtain ⟨m, decided⟩ : ∃ m, muteAfter s.cfg.n occ s.play.mute = m := ⟨_, rfl⟩
  have live_iff : live ↔ m = false := decided ▸ muteAfter_eq_false.symm
  have completes : perform .ctx2Fill s = .next (fillOutcome m s) :=
    decided ▸ ctx2Fill_of_enabled inv.ring (fillEnabled_eq.2 ⟨running, strat, ph⟩)
  have mute : (fillOutcome m s).play.mute = m := by rw [fillOutcome_play, PlayState.turned_mute]
  have filled := fillOutcome_holds inv strat m
  refine ⟨_, completes, by rw [fillOutcome_ctx]; rfl, by simp [fillOutcome_ctx], by simp [fillOutcome_scr],
    fun isLive => ?live, fun notLive => ?muted, by rw [mute]; exact fillOutcome_trace m s,
    by rw [fillOutcome_play, PlayState.turned_hsel], by rw [mute, fillOutcome_play, PlayState.turned_ind],
    fillOutcome_frame m s⟩
  case live =>
    obtain rfl : m = false := live_iff.1 isLive
    exact ⟨filled, mute, rfl, rfl, occ_pred_toNat isLive.1,
      advance_toNat s.ring.deq (Nat.zero_lt_of_lt inv.ring.cursors.deq_lt) inv.cfg.n_width⟩
  case muted =>
    obtain rfl : m = true := Bool.eq_true_of_not_eq_false (notLive ∘ live_iff.2)
    exact ⟨filled, mute, rfl⟩

/-- Settles O44: the transfer reads the area a fill leaves alone. -/
theorem scratchInFlightIsNotFilled : Obligations.ScratchInFlightIsNotFilled := by
  unfold Obligations.ScratchInFlightIsNotFilled
  intro s inv busy strat
  obtain ⟨kind, idx, -⟩ := inv.seq.ctx2_source busy strat
  refine ⟨⟨kind, idx⟩, fun t fills j => ?_⟩
  obtain ⟨enabled, -⟩ := ctx2Fill_next fills
  obtain rfl : fillOutcome _ s = t := Host.Outcome.next.inj ((ctx2Fill_of_enabled inv.ring enabled).symm.trans fills)
  rw [fillOutcome_frame]
  simp only [armedDatum, kind, idx, scrIndex_ne_zero, fillOutcome_scr, Bool.not_eq_self, if_false]

/-! ## `ctx2_arm` -/

theorem ctx2Arm_of_enabled {s : State} (enabled : armEnabled s = true) : ctx2Arm s = .next (armScratch s) :=
  if_neg (by simp [enabled])

/-- Settles O39: the loop waits with `SCR[CUR]` filled, so that it arms the area once no transfer is in flight and neither step
is enabled before. -/
theorem contextArmStartsTransfer : Obligations.ContextArmStartsTransfer := by
  unfold Obligations.ContextArmStartsTransfer
  intro s running strat ph
  refine ⟨fun free => ?_, fun busy => ⟨?_, ?_⟩⟩
  · exact ⟨_, ctx2Arm_of_enabled (armEnabled_eq.2 ⟨running, strat, ph, free⟩), rfl, rfl, rfl, rfl, rfl⟩
  · exact if_pos (by simp [armEnabled, busy])
  · exact if_pos (by simp [fillEnabled, ph])

end Sys2Proof.Machine
end

section
/-! PROOFS. The lifecycle commands (45_volume_lifecycle.md R272 to R280), SET_VOLUME and SET_HANDLER (R270, R271, R278). -/

namespace Sys2Proof.Machine

/-! ## The ring cleared -/

@[simp] theorem Ring.slot_clear_count (r : Ring) (k : Nat) : (r.clear.slot k).count = 0 := by
  rw [Ring.slot_clear, SampleBlock.clear_count]

@[simp] theorem Ring.datum_clear (r : Ring) (k j : Nat) : r.clear.datum k j = r.datum k j := by
  rw [Ring.datum, Ring.slot_clear, SampleBlock.clear_data, Ring.datum]

/-! ## INITIALIZE -/

/-- A session's first plan re-targets to the family's target, whatever the family before (42_clock_configurator.md R186). -/
theorem planTarget_first (rate : Word) (s : State) :
    planTarget rate true s = target s.cfg s.setup.jmode (fam rate.toNat) :=
  if_pos (.inl rfl)

/-- A session's first commit detaches the peripheral clock in the PLL modes, unless it is detached already (R185). -/
theorem detaches_first (s : State) :
    detaches true s = true ↔ (s.setup.jmode = .lj ∨ s.setup.jmode = .ljoc) ∧ s.clk.periDet = false := by
  simp [detaches]

theorem periDet_or_detaches_first (s : State) : (s.clk.periDet || detaches true s) =
    (s.clk.periDet || decide (s.setup.jmode = .lj) || decide (s.setup.jmode = .ljoc)) := by
  cases h : s.clk.periDet <;> simp [detaches, h]

section
variable {r : BitVec 24} {p : ClockPlan} {s : State} (plan : clockPlan (r.setWidth 32) true s = some p)
include plan

/-- The system clock a session starts on (R184, R186). -/
theorem committedSystem_of_first : committedSystem p s =
    (target s.cfg s.setup.jmode (fam r.toNat)).getD (s.clk.sysSrc, s.clk.sysHz) := by
  rw [(planned_of_clockPlan plan).system, planSystem_eq, planTarget_first, toNat_setWidth_rate]

/-- The events of a session's first commit, in their order (R185, R186). -/
theorem commitEvents_of_first : commitEvents p true s =
    (if (s.setup.jmode = .lj ∨ s.setup.jmode = .ljoc) ∧ s.clk.periDet = false then [.periClkDetach] else []) ++
      ((target s.cfg s.setup.jmode (fam r.toNat)).toList.map fun x => .sysClkRetarget x.1 x.2) ++
      [.setDivider p.div.1 p.div.2] ++ (if s.setup.mclkEn then [.setMclkDivider p.mdiv.1 p.mdiv.2] else []) := by
  obtain ⟨d, m, -, -, rfl⟩ := clockPlan_eq_some.1 plan
  rw [planSystem_eq, planTarget_first, toNat_setWidth_rate]
  simp only [commitEvents, detaches_first]
  cases target s.cfg s.setup.jmode (fam r.toNat) <;> rfl

theorem execInitialize_of_plan (idle : s.lc = .idle) (legal : rateLegal r.toNat = true)
    (pins : pinsOk s.cfg s.setup = true) (claim : s.env.hwClaimOk = true) :
    execInitialize r s = .next ((startSession (clockCommit p true s)).finish 1 .noError) := by
  simp [execInitialize, idle, legal, pins, plan, claim, complete]

end

/-- Settles O15: the plan committed on the state before, then the session started. -/
theorem initializeStartsSession : Obligations.InitializeStartsSession := by
  unfold Obligations.InitializeStartsSession
  intro r p s idle legal pins plan claim
  obtain ⟨rate, family, -⟩ := planned_of_clockPlan plan
  refine ⟨_, execInitialize_of_plan plan idle legal pins claim, ?_⟩
  rw [startSession_eq, clockCommit_eq, committedSystem_of_first plan, commitEvents_of_first plan,
    periDet_or_detaches_first, rate, family, toNat_setWidth_rate]
  exact ⟨rfl, rfl, rfl, rfl, rfl, rfl, rfl, rfl, rfl, rfl, rfl, Ring.slot_clear_count _, Ring.datum_clear _, rfl, rfl,
    fun irq => if_pos irq, fun ctx2 => if_neg (by simp [ctx2]), by simp only [State.finish_trace, List.append_assoc],
    rfl, rfl, rfl, rfl, rfl⟩

/-! ## SHUTDOWN -/

theorem execShutdown_of_running {s : State} (running : s.lc = .running) :
    execShutdown s = .next ((endSession s).finish 1 .noError) := by
  rw [execShutdown, if_pos running, complete]

theorem execShutdown_of_idle {s : State} (idle : s.lc = .idle) : execShutdown s = .next (s.finish 1 .noError) := by
  rw [execShutdown, if_neg (by simp [idle]), complete]

/-- Settles O16: the session ends in the state of `endSession_eq`; in `IDLE` there is none to end. -/
theorem shutdownEndsSession : Obligations.ShutdownEndsSession := by
  unfold Obligations.ShutdownEndsSession
  refine ⟨fun s running => ⟨_, execShutdown_of_running running, ?_⟩, fun s idle => execShutdown_of_idle idle⟩
  rw [endSession_eq]
  exact ⟨rfl, rfl, rfl, rfl, rfl, rfl, rfl, Ring.slot_clear_count _, Ring.datum_clear _, rfl, rfl⟩

/-! ## CONFIGURE_PINS and CONFIGURE -/

/-- Settles O13: `IDLE` is the one state in which the pins are stored. -/
theorem configurePinsStoresPins : Obligations.ConfigurePinsStoresPins := by
  unfold Obligations.ConfigurePinsStoresPins
  intro d c m en s idle
  exact ⟨_, if_neg (by simp [idle]), rfl, rfl, rfl⟩

@[simp] theorem Format.ofCode_code (f : Format) : Format.ofCode f.code = some f := by cases f <;> rfl

theorem Format.ofCode_eq_none : ∀ c : BitVec 3, 4 < c.toNat → Format.ofCode c = none := by decide

theorem execConfigure_of_idle (f : Format) (j : JitterMode) (st : Strategy) {s : State} (idle : s.lc = .idle) :
    execConfigure f.code j st s =
      .next (State.finish { s with setup := { s.setup with fmt := f, jmode := j, strat := st } } 1 .noError) := by
  simp [execConfigure, idle, complete]

theorem execConfigure_of_reserved {c : BitVec 3} (j : JitterMode) (st : Strategy) (s : State) (reserved : 4 < c.toNat) :
    execConfigure c j st s = .next (s.finish 0 .illegalCommand) := by
  rw [execConfigure, Format.ofCode_eq_none c reserved, raise]

/-- Settles O14: a format's own code selects it, and a code above 4 selects none. -/
theorem configureStoresSelection : Obligations.ConfigureStoresSelection := by
  unfold Obligations.ConfigureStoresSelection
  exact ⟨fun f j st s idle => ⟨_, execConfigure_of_idle f j st idle, rfl, rfl, rfl⟩,
    fun c j st s reserved => execConfigure_of_reserved j st s reserved⟩

/-! ## SET_VOLUME -/

theorem execSetVolume_of_channel {ch : BitVec 2} (att : BitVec 16) (s : State) (legal : ch ≠ 3) :
    execSetVolume att ch s = .next
      (State.finish { s with vol := setMultipliers ch (volTabAt s.cfg (attenuationIndex att)) s.vol } 1 .noError) :=
  if_neg legal

/-- The index into `VOLTAB` is the magnitude after clamping, itself a natural number (45_volume_lifecycle.md R270). -/
theorem attenuationIndex_eq {att : BitVec 16} {k : Nat} (h : (k : Int) = -(min 0 (max (-100) att.toInt))) :
    attenuationIndex att = k := by
  rw [attenuationIndex, ← h, Int.toNat_natCast]

/-- Settles O32: each multiplier is the table's entry where the channel selects it, else the one before. -/
theorem setVolumeSelectsMultiplier : Obligations.SetVolumeSelectsMultiplier := by
  unfold Obligations.SetVolumeSelectsMultiplier
  refine ⟨fun att s => rfl, fun att ch s legal => ⟨_, execSetVolume_of_channel att s legal, rfl, fun k clamped => ?_, rfl⟩⟩
  rw [attenuationIndex_eq clamped]
  exact ⟨rfl, rfl⟩

/-! ## The volume table (R271) -/

theorem attenuationIndex_of_nonneg {a : BitVec 16} (h : 0 ≤ a.toInt) : attenuationIndex a = 0 := by
  rw [attenuationIndex]; omega

theorem attenuationIndex_le_hundred (a : BitVec 16) : attenuationIndex a ≤ 100 := by
  rw [attenuationIndex]; omega

theorem attenuationIndex_antitone {a b : BitVec 16} (h : a.toInt ≤ b.toInt) : attenuationIndex b ≤ attenuationIndex a := by
  rw [attenuationIndex, attenuationIndex]; omega

theorem volTabAt_zero {p : Params} (wf : p.WF) : volTabAt p 0 = unityGain := by
  rw [volTabAt, wf.volTab_unity, Option.getD_some]

/-- The entries of `VOLTAB` fall with the index (00_scope.md R11). -/
theorem volTabAt_antitone {p : Params} (wf : p.WF) {i j : Nat} (le : i ≤ j) (inside : j ≤ 100) :
    (volTabAt p j).toNat ≤ (volTabAt p i).toNat := by
  obtain rfl | lt := le.eq_or_lt
  · exact le_rfl
  · have hj : j < p.volTab.length := by rw [wf.volTab_length]; omega
    rw [volTabAt, volTabAt, List.getElem?_eq_getElem hj, List.getElem?_eq_getElem (lt.trans hj)]
    exact List.pairwise_iff_getElem.1 wf.volTab_falls i j _ hj lt

/-- Settles O33: the index is 0 from 0 dB up and falls as the attenuation rises, and the entries fall with the index. -/
theorem multiplierFallsWithAttenuation : Obligations.MultiplierFallsWithAttenuation := by
  unfold Obligations.MultiplierFallsWithAttenuation
  intro p wf
  constructor
  · intro a nonneg
    rw [attenuationIndex_of_nonneg nonneg, volTabAt_zero wf, unityGain]
  · intro a b le
    exact volTabAt_antitone wf (attenuationIndex_antitone le) (attenuationIndex_le_hundred a)

/-! ## SET_HANDLER -/

/-- Settles O34: no condition guards the command. -/
theorem setHandlerSelects : Obligations.SetHandlerSelects := by
  unfold Obligations.SetHandlerSelects
  intro h s
  exact ⟨_, rfl, rfl, rfl, rfl⟩

end Sys2Proof.Machine
end

section
/-! PROOFS. Every step keeps what the trace says of the state: one detach at most between two resets (60_exceptions.md R322),
and the notifications of a session alternating from `false`, `MUTE` saying which came last (43_sequencer_irq.md R230). -/

namespace Sys2Proof.Machine

/-! ## The notifications of a session -/

/-- An event that no clause of `TraceOk` speaks of. -/
@[simp] def OutEvent.Unmarked : OutEvent → Prop
  | .periClkDetach | .outputEnable .. | .notify _ => False
  | _ => True

theorem sessionNotifies_append_notify (trace : List OutEvent) (b : Bool) :
    sessionNotifies (trace ++ [.notify b]) = sessionNotifies trace ++ [b] := by
  simp [sessionNotifies]

theorem sessionNotifies_append_detach (trace : List OutEvent) :
    sessionNotifies (trace ++ [.periClkDetach]) = sessionNotifies trace := by
  simp [sessionNotifies]

theorem sessionNotifies_append_enable (trace : List OutEvent) (f : Format) (st : Strategy) (d c m : BitVec 6) (en : Bool) :
    sessionNotifies (trace ++ [.outputEnable f st d c en m]) = [] := by
  simp [sessionNotifies]

theorem sessionNotifies_append_unmarked (trace : List OutEvent) {es : List OutEvent} (unmarked : ∀ e ∈ es, e.Unmarked) :
    sessionNotifies (trace ++ es) = sessionNotifies trace := by
  induction es generalizing trace with
  | nil => rw [List.append_nil]
  | cons e es ih =>
    obtain ⟨first, rest⟩ := List.forall_mem_cons.1 unmarked
    have head : sessionNotifies (trace ++ [e]) = sessionNotifies trace := by
      cases e with
      | periClkDetach | outputEnable | notify => exact first.elim
      | _ => simp [sessionNotifies]
    rw [List.append_cons, ih _ rest, head]

theorem count_detach_append_unmarked (trace : List OutEvent) {es : List OutEvent} (unmarked : ∀ e ∈ es, e.Unmarked) :
    (trace ++ es).count .periClkDetach = trace.count .periClkDetach := by
  rw [List.count_append, List.count_eq_zero.2 fun mem => unmarked .periClkDetach mem, Nat.add_zero]

/-- A value that follows an alternating list goes on with it when it is the value the list's length asks for. -/
theorem alternatesFrom_append_singleton (b x : Bool) (l : List Bool) :
    alternatesFrom b (l ++ [x]) = (alternatesFrom b l && decide (x = (b ^^ decide (l.length % 2 = 1)))) := by
  induction l generalizing b with
  | nil => simp [alternatesFrom]
  | cons y l ih =>
    have parity : decide ((l.length + 1) % 2 = 1) = !decide (l.length % 2 = 1) := by
      rw [← decide_not, decide_eq_decide]
      omega
    simp only [List.cons_append, alternatesFrom, ih, List.length_cons, parity, Bool.and_assoc, Bool.not_xor, Bool.xor_not]

/-! ## The three kinds of growth -/

section
variable {s t : State} (ok : TraceOk s)
include ok

/-- Events the trace invariant does not speak of keep it. -/
theorem TraceOk.of_unmarked {es : List OutEvent} (unmarked : ∀ e ∈ es, e.Unmarked) (trace : t.trace = s.trace ++ es)
    (detached : t.clk.periDet = s.clk.periDet) (mute : t.play.mute = s.play.mute) : TraceOk t where
  detach := by rw [trace, count_detach_append_unmarked _ unmarked, detached, ok.detach]
  alternate := by rw [trace, sessionNotifies_append_unmarked _ unmarked, ok.alternate]
  mute := by rw [trace, sessionNotifies_append_unmarked _ unmarked, mute, ok.mute]

/-- A step that leaves the trace, `PERI_DET` and `MUTE` alone keeps the trace invariant. -/
theorem TraceOk.of_same (trace : t.trace = s.trace) (detached : t.clk.periDet = s.clk.periDet)
    (mute : t.play.mute = s.play.mute) : TraceOk t :=
  ok.of_unmarked (es := []) nofun (by rw [trace, List.append_nil]) detached mute

/-- A transition of `MUTE` notifies of the value that is next in the alternation (43_sequencer_irq.md R230). -/
theorem TraceOk.of_turned (trace : t.trace = s.trace ++ turnEvents s.play.mute t.play.mute)
    (detached : t.clk.periDet = s.clk.periDet) : TraceOk t := by
  by_cases same : t.play.mute = s.play.mute
  · rw [same, turnEvents_self, List.append_nil] at trace
    exact ok.of_same trace detached same
  have next : (!t.play.mute) = decide ((sessionNotifies s.trace).length % 2 = 1) := by
    rw [← ok.mute, Bool.not_eq_eq_eq_not, Bool.eq_not]
    exact same
  rw [turnEvents_of_ne same] at trace
  exact {
    detach := by rw [trace, List.count_append, ok.detach, detached]; rfl
    alternate := by
      rw [trace, sessionNotifies_append_notify, alternatesFrom_append_singleton, ok.alternate, next]
      simp
    mute := by
      rw [trace, sessionNotifies_append_notify, ← Bool.not_not t.play.mute, next, ← decide_not, decide_eq_decide,
        List.length_append, List.length_singleton]
      omega }

end

/-! ## The commands -/

section
variable {s u : State} (ok : TraceOk s)
include ok

/-- A commit detaches only a clock that is not detached yet (42_clock_configurator.md R185). -/
theorem TraceOk.commitDetach (first : Bool) : TraceOk (commitDetach first s) := by
  rw [commitDetach_eq]
  cases detached : detaches first s with
  | false => exact ok.of_same (by simp) (by simp) rfl
  | true =>
    have attached : s.clk.periDet = false := by simpa using (Bool.and_eq_true_iff.1 detached).2
    exact {
      detach := by simp [List.count_append, ok.detach, attached]
      alternate := by simpa [sessionNotifies_append_detach] using ok.alternate
      mute := by simpa [sessionNotifies_append_detach] using ok.mute }

theorem TraceOk.clockCommit (p : ClockPlan) (first : Bool) : TraceOk (clockCommit p first s) := by
  have retargeted : TraceOk (commitRetarget p (Machine.commitDetach first s)) := by
    rw [commitRetarget_eq]
    refine (ok.commitDetach first).of_unmarked ?_ rfl rfl rfl
    split <;> simp
  rw [Machine.clockCommit, commitDividers_eq]
  refine retargeted.of_unmarked ?_ (List.append_assoc _ _ _) rfl rfl
  split <;> simp

/-- A session starts with no notification and `MUTE` clear (45_volume_lifecycle.md R276). -/
theorem TraceOk.startSession : TraceOk (startSession s) := by
  have enabled (f : Format) (st : Strategy) (d c m : BitVec 6) (en : Bool) : TraceOk { s with
      play := { s.play with mute := false }, trace := s.trace ++ [.outputEnable f st d c en m] } := {
    detach := by simp [List.count_append, ok.detach]
    alternate := by simp [sessionNotifies_append_enable, alternatesFrom]
    mute := by simp [sessionNotifies_append_enable] }
  rw [startSession_eq]
  refine (enabled ..).of_unmarked ?_ rfl rfl rfl
  split <;> simp

theorem TraceOk.endSession : TraceOk (endSession s) := by
  rw [endSession_eq]
  exact ok.of_unmarked (by simp) rfl rfl rfl

theorem TraceOk.effect {i : Instr} (effect : Effect s i u) : TraceOk u := by
  cases effect with
  | initializeAt r p => exact (ok.clockCommit p true).startSession
  | changeRate r p => exact ok.clockCommit p false
  | shutdownRunning => exact ok.endSession
  | _ => exact ok.of_same rfl rfl rfl

end

/-! ## The other steps -/

section
variable {s t : State} (ok : TraceOk s)
include ok

theorem TraceOk.hyst (occ : BitVec 8) : TraceOk (hyst occ s).2 := by
  rw [hyst_eq_judged]
  exact ok.of_turned (by simp [State.judged]) rfl

theorem TraceOk.irqArm (v : Verdict) : TraceOk (irqArm v s) := by
  obtain ⟨armed, -⟩ | ⟨-, -, armed⟩ := irqArm_cases v s <;> rw [armed]
  · exact ok.of_unmarked (by simp) (congrArg State.trace (armMuteBlock_eq s)) rfl rfl
  · exact ok.of_unmarked (by simp) rfl rfl rfl

theorem TraceOk.irqBody {occ : BitVec 8} (h : irqBody occ s = .next t) : TraceOk t := by
  obtain rfl : Machine.irqArm _ (Machine.hyst occ (clearPend s)).2 = t := Host.Outcome.next.inj h
  have cleared : TraceOk (clearPend s) := ok.of_same rfl rfl rfl
  exact (cleared.hyst occ).irqArm _

theorem TraceOk.fillBody {occ : BitVec 8} (h : fillBody occ s = .next t) : TraceOk t := by
  obtain ⟨rfl, -⟩ | ⟨-, -, block, -, rfl⟩ := fillFrom_next (s := (Machine.hyst occ s).2) h
  · exact (ok.hyst occ).of_same rfl rfl rfl
  · exact (ok.hyst occ).of_same rfl rfl rfl

theorem Performs.traceOk {e : Event} (performs : Performs s e t) (notConsumes : ¬ e.Consumes) : TraceOk t := by
  cases performs with
  | failed | ignoredWrite | byteWrite | read | byteRead | claim | delivered | ignoredDone | transferred =>
    exact ok.of_same rfl rfl rfl
  | succeeded cmd dec effect =>
    exact (ok.effect effect).of_same rfl rfl rfl
  | reset => exact (resetWith_traceOk s.cfg).of_same rfl rfl rfl
  | armedMute _ _ consumes | armedOldest _ _ consumes | filledMute _ _ consumes | filledOldest _ _ _ consumes =>
    exact absurd consumes notConsumes
  | armedScratch => exact ok.of_unmarked (by simp) rfl rfl rfl

theorem perform_traceOk {e : Event} (h : perform e s = .next t) : TraceOk t := by
  by_cases consumes : e.Consumes
  · obtain ⟨occ, irq | fill⟩ := consumes.body h
    · exact ok.irqBody irq
    · exact ok.fillBody fill
  · exact (perform_next h).traceOk ok consumes

end

/-- Settles O49: a step waits or performs an entry of the schedule, and everything an entry can do keeps the trace invariant. -/
theorem stepKeepsTraceOrder : Obligations.StepKeepsTraceOrder := by
  unfold Obligations.StepKeepsTraceOrder
  intro s t ok h
  cases hs : s.env.schedule with
  | nil =>
    obtain rfl : s = t := by simpa [step, hs] using h
    exact ok
  | cons e es =>
    have taken : TraceOk s.taken := ok.of_same rfl rfl rfl
    exact perform_traceOk taken (step_of_schedule_cons hs ▸ h)

end Sys2Proof.Machine
end

section
/-! PROOFS. The exceptions (60_exceptions.md): what raises each class (R301 to R304), that a failing command changes nothing
else (R305), and the steps that are no commands, which raise nothing and complete (R305, R311). -/

namespace Sys2Proof.Machine

/-! ## What a command raises -/

/-- What makes INITIALIZE in `IDLE` raise `ConfigurationError` (45_volume_lifecycle.md R276, 60_exceptions.md R301). -/
def InitializeInvalid (r : BitVec 24) (s : State) : Prop :=
  rateLegal r.toNat = false ∨ pinsOk s.cfg s.setup = false ∨ clockPlan (r.setWidth 32) true s = none

/-- What makes CHANGE_RATE while `RUNNING` raise `ConfigurationError` (42_clock_configurator.md R190, 60_exceptions.md R301). -/
def ChangeRateInvalid (r : BitVec 24) (s : State) : Prop :=
  rateLegal r.toNat = false ∨ clockPlan (r.setWidth 32) false s = none

/-- The class a command raises, one rule per cause (60_exceptions.md R301 to R304). -/
inductive Raises (s : State) : Instr → ErrorClass → Prop
  | configurePins {d c m : BitVec 6} {en : Bool} (running : s.lc = .running) :
      Raises s (.configurePins d c m en) .illegalCommand
  | configure {f : BitVec 3} {j : JitterMode} {st : Strategy} (cause : Format.ofCode f = none ∨ s.lc = .running) :
      Raises s (.configure f j st) .illegalCommand
  | initializeRunning {r : BitVec 24} (running : s.lc = .running) : Raises s (.initializeAt r) .hardwareContention
  | initializeInvalid {r : BitVec 24} (idle : s.lc = .idle) (invalid : InitializeInvalid r s) :
      Raises s (.initializeAt r) .configurationError
  | initializeUnclaimed {r : BitVec 24} (idle : s.lc = .idle) (valid : ¬ InitializeInvalid r s)
      (claim : s.env.hwClaimOk = false) : Raises s (.initializeAt r) .hardwareContention
  | changeRateIdle {r : BitVec 24} (idle : s.lc = .idle) : Raises s (.changeRate r) .illegalCommand
  | changeRateInvalid {r : BitVec 24} (running : s.lc = .running) (invalid : ChangeRateInvalid r s) :
      Raises s (.changeRate r) .configurationError
  | enqueueIdle {n : BitVec 22} {d : BitDepth} (idle : s.lc = .idle) : Raises s (.enqueue n d) .illegalCommand
  | enqueueDepth {n : BitVec 22} (running : s.lc = .running) : Raises s (.enqueue n .invalid) .configurationError
  | enqueueFull {n : BitVec 22} {d : BitDepth} {bits : Nat} (running : s.lc = .running) (depth : bitsOf d = some bits)
      (length : lengthOk s.cfg bits n.toNat = true) (full : s.ring.occ.toNat = s.cfg.n) :
      Raises s (.enqueue n d) .backpressureCondition
  | setVolume {a : BitVec 16} : Raises s (.setVolume a 3) .illegalCommand

theorem execInitialize_of_invalid {r : BitVec 24} {s : State} (idle : s.lc = .idle) (invalid : InitializeInvalid r s) :
    execInitialize r s = raise .configurationError s := by
  rw [execInitialize, if_neg (by simp [idle])]
  obtain illegal | pins | plan := invalid
  · simp [illegal]
  · simp [pins]
  · simp [plan]

theorem execInitialize_of_unclaimed {r : BitVec 24} {s : State} (idle : s.lc = .idle) (valid : ¬ InitializeInvalid r s)
    (claim : s.env.hwClaimOk = false) : execInitialize r s = raise .hardwareContention s := by
  obtain ⟨legal, pins, plan⟩ : _ ∧ _ ∧ _ := by simpa only [InitializeInvalid, not_or] using valid
  obtain ⟨p, plan⟩ := Option.ne_none_iff_exists'.1 plan
  simp [execInitialize, idle, legal, pins, plan, claim]

theorem execChangeRate_of_invalid {r : BitVec 24} {s : State} (running : s.lc = .running)
    (invalid : ChangeRateInvalid r s) : execChangeRate r s = raise .configurationError s := by
  rw [execChangeRate, if_neg (by simp [running])]
  obtain illegal | plan := invalid
  · simp [illegal]
  · simp [plan]

theorem Raises.exec_eq {i : Instr} {c : ErrorClass} {s : State} (h : Raises s i c) :
    exec i s = .next (s.finish 0 c) := by
  cases h with
  | configurePins running => exact if_pos running
  | configure cause =>
    obtain reserved | running := cause
    · simp [exec, execConfigure, reserved, raise]
    · simp only [exec, execConfigure, running]
      split <;> rfl
  | initializeRunning running => exact if_pos running
  | initializeInvalid idle invalid => exact execInitialize_of_invalid idle invalid
  | initializeUnclaimed idle valid claim => exact execInitialize_of_unclaimed idle valid claim
  | changeRateIdle idle => exact if_pos (by simp [idle])
  | changeRateInvalid running invalid => exact execChangeRate_of_invalid running invalid
  | enqueueIdle idle => exact if_pos (by simp [idle])
  | enqueueDepth running => simp [exec, execEnqueue, running, bitsOf, raise]
  | enqueueFull running depth length full => simp [exec, execEnqueue, running, depth, length, full, raise]
  | setVolume => simp [exec, execSetVolume, raise]

/-- A command that answers a next state has a cause to fail or succeeds. -/
theorem exec_raises_or_succeeds {i : Instr} {s t : State} (h : exec i s = .next t) :
    (∃ c, Raises s i c) ∨ t.res.err = .noError := by
  cases i with
  | configurePins d c m en =>
    by_cases running : s.lc = .running
    · exact .inl ⟨_, .configurePins running⟩
    · rw [exec, execConfigurePins, if_neg running, complete_eq_next] at h
      exact .inr (h ▸ rfl)
  | configure f j st =>
    by_cases cause : Format.ofCode f = none ∨ s.lc = .running
    · exact .inl ⟨_, .configure cause⟩
    · obtain ⟨named, idle⟩ := not_or.1 cause
      obtain ⟨fmt, named⟩ := Option.ne_none_iff_exists'.1 named
      simp only [exec, execConfigure, named, if_neg idle, complete_eq_next] at h
      exact .inr (h ▸ rfl)
  | initializeAt r =>
    obtain ⟨-, running | claim⟩ | ⟨-, idle, invalid⟩ | ⟨_, -, -, -, -, -, rfl⟩ := execInitialize_next h
    · exact .inl ⟨_, .initializeRunning running⟩
    · by_cases running : s.lc = .running
      · exact .inl ⟨_, .initializeRunning running⟩
      have idle := Lifecycle.eq_idle running
      by_cases invalid : InitializeInvalid r s
      · exact .inl ⟨_, .initializeInvalid idle invalid⟩
      · exact .inl ⟨_, .initializeUnclaimed idle invalid claim⟩
    · exact .inl ⟨_, .initializeInvalid idle invalid⟩
    · exact .inr rfl
  | changeRate r =>
    obtain ⟨-, idle⟩ | ⟨-, running, invalid⟩ | ⟨_, -, -, -, rfl⟩ := execChangeRate_next h
    · exact .inl ⟨_, .changeRateIdle idle⟩
    · exact .inl ⟨_, .changeRateInvalid running invalid⟩
    · exact .inr rfl
  | enqueue n d =>
    obtain ⟨-, idle⟩ | ⟨-, running, rfl⟩ | ⟨-, running, full, bits, depth, length⟩ | ⟨_, _, _, -, -, -, -, -, rfl⟩ :=
      execEnqueue_next h
    · exact .inl ⟨_, .enqueueIdle idle⟩
    · exact .inl ⟨_, .enqueueDepth running⟩
    · exact .inl ⟨_, .enqueueFull running depth length full⟩
    · exact .inr rfl
  | occupancy => exact .inr (complete_eq_next.1 h ▸ rfl)
  | setVolume a ch =>
    obtain ⟨-, rfl⟩ | ⟨-, rfl⟩ := execSetVolume_next h
    · exact .inl ⟨_, .setVolume⟩
    · exact .inr rfl
  | setHandler hs => exact .inr (complete_eq_next.1 h ▸ rfl)
  | shutdown => obtain ⟨-, rfl⟩ | ⟨-, rfl⟩ := execShutdown_next h <;> exact .inr rfl

/-- A command that ends with an error has a cause to raise it, and changes nothing but `RESULT` and `ERR`. -/
theorem exec_raises {i : Instr} {s t : State} {c : ErrorClass} (h : exec i s = .next t) (err : t.res.err = c)
    (failed : c ≠ .noError) : Raises s i c ∧ t = s.finish 0 c := by
  obtain ⟨d, raises⟩ | succeeds := exec_raises_or_succeeds h
  · obtain rfl : s.finish 0 d = t := Host.Outcome.next.inj (raises.exec_eq.symm.trans h)
    obtain rfl : d = c := err
    exact ⟨raises, rfl⟩
  · exact absurd (err.symm.trans succeeds) failed

/-! ## `IllegalCommand` (R304) -/

/-- A word is reserved, or runs the command it decodes to. -/
theorem runCommand_cases (w : Word) (s : State) :
    (¬ CommandWord w ∧ runCommand w s = .next (s.finish 0 .illegalCommand)) ∨
    ∃ i, decode w = .ok i ∧ runCommand w s = exec i s := by
  by_cases command : CommandWord w
  · obtain ⟨i, decodes⟩ := exists_decodes_iff.2 command
    have decoded := decode_eq_ok.2 decodes
    exact .inr ⟨i, decoded, runCommand_of_decode decoded s⟩
  · exact .inl ⟨command, runCommand_of_reserved command s⟩

theorem runCommand_of_raises {w : Word} {i : Instr} {c : ErrorClass} {s : State} (decoded : decode w = .ok i)
    (raises : Raises s i c) : runCommand w s = .next (s.finish 0 c) :=
  (runCommand_of_decode decoded s).trans raises.exec_eq

theorem Format.ofCode_ne_none : ∀ c : BitVec 3, c.toNat ≤ 4 → Format.ofCode c ≠ none := by decide

/-- Settles O7: of the causes of `IllegalCommand` the reserved format and channel codes are in no word that decodes. -/
theorem illegalCommandCauses : Obligations.IllegalCommandCauses := by
  unfold Obligations.IllegalCommandCauses
  intro w s cause
  constructor
  · rintro (reserved | ⟨running, ⟨d, c, m, en, decoded⟩ | ⟨f, j, st, decoded⟩⟩ | ⟨idle, ⟨r, decoded⟩ | ⟨n, d, decoded⟩⟩)
    · exact runCommand_of_reserved reserved s
    · exact runCommand_of_raises decoded (.configurePins running)
    · exact runCommand_of_raises decoded (.configure (.inr running))
    · exact runCommand_of_raises decoded (.changeRateIdle idle)
    · exact runCommand_of_raises decoded (.enqueueIdle idle)
  · intro t h err
    obtain ⟨reserved, -⟩ | ⟨i, decoded, runs⟩ := runCommand_cases w s
    · exact .inl reserved
    have wellFormed := (decode_eq_ok.1 decoded).wellFormed
    obtain ⟨raises, -⟩ := exec_raises (runs ▸ h) err nofun
    cases raises with
    | configurePins running => exact .inr (.inl ⟨running, .inl ⟨_, _, _, _, decoded⟩⟩)
    | configure cause =>
      have running := cause.resolve_left (Format.ofCode_ne_none _ (of_decide_eq_true wellFormed))
      exact .inr (.inl ⟨running, .inr ⟨_, _, _, decoded⟩⟩)
    | changeRateIdle idle => exact .inr (.inr ⟨idle, .inl ⟨_, decoded⟩⟩)
    | enqueueIdle idle => exact .inr (.inr ⟨idle, .inr ⟨_, _, decoded⟩⟩)
    | setVolume => cases wellFormed

/-! ## `HardwareContention` (R303) -/

/-- Settles O8: INITIALIZE alone raises the class, in `RUNNING` or, every other check passed, without the platform's claim. -/
theorem hardwareContentionCauses : Obligations.HardwareContentionCauses := by
  unfold Obligations.HardwareContentionCauses
  refine ⟨fun i s t h err => ?_, fun r s running => (Raises.initializeRunning running).exec_eq,
    fun r s idle legal pins plan claim => (Raises.initializeUnclaimed idle ?_ claim).exec_eq⟩
  · obtain ⟨raises, rfl⟩ := exec_raises h err nofun
    cases raises with
    | initializeRunning running => exact ⟨⟨_, rfl⟩, .inl running, rfl⟩
    | initializeUnclaimed _ _ claim => exact ⟨⟨_, rfl⟩, .inr claim, rfl⟩
  · simp [InitializeInvalid, legal, pins, plan]

/-! ## `ConfigurationError` (R301) -/

theorem rateLegal_eq_false (rate : Nat) : rateLegal rate = false ↔ rate < 8000 ∨ 384000 < rate := by
  rw [rateLegal, decide_eq_false_iff_not, rateMin, rateMax]
  omega

/-- The pins in use, below `NPINS` and pairwise different (45_volume_lifecycle.md R275). -/
theorem pinsOk_eq_true (p : Params) (u : Setup) : pinsOk p u = true ↔
    (u.pinData.toNat < p.nPins ∧ u.pinClkBase.toNat + 1 < p.nPins ∧ (u.mclkEn = true → u.pinMclk.toNat < p.nPins)) ∧
    u.pinData.toNat ≠ u.pinClkBase.toNat ∧ u.pinData.toNat ≠ u.pinClkBase.toNat + 1 ∧
    (u.mclkEn = true → u.pinMclk.toNat ≠ u.pinData.toNat ∧ u.pinMclk.toNat ≠ u.pinClkBase.toNat ∧
      u.pinMclk.toNat ≠ u.pinClkBase.toNat + 1) := by
  cases en : u.mclkEn <;> simp [pinsOk, pinsInUse, en] <;> omega

/-- Settles O9: the causes of the class are the three commands' checks. -/
theorem configurationErrorCauses : Obligations.ConfigurationErrorCauses := by
  unfold Obligations.ConfigurationErrorCauses
  refine ⟨pinsOk_eq_true, fun i s => ?_⟩
  simp only [← rateLegal_eq_false]
  refine ⟨?_, fun t h err => ?_⟩
  · rintro (⟨r, rfl, idle, invalid⟩ | ⟨r, rfl, running, invalid⟩ | ⟨n, rfl, running⟩)
    · exact (Raises.initializeInvalid idle invalid).exec_eq
    · exact (Raises.changeRateInvalid running invalid).exec_eq
    · exact (Raises.enqueueDepth running).exec_eq
  · obtain ⟨raises, rfl⟩ := exec_raises h err nofun
    refine ⟨?_, rfl⟩
    cases raises with
    | initializeInvalid idle invalid => exact .inl ⟨_, rfl, idle, invalid⟩
    | changeRateInvalid running invalid => exact .inr (.inl ⟨_, rfl, running, invalid⟩)
    | enqueueDepth running => exact .inr (.inr ⟨_, rfl, running⟩)

/-! ## `BackpressureCondition` (R302) -/

/-- The ENQUEUE that meets a full ring: of a valid depth and a well-formed length, while `RUNNING`. -/
theorem exec_backpressure {i : Instr} {s t : State} (h : exec i s = .next t) (err : t.res.err = .backpressureCondition) :
    (∃ n d bits, i = .enqueue n d ∧ bitsOf d = some bits ∧ lengthOk s.cfg bits n.toNat = true) ∧
      s.lc = .running ∧ s.ring.occ.toNat = s.cfg.n ∧ t = s.finish 0 .backpressureCondition := by
  obtain ⟨raises, rfl⟩ := exec_raises h err nofun
  cases raises with
  | enqueueFull running depth length full => exact ⟨⟨_, _, _, rfl, depth, length⟩, running, full, rfl⟩

theorem execEnqueue_of_noError {n : BitVec 22} {d : BitDepth} {s t : State} (h : execEnqueue n d s = .next t)
    (ok : t.res.err = .noError) :
    s.lc = .running ∧ ∃ bits, bitsOf d = some bits ∧ lengthOk s.cfg bits n.toNat = true := by
  obtain ⟨rfl, -⟩ | ⟨rfl, -⟩ | ⟨rfl, -⟩ | ⟨bits, _, _, running, depth, length, -⟩ := execEnqueue_next h
  · cases ok
  · cases ok
  · cases ok
  · exact ⟨running, bits, depth, length⟩

/-- Settles O10: read exactly the pre-test fails on a full ring, and read one dequeue late one block below capacity too. -/
theorem backpressureCauses : Obligations.BackpressureCauses := by
  unfold Obligations.BackpressureCauses
  refine ⟨fun n d bits s running depth length full => (Raises.enqueueFull running depth length full).exec_eq,
    fun i s t h err => exec_backpressure h err, fun w s t h err => ?_⟩
  obtain fresh | ⟨n, d, u, decoded, succeeds, ok, below, rfl⟩ := runCommandStale_next h
  · obtain ⟨-, reserved⟩ | ⟨i, decoded, runs⟩ := runCommand_cases w s
    · cases reserved.symm.trans fresh
      cases err
    · obtain ⟨⟨n, d, bits, rfl, depth, length⟩, running, full, rfl⟩ := exec_backpressure (runs ▸ fresh) err
      exact ⟨⟨n, d, bits, decoded, depth, length⟩, running, .inl full, rfl⟩
  · obtain ⟨running, bits, depth, length⟩ := execEnqueue_of_noError succeeds ok
    exact ⟨⟨n, d, bits, decoded, depth, length⟩, running, .inr below, rfl⟩

/-! ## A failing command (R305) -/

@[simp] theorem clockPlan_finish (rate : Word) (first : Bool) (s : State) (v : Word) (c : ErrorClass) :
    clockPlan rate first (s.finish v c) = clockPlan rate first s := rfl

@[simp] theorem clockCommit_finish (p : ClockPlan) (first : Bool) (s : State) (v : Word) (c : ErrorClass) :
    clockCommit p first (s.finish v c) = (clockCommit p first s).finish v c := by
  rw [clockCommit_eq, clockCommit_eq]
  rfl

@[simp] theorem startSession_finish (s : State) (v : Word) (c : ErrorClass) :
    startSession (s.finish v c) = (startSession s).finish v c := by
  rw [startSession_eq, startSession_eq]
  rfl

/-- No command reads `RESULT` or `ERR`, and each writes both. -/
theorem exec_finish (i : Instr) (s : State) (v : Word) (c : ErrorClass) : exec i (s.finish v c) = exec i s := by
  cases i with
  | initializeAt r => simp [exec, execInitialize, complete, raise]
  | changeRate r => simp [exec, execChangeRate, complete, raise]
  | shutdown =>
    cases lifecycle : s.lc with
    | idle => exact (execShutdown_of_idle (s := s.finish v c) lifecycle).trans (execShutdown_of_idle lifecycle).symm
    | running =>
      exact (execShutdown_of_running (s := s.finish v c) lifecycle).trans (execShutdown_of_running lifecycle).symm
  | _ => rfl

/-- The steps that are no commands write no configuration, no clock and no result. -/
theorem perform_frame {e : Event} {s t : State}
    (mem : e ∈ [Event.dmaRead, .dmaDone, .irqStep, .irqStepStale, .ctx2Fill, .ctx2FillStale, .ctx2Arm])
    (h : perform e s = .next t) : BlockFrame s t := by
  simp only [List.mem_cons, List.not_mem_nil, or_false] at mem
  obtain rfl | rfl | rfl | rfl | rfl | rfl | rfl := mem
  · exact dmaRead_frame h
  · exact dmaDone_frame h
  · exact irqBody_frame (irqStep_next h).2
  · exact irqBody_frame (irqStepStale_next h).2.2
  · exact fillBody_frame (ctx2Fill_next h).2
  · exact fillBody_frame (ctx2FillStale_next h).2.2
  · exact ctx2Arm_frame h

/-- Settles O11: `RESULT` and `ERR` are all a failing command writes, and no command reads them. -/
theorem failedCommandChangesNothingElse : Obligations.FailedCommandChangesNothingElse := by
  unfold Obligations.FailedCommandChangesNothingElse
  exact ⟨fun i s t h failed => (exec_raises h rfl failed).2, exec_finish, fun e s t mem h => (perform_frame mem h).res⟩

/-! ## The steps that are no commands (R305, R311) -/

/-- Settles O45: enabled they answer, since every datum they read was written. -/
theorem enabledStepsComplete : Obligations.EnabledStepsComplete := by
  unfold Obligations.EnabledStepsComplete
  intro s inv
  exact ⟨fun enabled => ⟨_, irqStep_of_enabled enabled⟩, fun enabled => ⟨_, ctx2Fill_of_enabled inv.ring enabled⟩,
    fun enabled => ⟨_, ctx2Arm_of_enabled enabled⟩, dmaRead_of_enabled inv.seq, dmaDone_completes inv.seq⟩

/-- Settles O40: with every datum delivered none is left to deliver, so that only the transfer's end is written. -/
theorem dmaDoneEndsTransfer : Obligations.DmaDoneEndsTransfer := by
  unfold Obligations.DmaDoneEndsTransfer
  refine ⟨fun s running busy delivered => ?_, fun s ignored => if_neg ignored⟩
  have left : armedDatums s s.env.pos (s.dma.count.toNat - s.env.pos) = some [] := by
    rw [delivered, Nat.sub_self, armedDatums]
  refine (dmaDone_of_armedDatums running busy left).trans ?_
  cases strat : s.setup.strat <;> simp [transferComplete, State.deliver, strat]

end Sys2Proof.Machine
end

section
/-! PROOFS. The hazards of ENQUEUE: an input byte never written since reset (70_reset_and_hazards.md R356), and the
overwrite of the slot in flight (R351). -/

namespace Sys2Proof.Machine

/-! ## An input byte never written (R356) -/

/-- An ENQUEUE that has passed every check faults exactly when its input cannot be read. -/
theorem execEnqueue_eq_fault_iff {n : BitVec 22} {d : BitDepth} {bits : Nat} {s : State} (running : s.lc = .running)
    (depth : bitsOf d = some bits) (ok : lengthOk s.cfg bits n.toNat = true) (notFull : s.ring.occ.toNat ≠ s.cfg.n) :
    execEnqueue n d s = .fault .inbufUnwritten ↔ Memory.readRange s.inbuf 0 n.toNat = none := by
  cases input : Memory.readRange s.inbuf 0 n.toNat with
  | none => simp [execEnqueue, running, depth, ok, notFull, input]
  | some bytes =>
    have completes := execEnqueue_of_ringEnqueue running depth ok input (ringEnqueue_eq_some.2 ⟨notFull, rfl⟩)
    simp [completes, complete]

theorem execEnqueue_fault_eq {n : BitVec 22} {d : BitDepth} {s : State} {f : Fault} (h : execEnqueue n d s = .fault f) :
    f = .inbufUnwritten := by
  obtain ⟨t, answers⟩ | refused | faults := execEnqueue_outcome n d s
  · cases answers.symm.trans h
  · cases refused.symm.trans h
  · exact Host.Outcome.fault.inj (h.symm.trans faults)

theorem enqueue_of_exec_fault {i : Instr} {s : State} {f : Fault} (h : exec i s = .fault f) : ∃ n d, i = .enqueue n d := by
  by_contra other
  obtain ⟨t, completes⟩ := exec_completes (fun n d hi => other ⟨n, d, hi⟩) s
  cases completes.symm.trans h

/-- Settles O23: past its checks ENQUEUE stops only at the read of its input, and every other command answers. -/
theorem unwrittenInputFaults : Obligations.UnwrittenInputFaults := by
  unfold Obligations.UnwrittenInputFaults
  refine ⟨fun n d bits s running depth ok notFull => ?_, fun i s f h => ?_⟩
  · calc exec (.enqueue n d) s = .fault .inbufUnwritten
      _ ↔ Memory.readRange s.inbuf 0 n.toNat = none := execEnqueue_eq_fault_iff running depth ok notFull
      _ ↔ ∃ j, j < n.toNat ∧ Memory.read s.inbuf j = none := by simp only [Memory.readRange_eq_none, Nat.zero_add]
  · obtain ⟨n, d, rfl⟩ := enqueue_of_exec_fault h
    exact ⟨⟨n, d, rfl⟩, execEnqueue_fault_eq h⟩

/-! ## The slot in flight overwritten (R351) -/

theorem armedDatum_of_slot {s : State} (slot : s.dma.kind = .slot) (j : Nat) :
    armedDatum s j = s.ring.datum s.dma.idx.toNat j := by
  simp [armedDatum, slot]

/-- Settles O43: the engine reads slots in place, so it sees the block the ring stored over the old one. -/
theorem enqueueOverInFlightSlot : Obligations.EnqueueOverInFlightSlot := by
  unfold Obligations.EnqueueOverInFlightSlot
  intro n d s t cursors slot overtaken h succeeds
  have inside : s.ring.enq.toNat < s.ring.slots.length := cursors.slots_length ▸ cursors.enq_lt
  obtain ⟨rfl, -⟩ | ⟨rfl, -⟩ | ⟨rfl, -⟩ | ⟨bits, bytes, r, -, depth, -, input, stored, rfl⟩ := execEnqueue_next h
  · cases succeeds
  · cases succeeds
  · cases succeeds
  · refine ⟨bits, bytes, depth, input, rfl, rfl, fun j => ?_⟩
    have stores := datum_of_ringEnqueue inside stored s.ring.enq.toNat j
    simpa [armedDatum_of_slot, slot, overtaken] using stores

end Sys2Proof.Machine
end
